-- ==== Sys2Proof/Word.lean ====
section
/-! DEFINITION. The two word types of the engine: a byte of IN or OUT, and the 32-bit word of a command, a control
register or the host bus (spec/30_encoding.md R100, spec/20_memory.md R72). -/

namespace Sys2Proof

/-- One byte of the IN or OUT buffer. -/
abbrev Byte := BitVec 8

/-- A command word, a control register or a 32-bit bus word; bit 0 is the least significant (R10). -/
abbrev Word := BitVec 32

end Sys2Proof
end

