-- ==== Sys2Proof/Syntax.lean ====
section
/-! DEFINITION. The 13 commands of the BN254-ENG command set, version 1, one constructor per row of
spec/opcode_table.json (spec/30_encoding.md R106), and the four pseudo-commands of R112. -/

namespace Sys2Proof

/-- An F-register operand: every value of the 4-bit field is legal (R102). -/
abbrev FReg := Fin 16

/-- A P-register operand: the two low bits of a 4-bit field (R104). -/
abbrev PReg := Fin 4

/-- The commands. A slot's bound is that of R105. -/
inductive Instr where
  /-- FADD, R130. -/
  | fadd (rd rs1 rs2 : FReg)
  /-- FSUB, R131. -/
  | fsub (rd rs1 rs2 : FReg)
  /-- FMUL, R132. -/
  | fmul (rd rs1 rs2 : FReg)
  /-- FINV, R133. -/
  | finv (rd rs : FReg)
  /-- FLD, R134. -/
  | fld (rd : FReg) (slot : Fin 4)
  /-- FST, R135. -/
  | fst (rs : FReg) (slot : Fin 2)
  /-- PCHK, R160. -/
  | pchk (rs1 rs2 : FReg)
  /-- PDEC, R163. -/
  | pdec (pd : PReg) (rs1 rs2 : FReg)
  /-- PADD, R166. -/
  | padd (pd ps1 ps2 : PReg)
  /-- PENC, R167. WellFormed asks that rd be even (R103). -/
  | penc (rd : FReg) (ps : PReg)
  /-- PLD, R190. -/
  | pld (pd : PReg) (slot : Fin 2)
  /-- PST, R192. -/
  | pst (ps : PReg)
  /-- ADD, R210. -/
  | add
  deriving DecidableEq, Repr

/-- FSQR rd, rs (R112). -/
def Instr.fsqr (rd rs : FReg) : Instr := .fmul rd rs rs

/-- FDBL rd, rs (R112). -/
def Instr.fdbl (rd rs : FReg) : Instr := .fadd rd rs rs

/-- FCLR rd, rs (R112). -/
def Instr.fclr (rd rs : FReg) : Instr := .fsub rd rs rs

/-- PDBL pd, ps (R112). -/
def Instr.pdbl (pd ps : PReg) : Instr := .padd pd ps ps

end Sys2Proof
end

