-- ==== Sys2Proof/WellFormed.lean ====
section
/-! DEFINITION. Which terms of Instr are commands of the engine. Every bound but one is in the operand types; the one
check left is that PENC's destination is even (spec/30_encoding.md R103). -/

namespace Sys2Proof

/-- A register number that may head a pair of F registers (R103). -/
def FReg.even (r : FReg) : Bool := r.val % 2 == 0

/-- The command has an encoding (R106). -/
def Instr.wf : Instr → Bool
  | .fadd _ _ _ => true
  | .fsub _ _ _ => true
  | .fmul _ _ _ => true
  | .finv _ _ => true
  | .fld _ _ => true
  | .fst _ _ => true
  | .pchk _ _ => true
  | .pdec _ _ _ => true
  | .padd _ _ _ => true
  | .penc rd _ => FReg.even rd
  | .pld _ _ => true
  | .pst _ => true
  | .add => true

end Sys2Proof
end

