-- ==== Sys2Proof/Decode.lean ====
section
/-! DEFINITION. Decoding and encoding of command words, from the opcode map of spec/30_encoding.md R106, R107, R113. The
decoder follows the table's masks and matches; the encoder follows R113's sum of fields: neither is made from the other.
The all-zero word and every word that matches no row are illegal (R108). -/

namespace Sys2Proof

/-- The rows of the opcode map. -/
inductive Opcode where
  | fadd | fsub | fmul | finv | fld | fst | pchk | pdec | padd | penc | pld | pst | add
  deriving DecidableEq, Repr

/-- One row of R106: a word is of this row exactly when its bits under `mask` are `pattern`. -/
structure OpcodeRow where
  op : Opcode
  pattern : Word
  mask : Word
  deriving DecidableEq, Repr

/-- The opcode map of R106. -/
def opcodeMap : List OpcodeRow :=
  [⟨.fadd, 0x00000001, 0xFFF000FF⟩, ⟨.fsub, 0x00000002, 0xFFF000FF⟩, ⟨.fmul, 0x00000003, 0xFFF000FF⟩,
   ⟨.finv, 0x00000004, 0xFFFF00FF⟩, ⟨.fld, 0x00000008, 0xFFFCF0FF⟩, ⟨.fst, 0x00000009, 0xFFFE0FFF⟩]
  ++
  [⟨.pchk, 0x00000010, 0xFFF00FFF⟩, ⟨.pdec, 0x00000011, 0xFFF00CFF⟩, ⟨.padd, 0x00000012, 0xFFFCCCFF⟩,
   ⟨.penc, 0x00000013, 0xFFFFC1FF⟩, ⟨.pld, 0x00000018, 0xFFFEFCFF⟩, ⟨.pst, 0x00000019, 0xFFFFCFFF⟩,
   ⟨.add, 0x00000020, 0xFFFFFFFF⟩]

/-- `(w AND mask) = match` of R106. -/
def OpcodeRow.holds (r : OpcodeRow) (w : Word) : Bool := w &&& r.mask == r.pattern

/-- w[7:0] (R100). -/
def opField (w : Word) : Nat := (w.extractLsb' 0 8).toNat

/-- w[11:8], the destination field (R100). -/
def fieldA (w : Word) : Nat := (w.extractLsb' 8 4).toNat

/-- w[15:12], the first source field (R100). -/
def fieldB (w : Word) : Nat := (w.extractLsb' 12 4).toNat

/-- w[19:16], the second source field or the slot (R100). -/
def fieldC (w : Word) : Nat := (w.extractLsb' 16 4).toNat

/-- F[i] for a 4-bit field value i (R102). -/
def fRegOf (field : Nat) : FReg := Fin.ofNat 16 field

/-- P[j] for bits 1:0 of a field (R104). -/
def pRegOf (field : Nat) : PReg := Fin.ofNat 4 field

/-- The operands of a word that has matched the row `op` (R106, R107). -/
def operandsOf (op : Opcode) (w : Word) : Instr :=
  match op with
  | .fadd => .fadd (fRegOf (fieldA w)) (fRegOf (fieldB w)) (fRegOf (fieldC w))
  | .fsub => .fsub (fRegOf (fieldA w)) (fRegOf (fieldB w)) (fRegOf (fieldC w))
  | .fmul => .fmul (fRegOf (fieldA w)) (fRegOf (fieldB w)) (fRegOf (fieldC w))
  | .finv => .finv (fRegOf (fieldA w)) (fRegOf (fieldB w))
  | .fld => .fld (fRegOf (fieldA w)) (Fin.ofNat 4 (fieldC w))
  | .fst => .fst (fRegOf (fieldB w)) (Fin.ofNat 2 (fieldC w))
  | .pchk => .pchk (fRegOf (fieldB w)) (fRegOf (fieldC w))
  | .pdec => .pdec (pRegOf (fieldA w)) (fRegOf (fieldB w)) (fRegOf (fieldC w))
  | .padd => .padd (pRegOf (fieldA w)) (pRegOf (fieldB w)) (pRegOf (fieldC w))
  | .penc => .penc (fRegOf (fieldA w)) (pRegOf (fieldB w))
  | .pld => .pld (pRegOf (fieldA w)) (Fin.ofNat 2 (fieldC w))
  | .pst => .pst (pRegOf (fieldB w))
  | .add => .add

/-- Why a word is illegal (R108). Both kinds end with the same code 5 (R237). -/
inductive Illegal where
  /-- The OP byte is none of the 13 (R108). -/
  | reservedOpcode
  /-- The OP byte is defined, and a bit outside the row's free fields is set (R101, R108). -/
  | mustBeZeroBitSet
  deriving DecidableEq, Repr

/-- Decode of R107: total, one command or Illegal, the rejection by name. -/
def decode (w : Word) : Except Illegal Instr :=
  match opcodeMap.find? (fun r => r.holds w) with
  | some r => .ok (operandsOf r.op w)
  | none =>
    if opcodeMap.any (fun r => (r.pattern &&& 0xFF).toNat == opField w) then .error .mustBeZeroBitSet
    else .error .reservedOpcode

/-- The word with the given field values: OP | (A << 8) | (B << 12) | (C << 16) (R113). -/
def wordOf (op a b c : Nat) : Word :=
  BitVec.ofNat 32 op ||| (BitVec.ofNat 32 a <<< 8) ||| (BitVec.ofNat 32 b <<< 12) ||| (BitVec.ofNat 32 c <<< 16)

/-- The encoding of an assembled command (R113), with the opcodes and fields of R106. A PENC with an odd destination,
which WellFormed refuses, gets a word the decoder calls illegal. -/
def encode : Instr → Word
  | .fadd rd rs1 rs2 => wordOf 0x01 rd rs1 rs2
  | .fsub rd rs1 rs2 => wordOf 0x02 rd rs1 rs2
  | .fmul rd rs1 rs2 => wordOf 0x03 rd rs1 rs2
  | .finv rd rs => wordOf 0x04 rd rs 0
  | .fld rd slot => wordOf 0x08 rd 0 slot
  | .fst rs slot => wordOf 0x09 0 rs slot
  | .pchk rs1 rs2 => wordOf 0x10 0 rs1 rs2
  | .pdec pd rs1 rs2 => wordOf 0x11 pd rs1 rs2
  | .padd pd ps1 ps2 => wordOf 0x12 pd ps1 ps2
  | .penc rd ps => wordOf 0x13 rd ps 0
  | .pld pd slot => wordOf 0x18 pd 0 slot
  | .pst ps => wordOf 0x19 0 ps 0
  | .add => wordOf 0x20 0 0 0

/-- What the decoder reads from a word given as the number of its bits. Every command is one 32-bit word (R100), so the
row's width does not matter. -/
def decodeTableWord (_nbits w : Nat) : Option Instr :=
  match decode (BitVec.ofNat 32 w) with
  | .ok i => some i
  | .error _ => none

end Sys2Proof
end

