-- ==== Sys2Proof/Config.lean ====
section
/-! DEFINITION. The fixed constants and parameters of the engine (spec/00_scope.md R6 to R9). The field modulus and the
curve constant are immutable (R8). BASE is the one open parameter with an architectural meaning: it is an opaque
constant, so no proof can see its value. LATENCY has no counterpart, since the model has no time (log entry 15), and
REDUCTION_FORM has none, since it is unobservable (R150, U1). -/

namespace Sys2Proof.Config

/-- The field modulus p (R6, D34). -/
def p : Nat := 0x30644e72e131a029b85045b68181585d97816a916871ca8d3c208c16d87cfd47

/-- The curve constant b of y^2 = x^3 + b (R7, D34). -/
def b : Nat := 3

theorem p_pos : 0 < p := by decide

/-- FIELD_BITS of R9: the bit length of p. -/
abbrev fieldBits : Nat := 254

/-- ELEM_BYTES of R9: the wire width of a field element. -/
abbrev elemBytes : Nat := 32

/-- POINT_BYTES of R9. -/
abbrev pointBytes : Nat := 64

/-- IN_BYTES of R9, the capacity of IN, and the one INLEN that ADD takes (R210). -/
abbrev inBytes : Nat := 128

/-- OUT_BYTES of R9, the capacity of OUT. -/
abbrev outBytes : Nat := 64

/-- WINDOW of R9: the bytes of host address space the engine answers to. -/
abbrev windowBytes : Nat := 256

/-- Which 256-byte page of the host's address space the window is. Open (R9, R70, U7): no value can be proved of it. -/
opaque windowPage : Nat

/-- BASE, the host address of the window: a multiple of 256 (R70). -/
def base : Nat := windowBytes * windowPage

end Sys2Proof.Config

namespace Sys2Proof

/-- The set Fp of R12: the integers 0 to p-1. A value of this type is canonical (R32). -/
abbrev Fp := Fin Config.p

end Sys2Proof
end

