-- ==== Sys2Proof/Machine/FieldArith.lean ====
section
/-! DEFINITION. Field arithmetic on Fp (spec/00_scope.md R10, R14; spec/40_field.md R136, R151): every operation is computed
exactly on integers and narrowed once, by `reduce`. -/

namespace Sys2Proof.Machine

/-- `a mod p` of R10: the remainder in [0, p) of any integer, negative ones included. -/
def reduce (a : Int) : Fp :=
  ⟨(a % (Config.p : Int)).toNat, by
    have hp : (0 : Int) < (Config.p : Int) := Int.natCast_pos.mpr Config.p_pos
    have h0 := Int.emod_nonneg a (Int.ne_of_gt hp)
    have h1 := Int.emod_lt_of_pos a hp
    omega⟩

/-- A field element as the integer it is (R32). -/
def toInt (a : Fp) : Int := (a.val : Int)

/-- The element 0. -/
def fzero : Fp := ⟨0, Config.p_pos⟩

/-- fadd of R14. -/
def fadd (a c : Fp) : Fp := reduce (toInt a + toInt c)

/-- fsub of R14. -/
def fsub (a c : Fp) : Fp := reduce (toInt a - toInt c)

/-- fmul of R14. -/
def fmul (a c : Fp) : Fp := reduce (toInt a * toInt c)

/-- fneg of R14. -/
def fneg (a : Fp) : Fp := reduce (0 - toInt a)

/-- a^e mod p by squaring, for an exponent e below 2^fuel. -/
def fpow (a : Fp) : Nat → Nat → Fp
  | 0, _ => reduce 1
  | fuel + 1, e =>
    let rest := fpow (fmul a a) fuel (e / 2)
    if e % 2 = 1 then fmul a rest else rest

/-- finv of R14, for a nonzero a, computed as a^(p-2) (R151: the method is not architectural). -/
def finv (a : Fp) : Fp := fpow a Config.fieldBits (Config.p - 2)

/-- A natural number below p as a field element; `none` when it is out of range (R151: compared, never reduced). -/
def canonical? (v : Nat) : Option Fp := if h : v < Config.p then some ⟨v, h⟩ else none

end Sys2Proof.Machine
end

