-- ==== Sys2Proof/Machine/Bytes.lean ====
section
/-! DEFINITION. Big-endian byte sequences (spec/00_scope.md R11, spec/20_memory.md R75) and the packing of bits into a
word (R10). -/

namespace Sys2Proof.Machine

/-- BE(s) of R11: the first byte has weight 256^(len(s)-1). -/
def be : List Byte → Nat
  | [] => 0
  | x :: rest => x.toNat * 256 ^ rest.length + be rest

/-- The n-byte big-endian sequence of v mod 256^n. -/
def toBE : Nat → Nat → List Byte
  | 0, _ => []
  | n + 1, v => BitVec.ofNat 8 (v / 256 ^ n) :: toBE n v

/-- toBE32 of R11, of a field element: 32 bytes, zero-padded. -/
def toBE32 (v : Fp) : List Byte := toBE Config.elemBytes v.val

/-- The number whose bit i is the i-th entry of the list (R10: bit 0 is the least significant). -/
def bitsToNat : List Bool → Nat
  | [] => 0
  | x :: rest => x.toNat + 2 * bitsToNat rest

end Sys2Proof.Machine
end

