-- ==== Sys2Proof/Machine/State.lean ====
section
/-! DEFINITION. The state of one engine instance as plain data (spec/10_state.md R31, R50, R55), the host's accesses and
the events of the agents (R30, spec/20_memory.md R76), the status codes (spec/60_exceptions.md R230), and the reasons a
step can stop. The schedule and lastRead are the model's own fields (log entries 2 and 6). -/

namespace Sys2Proof.Machine

/-- Cell(T) of R12: `invalid` is the spec's own state of a register that no command has written since reset (R34). -/
inductive Cell (α : Type) where
  | invalid
  | valid (v : α)
  deriving DecidableEq, Repr

/-- The valid bit of a register cell (R41). -/
def Cell.isValid {α : Type} : Cell α → Bool
  | .invalid => false
  | .valid _ => true

/-- Point of R12: INF or an affine pair. That an affine point is on the curve is an invariant (R35, Safety.lean). -/
inductive Point where
  | inf
  | aff (x y : Fp)
  deriving DecidableEq, Repr

/-- The errors a command can end with, codes 1 to 6 of R230. -/
inductive ErrorKind where
  | invalidInputLength | outOfRange | pointNotOnCurve | divisionByZero | illegalCommand | uninitRegister
  deriving DecidableEq, Repr

/-- STATUS.CODE (R230). The reserved codes 7 to 255, which the engine never produces, have no value here (U6). -/
inductive StatusCode where
  | ok
  | error (e : ErrorKind)
  deriving DecidableEq, Repr

/-- The numbers of R230. -/
def StatusCode.toByte : StatusCode → Byte
  | .ok => 0
  | .error .invalidInputLength => 1
  | .error .outOfRange => 2
  | .error .pointNotOnCurve => 3
  | .error .divisionByZero => 4
  | .error .illegalCommand => 5
  | .error .uninitRegister => 6

/-- One host access at a host byte address, `width` bits wide (R72). The port refuses every width but 8 and 32 (R74). A
write's data is the bus word; an 8-bit write carries its byte in bits 7:0 (log entry 17). -/
inductive Access where
  | read (addr width : Nat)
  | write (addr width : Nat) (data : Word)
  deriving DecidableEq, Repr

/-- What an agent does in one step (R30, R44, R76, R270). -/
inductive Event where
  /-- The port performs a host access. -/
  | access (a : Access)
  /-- The engine takes the completion step, if a command is in flight. -/
  | engine
  /-- Reset. -/
  | reset
  /-- A host access reaches the port while reset is asserted (R271, U10). -/
  | accessDuringReset (a : Access)
  deriving DecidableEq, Repr

/-- IN and OUT: the bytes that are not zero, keyed by window offset (R70), offsets strictly rising. An unlisted offset
reads 0x00, the reset contents of R55. -/
abbrev Memory := List Host.Cell

/-- The state of one engine instance. -/
structure State where
  /-- IN at offsets 0x00-0x7F and OUT at 0x80-0xBF (R31, R70). -/
  mem : Memory
  /-- INLEN (R40). -/
  inlen : Word
  /-- CMD: the word most recently accepted (R38). -/
  cmd : Word
  /-- The in-flight command: the word latched at acceptance while its completion is owed (R50). STATUS.BUSY is 1 exactly
  when there is one (R43, R44, R55), so BUSY has no field of its own. -/
  inflight : Option Word
  /-- STATUS.DONE (R39). -/
  done : Bool
  /-- STATUS.OVR (R39, R45). -/
  ovr : Bool
  /-- The FLAG register (R37). -/
  flag : Bool
  /-- STATUS.CODE (R39, R230). -/
  code : StatusCode
  /-- F0 to F15 (R32). -/
  fregs : Vector (Cell Fp) 16
  /-- P0 to P3 (R35). -/
  pregs : Vector (Cell Point) 4
  /-- THE MODEL'S OWN: what the agents do next, first event first; when it is empty the engine moves. -/
  schedule : List Event
  /-- THE MODEL'S OWN: the bus word the port returned to the most recent host read. -/
  lastRead : Option Word
  deriving DecidableEq, Repr

/-- The state after reset (R55). -/
def State.reset : State where
  mem := []
  inlen := 0
  cmd := 0
  inflight := none
  done := false
  ovr := false
  flag := false
  code := .ok
  fregs := Vector.replicate 16 .invalid
  pregs := Vector.replicate 4 .invalid
  schedule := []
  lastRead := none

/-- Why the machine stops. -/
inductive Fault where
  /-- Raised by a host access the port refuses with a bus error (R74; U8: a fault of the host step). SAFE: the spec says
  only that the engine's state is unchanged and leaves the rest to the host platform. -/
  | busError
  /-- Raised by PADD and ADD when PointAdd reaches its DivisionByZero guard (R165; U3: fault). SAFE: no state that keeps
  the invariant of R35 reaches it. -/
  | divisionByZeroGuard
  /-- Raised by PADD and ADD when PointAdd gets equal x with y2 neither y1 nor -y1 (U12: stuck; N14). SAFE: no state that
  keeps the invariant of R35 reaches it. -/
  | equalXOffCurve
  deriving DecidableEq, Repr

/-- Why the model gives a step no meaning. -/
inductive Refusal where
  /-- An instruction not modelled yet, by its mnemonic. No arm of exec raises it. SAFE. -/
  | notModelled (mnemonic : String)
  /-- Raised by a host access during reset (R271; U10: refuse). SAFE: the spec says no claim covers such a run. -/
  | hostAccessDuringReset
  deriving DecidableEq, Repr

/-- How a command's rule can end early: `raise E` of R13, or a state the model gives no step (U3, U12). -/
inductive Exit where
  | raised (e : ErrorKind)
  | halt (r : Fault)
  deriving DecidableEq, Repr

/-- The outcome of a step of this machine. -/
abbrev StepResult := Host.Outcome State Fault Refusal

end Sys2Proof.Machine
end

