-- ==== Sys2Proof/Machine/Ops.lean ====
section
/-! DEFINITION. The named operations on the state: buffer memory in its canonical form (spec/20_memory.md R70), the two
register files (spec/00_scope.md R13), acceptance and overrun (spec/10_state.md R43, R45), completion (R44), and the one
way a command reports an error (spec/60_exceptions.md R231, R240). There is no return from an error (R241): the next
acceptance clears DONE and CODE, and that is `State.accept`. -/

namespace Sys2Proof.Machine

/-! ### Buffer memory -/

/-- The canonical form: offsets strictly rising, every offset inside IN or OUT, no entry zero. -/
def Memory.wf : Memory → Bool
  | [] => true
  | (a, v) :: rest => v != 0 && decide (a < 0xC0) && rest.all (fun c => decide (a < c.1)) && Memory.wf rest

/-- The byte at a window offset; an unlisted one is 0x00 (R55). -/
def Memory.read : Memory → Nat → Byte
  | [], _ => 0
  | (b, u) :: rest, a => if a = b then u else Memory.read rest a

/-- List a byte that is not zero at its place in the order. -/
def Memory.insert : Memory → Nat → Byte → Memory
  | [], a, v => [(a, v)]
  | (b, u) :: rest, a, v =>
    if a < b then (a, v) :: (b, u) :: rest
    else if a = b then (a, v) :: rest
    else (b, u) :: Memory.insert rest a v

/-- Store a byte; storing zero unlists the offset. -/
def Memory.write (m : Memory) (a : Nat) (v : Byte) : Memory :=
  if v = 0 then m.filter (fun c => decide (c.1 ≠ a)) else Memory.insert m a v

/-- The n bytes from offset a on, lowest offset first. -/
def Memory.readBytes (m : Memory) (a : Nat) : Nat → List Byte
  | 0 => []
  | n + 1 => Memory.read m a :: Memory.readBytes m (a + 1) n

/-- Store a byte sequence from offset a on. -/
def Memory.writeBytes (m : Memory) (a : Nat) : List Byte → Memory
  | [] => m
  | v :: rest => Memory.writeBytes (Memory.write m a v) (a + 1) rest

/-- MemRead(off, n) of R13: n bytes of IN. -/
def State.memRead (s : State) (off n : Nat) : List Byte := Memory.readBytes s.mem off n

/-- MemWrite(off, n, bytes) of R13: the bytes go to OUT. -/
def State.memWrite (s : State) (off : Nat) (bytes : List Byte) : State :=
  { s with mem := Memory.writeBytes s.mem (0x80 + off) bytes }

/-- IN[i] (R31). -/
def State.inByte (s : State) (i : Nat) : Byte := Memory.read s.mem i

/-- OUT[i] (R31). -/
def State.outByte (s : State) (i : Nat) : Byte := Memory.read s.mem (0x80 + i)

/-! ### Commands that end early -/

/-- `raise E` of R13. -/
def raise {α : Type} (e : ErrorKind) : Except Exit α := .error (.raised e)

/-- A state in which the model gives PointAdd no step (U3, U12). -/
def halt {α : Type} (r : Fault) : Except Exit α := .error (.halt r)

/-- `if not ok then raise E`. -/
def require (ok : Bool) (e : ErrorKind) : Except Exit Unit := if ok then .ok () else raise e

/-- An optional value, or `raise E` when there is none. -/
def orRaise {α : Type} (e : ErrorKind) : Option α → Except Exit α
  | some v => .ok v
  | none => raise e

/-! ### Register files -/

/-- The cell F[r] (R32). -/
def State.fCell (s : State) (r : FReg) : Cell Fp := s.fregs[r]

/-- The cell P[r] (R35). -/
def State.pCell (s : State) (r : PReg) : Cell Point := s.pregs[r]

/-- The value of a register cell; an Invalid one raises UninitRegister (R13, R34, R236). -/
def Cell.get {α : Type} : Cell α → Except Exit α
  | .valid v => .ok v
  | .invalid => raise .uninitRegister

/-- Read `F[r]` (R13). -/
def State.readF (s : State) (r : FReg) : Except Exit Fp := Cell.get (s.fCell r)

/-- Read `P[r]` (R13). -/
def State.readP (s : State) (r : PReg) : Except Exit Point := Cell.get (s.pCell r)

/-- `F[r] <- v` (R13). -/
def State.writeF (s : State) (r : FReg) (v : Fp) : State :=
  { s with fregs := s.fregs.set r (.valid v) }

/-- `P[r] <- v` (R13). -/
def State.writeP (s : State) (r : PReg) (v : Point) : State :=
  { s with pregs := s.pregs.set r (.valid v) }

/-! ### The command life cycle -/

/-- STATUS.BUSY: a completion is owed (R39, R50). -/
def State.busy (s : State) : Bool := s.inflight.isSome

/-- Acceptance of a command word (R43). -/
def State.accept (s : State) (w : Word) : State :=
  { s with cmd := w, inflight := some w, done := false, code := .ok, ovr := false }

/-- A dropped host write (R45). -/
def State.overrun (s : State) : State := { s with ovr := true }

/-- The status update of the completion step (R44): CODE <- c, BUSY <- 0, DONE <- 1. -/
def State.complete (s : State) (c : StatusCode) : State :=
  { s with inflight := none, done := true, code := c }

/-- The one way a command reports an error (R231, R240): the completion step's status update and nothing else. -/
def State.raiseError (s : State) (e : ErrorKind) : State := s.complete (.error e)

/-- The completion step of a command whose rule gives `r` (R44): on success the writes it holds are applied, on an error
none is. -/
def State.finish (s : State) (r : Except Exit State) : StepResult :=
  match r with
  | .ok t => .next (t.complete .ok)
  | .error (.raised e) => .next (s.raiseError e)
  | .error (.halt f) => .fault f

/-- The reset event (R270, R271): every piece of the engine's state at its reset value, an in-flight command dropped. What
the agents do afterwards is theirs. -/
def State.resetEvent (s : State) : State := { State.reset with schedule := s.schedule }

end Sys2Proof.Machine
end

