-- ==== Sys2Proof/Machine/Curve.lean ====
section
/-! DEFINITION. The curve functions of the point unit and the point codec: OnCurve (spec/41_point.md R159), PointDecode
(R162), PointAdd (R164, R165), PointEncode (R168), DecodePoint and EncodePoint (spec/42_codec.md R191, R193). -/

namespace Sys2Proof.Machine

/-- OnCurve(x, y) of R159. -/
def onCurve (x y : Fp) : Bool :=
  (y.val * y.val) % Config.p == (x.val * x.val * x.val + Config.b) % Config.p

/-- PointDecode(x, y) of R162: the sentinel test comes before the curve test. -/
def pointDecode (x y : Fp) : Except Exit Point :=
  if x = fzero ∧ y = fzero then .ok .inf
  else if onCurve x y then .ok (.aff x y)
  else raise .pointNotOnCurve

/-- The last three lines of R164: the third point of the line of slope `lam` through (x1, y1), reflected. -/
def thirdPoint (lam x1 y1 x2 : Fp) : Point :=
  let x3 := reduce (toInt lam * toInt lam - toInt x1 - toInt x2)
  .aff x3 (reduce (toInt lam * (toInt x1 - toInt x3) - toInt y1))

/-- The slope of R164's doubling line, for a denominator d. -/
def tangentSlope (x1 d : Fp) : Fp := reduce (3 * toInt x1 * toInt x1 * toInt (finv d))

/-- The slope of R164's chord. -/
def chordSlope (x1 y1 x2 y2 : Fp) : Fp :=
  reduce ((toInt y2 - toInt y1) * toInt (finv (reduce (toInt x2 - toInt x1))))

/-- PointAdd of R164. Its DivisionByZero line is the guard of R165, which U3 makes a fault of the model, and equal x with
y2 not in {y1, -y1} has no step (U12). Neither is reached from points on the curve. -/
def pointAdd : Point → Point → Except Exit Point
  | .inf, p2 => .ok p2
  | .aff x1 y1, .inf => .ok (.aff x1 y1)
  | .aff x1 y1, .aff x2 y2 =>
    if x1 = x2 then
      if fadd y1 y2 = fzero then .ok .inf
      else
        let d := reduce (2 * toInt y1)
        if d = fzero then halt .divisionByZeroGuard
        else if y1 = y2 then .ok (thirdPoint (tangentSlope x1 d) x1 y1 x2)
        else halt .equalXOffCurve
    else .ok (thirdPoint (chordSlope x1 y1 x2 y2) x1 y1 x2)

/-- PointEncode of R168. -/
def pointEncode : Point → Fp × Fp
  | .inf => (fzero, fzero)
  | .aff x y => (x, y)

/-- fromBytes of a 32-byte chunk (R134, R191): OutOfRange when the value is not below p. -/
def decodeElem (bytes : List Byte) : Except Exit Fp := orRaise .outOfRange (canonical? (be bytes))

/-- DecodePoint of R191: x, then y, then PointDecode. -/
def decodePoint (bytes : List Byte) : Except Exit Point := do
  let x ← decodeElem (bytes.take Config.elemBytes)
  let y ← decodeElem (bytes.drop Config.elemBytes)
  pointDecode x y

/-- EncodePoint of R193. -/
def encodePoint (q : Point) : List Byte :=
  toBE32 (pointEncode q).1 ++ toBE32 (pointEncode q).2

end Sys2Proof.Machine
end

