-- ==== Sys2Proof/Machine/Operands.lean ====
section
/-! DEFINITION. The operand forms of the commands: element and point slots (spec/30_encoding.md R105) and the register
pair of PENC (R103). -/

namespace Sys2Proof.Machine

/-- Byte offset of an element slot of FLD and FST: 32 * slot (R105). -/
def elemOffset (slot : Nat) : Nat := Config.elemBytes * slot

/-- Byte offset of a point slot of PLD: 64 * slot (R105). -/
def pointOffset (slot : Nat) : Nat := Config.pointBytes * slot

/-- The second register of the pair that `rd` heads: F[rd + 1] (R103). -/
def pairSecond (rd : FReg) : FReg := Fin.ofNat 16 (rd.val + 1)

/-- Two F sources, read in the order of the pseudocode. -/
def State.readPairF (s : State) (r1 r2 : FReg) : Except Exit (Fp × Fp) := do
  let a ← s.readF r1
  let c ← s.readF r2
  return (a, c)

/-- A three-operand field command: both sources are read, then `F[rd]` is written (R137). -/
def State.binaryF (s : State) (op : Fp → Fp → Fp) (rd rs1 rs2 : FReg) : StepResult :=
  s.finish do
    let (a, c) ← s.readPairF rs1 rs2
    return s.writeF rd (op a c)

end Sys2Proof.Machine
end

