-- ==== Sys2Proof/Machine/AddOperation.lean ====
section
/-! DEFINITION. ADD, the whole add operation (spec/43_add.md R210 to R214). Its points are local values: no register is read
or written (R212). -/

namespace Sys2Proof.Machine

/-- ADD (R210), its steps in the source's order (R213). -/
def execAdd (s : State) : StepResult :=
  s.finish do
    require (s.inlen == BitVec.ofNat 32 Config.inBytes) .invalidInputLength
    let a ← decodePoint (s.memRead (pointOffset 0) Config.pointBytes)
    let b ← decodePoint (s.memRead (pointOffset 1) Config.pointBytes)
    let c ← pointAdd a b
    return s.memWrite 0 (encodePoint c)

end Sys2Proof.Machine
end

