-- ==== Sys2Proof/Machine/FieldUnit.lean ====
section
/-! DEFINITION. The field arithmetic unit: FADD, FSUB, FMUL, FINV, FLD, FST (spec/40_field.md R130 to R137). Each meaning
is the whole completion step of its command (spec/10_state.md R44). -/

namespace Sys2Proof.Machine

/-- FADD (R130). -/
def execFadd (rd rs1 rs2 : FReg) (s : State) : StepResult := s.binaryF fadd rd rs1 rs2

/-- FSUB (R131). -/
def execFsub (rd rs1 rs2 : FReg) (s : State) : StepResult := s.binaryF fsub rd rs1 rs2

/-- FMUL (R132). -/
def execFmul (rd rs1 rs2 : FReg) (s : State) : StepResult := s.binaryF fmul rd rs1 rs2

/-- FINV (R133): DivisionByZero on 0, an ordinary error (C4). -/
def execFinv (rd rs : FReg) (s : State) : StepResult :=
  s.finish do
    let a ← s.readF rs
    require (a != fzero) .divisionByZero
    return s.writeF rd (finv a)

/-- FLD (R134). -/
def execFld (rd : FReg) (slot : Fin 4) (s : State) : StepResult :=
  s.finish do
    let v ← decodeElem (s.memRead (elemOffset slot) Config.elemBytes)
    return s.writeF rd v

/-- FST (R135). -/
def execFst (rs : FReg) (slot : Fin 2) (s : State) : StepResult :=
  s.finish do
    let v ← s.readF rs
    return s.memWrite (elemOffset slot) (toBE32 v)

end Sys2Proof.Machine
end

