-- ==== Sys2Proof/Machine/PointCodec.lean ====
section
/-! DEFINITION. The point codec: PLD and PST (spec/42_codec.md R190, R192). -/

namespace Sys2Proof.Machine

/-- PLD (R190). INLEN is not read (R195). -/
def execPld (pd : PReg) (slot : Fin 2) (s : State) : StepResult :=
  s.finish do
    let q ← decodePoint (s.memRead (pointOffset slot) Config.pointBytes)
    return s.writeP pd q

/-- PST (R192): all 64 bytes of OUT. -/
def execPst (ps : PReg) (s : State) : StepResult :=
  s.finish do
    let q ← s.readP ps
    return s.memWrite 0 (encodePoint q)

end Sys2Proof.Machine
end

