-- ==== Sys2Proof/Machine/Flags.lean ====
section
/-! DEFINITION. FLAG and the two computed control registers: STATUS (spec/10_state.md R39) and REGVALID (R41). -/

namespace Sys2Proof.Machine

/-- `FLAG <- v` (R13, R37). -/
def State.writeFlag (s : State) (v : Bool) : State := { s with flag := v }

/-- STATUS as the host reads it (R39): CODE in 15:8, FLAG, OVR, DONE, BUSY in 3:0, every other bit 0. -/
def State.status (s : State) : Word :=
  (0 : BitVec 16) ++ s.code.toByte ++ (0 : BitVec 4) ++ BitVec.ofBool s.flag ++ BitVec.ofBool s.ovr
    ++ BitVec.ofBool s.done ++ BitVec.ofBool s.busy

/-- The valid bits, F0 first, then P0 to P3 (R41). -/
def State.validBits (s : State) : List Bool :=
  s.fregs.toList.map Cell.isValid ++ s.pregs.toList.map Cell.isValid

/-- REGVALID as the host reads it (R41): bit i for F[i], bit 16 + j for P[j], the rest 0. -/
def State.regValid (s : State) : Word := BitVec.ofNat 32 (bitsToNat s.validBits)

end Sys2Proof.Machine
end

