-- ==== Sys2Proof/Machine/PointUnit.lean ====
section
/-! DEFINITION. The point unit: PCHK, PDEC, PADD, PENC (spec/41_point.md R160, R163, R166, R167). -/

namespace Sys2Proof.Machine

/-- PCHK (R160): the test result goes to FLAG and is no error. -/
def execPchk (rs1 rs2 : FReg) (s : State) : StepResult :=
  s.finish do
    let (x, y) ← s.readPairF rs1 rs2
    return s.writeFlag (onCurve x y)

/-- PDEC (R163). -/
def execPdec (pd : PReg) (rs1 rs2 : FReg) (s : State) : StepResult :=
  s.finish do
    let (x, y) ← s.readPairF rs1 rs2
    let q ← pointDecode x y
    return s.writeP pd q

/-- PADD (R166). -/
def execPadd (pd ps1 ps2 : PReg) (s : State) : StepResult :=
  s.finish do
    let p1 ← s.readP ps1
    let p2 ← s.readP ps2
    let q ← pointAdd p1 p2
    return s.writeP pd q

/-- PENC (R167): an odd destination is an illegal command (R103), checked before any register is read (R237, R238). -/
def execPenc (rd : FReg) (ps : PReg) (s : State) : StepResult :=
  s.finish do
    require (FReg.even rd) .illegalCommand
    let q ← s.readP ps
    return (s.writeF rd (pointEncode q).1).writeF (pairSecond rd) (pointEncode q).2

end Sys2Proof.Machine
end

