-- ==== Sys2Proof/Machine/Dispatch.lean ====
section
/-! DEFINITION. The completion step of each command: one arm per constructor of Instr, one call per arm. -/

namespace Sys2Proof.Machine

def exec (i : Instr) (s : State) : Host.Outcome State Fault Refusal :=
  match i with
  -- the field unit, spec/40_field.md
  | .fadd rd rs1 rs2 => Sys2Proof.Machine.execFadd rd rs1 rs2 s
  | .fsub rd rs1 rs2 => Sys2Proof.Machine.execFsub rd rs1 rs2 s
  | .fmul rd rs1 rs2 => Sys2Proof.Machine.execFmul rd rs1 rs2 s
  | .finv rd rs => Sys2Proof.Machine.execFinv rd rs s
  | .fld rd slot => Sys2Proof.Machine.execFld rd slot s
  | .fst rs slot => Sys2Proof.Machine.execFst rs slot s
  -- the point unit, spec/41_point.md
  | .pchk rs1 rs2 => Sys2Proof.Machine.execPchk rs1 rs2 s
  | .pdec pd rs1 rs2 => Sys2Proof.Machine.execPdec pd rs1 rs2 s
  | .padd pd ps1 ps2 => Sys2Proof.Machine.execPadd pd ps1 ps2 s
  | .penc rd ps => Sys2Proof.Machine.execPenc rd ps s
  -- the point codec, spec/42_codec.md
  | .pld pd slot => Sys2Proof.Machine.execPld pd slot s
  | .pst ps => Sys2Proof.Machine.execPst ps s
  -- the add operation, spec/43_add.md
  | .add => Sys2Proof.Machine.execAdd s

end Sys2Proof.Machine
end

