-- ==== Sys2Proof/Machine/Port.lean ====
section
/-! DEFINITION. The host's port: the window of 256 bytes at BASE, its regions, widths, lanes and refusals
(spec/20_memory.md R70 to R74), and what a host access does (spec/10_state.md R38 to R45). -/

namespace Sys2Proof.Machine

/-- The regions of the window (R70). -/
inductive Region where
  | inBuf | outBuf | cmd | status | inlen | regValid | reserved
  deriving DecidableEq, Repr

/-- The region of a window offset (R70). -/
def regionOf (off : Nat) : Region :=
  if off < 0x80 then .inBuf
  else if off < 0xC0 then .outBuf
  else if off < 0xC4 then .cmd
  else if off < 0xC8 then .status
  else if off < 0xCC then .inlen
  else if off < 0xD0 then .regValid
  else .reserved

/-- The window offset of a host byte address, for an address inside the window (R70). -/
def offsetOf (addr : Nat) : Option Nat :=
  if Config.base ≤ addr ∧ addr < Config.base + 256 then some (addr - Config.base) else none

/-- The accesses the port takes (R72, R74). -/
def portTakes (off width : Nat) : Bool :=
  if width = 32 then decide (off % 4 = 0 ∧ off + 4 ≤ 256)
  else if width = 8 then decide (off < 0xC0 ∨ (0xD0 ≤ off ∧ off < 256))
  else false

/-- A byte of IN, OUT or the reserved range as the host reads it (R70, R71). -/
def State.windowByte (s : State) (off : Nat) : Byte :=
  if off < 0xC0 then Memory.read s.mem off else 0

/-- The four bytes o to o+3 in little-endian lanes (R73). -/
def State.lanes (s : State) (off : Nat) : Word :=
  s.windowByte (off + 3) ++ s.windowByte (off + 2) ++ s.windowByte (off + 1) ++ s.windowByte off

/-- What a 32-bit read returns (R38, R39, R40, R41, R71, R73). -/
def State.read32 (s : State) (off : Nat) : Word :=
  match regionOf off with
  | .inBuf => s.lanes off
  | .outBuf => s.lanes off
  | .cmd => s.cmd
  | .status => s.status
  | .inlen => s.inlen
  | .regValid => s.regValid
  | .reserved => s.lanes off

/-- What a read that the port takes returns; a byte comes in bits 7:0 (log entry 17). -/
def State.portRead (s : State) (off width : Nat) : Word :=
  if width = 8 then (s.windowByte off).setWidth 32 else s.read32 off

/-- The lane bytes of a bus word, lowest offset first (R73). -/
def laneBytes (data : Word) : List Byte :=
  [data.extractLsb' 0 8, data.extractLsb' 8 8, data.extractLsb' 16 8, data.extractLsb' 24 8]

/-- The bytes a write of the given width carries (R73). -/
def writtenBytes (width : Nat) (data : Word) : List Byte :=
  if width = 8 then [data.extractLsb' 0 8] else laneBytes data

/-- A host write to IN: dropped whole while BUSY (R45, R70, R73). -/
def State.writeIn (s : State) (off : Nat) (bytes : List Byte) : State :=
  if s.busy then s.overrun else { s with mem := Memory.writeBytes s.mem off bytes }

/-- A host write to CMD: accepted while BUSY = 0, whatever the word (R38, R43), and dropped while BUSY = 1 (R45). -/
def State.writeCmd (s : State) (w : Word) : State :=
  if s.busy then s.overrun else s.accept w

/-- A host write to INLEN (R40, R45). -/
def State.writeInlen (s : State) (w : Word) : State :=
  if s.busy then s.overrun else { s with inlen := w }

/-- What a write that the port takes does (R70, R71). -/
def State.portWrite (s : State) (off width : Nat) (data : Word) : State :=
  match regionOf off with
  | .inBuf => s.writeIn off (writtenBytes width data)
  | .outBuf => s
  | .cmd => s.writeCmd data
  | .status => s
  | .inlen => s.writeInlen data
  | .regValid => s
  | .reserved => s

/-- An access at a window offset: refused with a bus error (R74, U8), or performed. -/
def State.readAt (s : State) (off width : Nat) : StepResult :=
  if portTakes off width then .next { s with lastRead := some (s.portRead off width) } else .fault .busError

/-- As `State.readAt`, for a write. -/
def State.writeAt (s : State) (off width : Nat) (data : Word) : StepResult :=
  if portTakes off width then .next (s.portWrite off width data) else .fault .busError

/-- One host access (R76). An address outside the window does not reach this engine (log entry 4). -/
def State.hostAccess (s : State) (a : Access) : StepResult :=
  match a with
  | .read addr width =>
    match offsetOf addr with
    | some off => s.readAt off width
    | none => .next s
  | .write addr width data =>
    match offsetOf addr with
    | some off => s.writeAt off width data
    | none => .next s

end Sys2Proof.Machine
end

