-- ==== Sys2Proof/Machine/Agents.lean ====
section
/-! DEFINITION. What one agent does in one step: the engine's completion step (spec/10_state.md R44, spec/30_encoding.md R107),
a host access (spec/20_memory.md R76), reset (spec/70_reset_and_hazards.md R270, R271). -/

namespace Sys2Proof.Machine

/-- The engine's turn: the in-flight word is decoded and its command carried out; an illegal word ends with code 5 (R110,
R237). With none in flight the engine is idle and keeps its state (R249). -/
def State.engineTurn (s : State) : StepResult :=
  match s.inflight with
  | none => .next s
  | some w =>
    match decode w with
    | .ok i => exec i s
    | .error _ => .next (s.raiseError .illegalCommand)

/-- One event of the schedule. -/
def State.takeEvent (s : State) (e : Event) : StepResult :=
  match e with
  | .access a => s.hostAccess a
  | .engine => s.engineTurn
  | .reset => .next s.resetEvent
  | .accessDuringReset _ => .refused .hostAccessDuringReset

/-- One step of the machine: the next event of the schedule; when the schedule is empty, the engine's turn (R281: the
completion step is always enabled while BUSY = 1, and owed). -/
def State.oneStep (s : State) : StepResult :=
  match s.schedule with
  | [] => s.engineTurn
  | e :: rest => { s with schedule := rest }.takeEvent e

end Sys2Proof.Machine
end

