-- ==== Sys2Proof/Machine/Step.lean ====
section
/-! DEFINITION. The step function, and how the host of this pipeline puts an instruction where the next step runs it. -/

namespace Sys2Proof.Machine

/-- One step of the machine. -/
def step (s : State) : Host.Outcome State Fault Refusal := s.oneStep

/-- The engine fetches nothing (spec/10_state.md R36): a command comes by an accepted write to CMD. So the word is accepted
as R43 says, and the engine moves next (log entry 16). -/
def State.withFetchWord (s : State) (_nbits w : Nat) : State :=
  { s.accept (BitVec.ofNat 32 w) with schedule := .engine :: s.schedule }

end Sys2Proof.Machine
end

