-- ==== Sys2Proof/Machine/Asm.lean ====
section
/-! DEFINITION. The assembly of a command (spec/30_encoding.md R111, R112): a mnemonic and its operands in order, the four
pseudo-commands among them, and the reading of a line of text into them. An operand outside its field's range is refused,
never wrapped. Where blanks may stand in a line is log entry 13. -/

namespace Sys2Proof.Machine

/-- An operand as written: f<n>, p<n> or a decimal slot (R111). -/
inductive AsmOperand where
  | f (n : Nat)
  | p (n : Nat)
  | slot (n : Nat)
  deriving DecidableEq, Repr

/-- The mnemonics of R111 and the pseudo-mnemonics of R112. -/
inductive AsmMnemonic where
  | fadd | fsub | fmul | finv | fld | fst | pchk | pdec | padd | penc | pld | pst | add
  | fsqr | fdbl | fclr | pdbl
  deriving DecidableEq, Repr

/-- An F register f0 to f15. -/
def asmF : AsmOperand → Option FReg
  | .f n => if h : n < 16 then some ⟨n, h⟩ else none
  | .p _ => none
  | .slot _ => none

/-- A P register p0 to p3. -/
def asmP : AsmOperand → Option PReg
  | .f _ => none
  | .p n => if h : n < 4 then some ⟨n, h⟩ else none
  | .slot _ => none

/-- A slot below the bound k (R105). -/
def asmSlot (k : Nat) : AsmOperand → Option (Fin k)
  | .f _ => none
  | .p _ => none
  | .slot n => if h : n < k then some ⟨n, h⟩ else none

/-- The command an assembly line stands for; `none` is the assembler's refusal (R111). -/
def assemble (m : AsmMnemonic) (ops : List AsmOperand) : Option Instr :=
  match m, ops with
  | .fadd, [d, a, c] => do return .fadd (← asmF d) (← asmF a) (← asmF c)
  | .fsub, [d, a, c] => do return .fsub (← asmF d) (← asmF a) (← asmF c)
  | .fmul, [d, a, c] => do return .fmul (← asmF d) (← asmF a) (← asmF c)
  | .finv, [d, a] => do return .finv (← asmF d) (← asmF a)
  | .fld, [d, k] => do return .fld (← asmF d) (← asmSlot 4 k)
  | .fst, [a, k] => do return .fst (← asmF a) (← asmSlot 2 k)
  | .pchk, [a, c] => do return .pchk (← asmF a) (← asmF c)
  | .pdec, [d, a, c] => do return .pdec (← asmP d) (← asmF a) (← asmF c)
  | .padd, [d, a, c] => do return .padd (← asmP d) (← asmP a) (← asmP c)
  | .penc, [d, a] => do
    let rd ← asmF d
    if FReg.even rd then return .penc rd (← asmP a) else none
  | .pld, [d, k] => do return .pld (← asmP d) (← asmSlot 2 k)
  | .pst, [a] => do return .pst (← asmP a)
  | .add, [] => some .add
  | .fsqr, [d, a] => do return .fsqr (← asmF d) (← asmF a)
  | .fdbl, [d, a] => do return .fdbl (← asmF d) (← asmF a)
  | .fclr, [d, a] => do return .fclr (← asmF d) (← asmF a)
  | .pdbl, [d, a] => do return .pdbl (← asmP d) (← asmP a)
  | _, _ => none

/-! ### Lines of text -/

/-- A blank between the parts of a line (log entry 13). -/
def isBlank (c : Char) : Bool := c == ' ' || c == '\t'

/-- A line without the blanks before and after it. -/
def trimBlanks (t : List Char) : List Char := (((t.dropWhile isBlank).reverse).dropWhile isBlank).reverse

/-- The parts of a text between commas, at least one. -/
def splitCommas : List Char → List (List Char)
  | [] => [[]]
  | c :: rest =>
    if c == ',' then [] :: splitCommas rest
    else
      match splitCommas rest with
      | [] => [[c]]
      | part :: parts => (c :: part) :: parts

/-- The capital of a letter a to z; any other character stands for itself. -/
def capital (c : Char) : Char := if 97 ≤ c.toNat ∧ c.toNat ≤ 122 then Char.ofNat (c.toNat - 32) else c

/-- The mnemonics' spelling in capitals (R106, R112). -/
def mnemonicNames : List (List Char × AsmMnemonic) :=
  [(['F', 'A', 'D', 'D'], .fadd), (['F', 'S', 'U', 'B'], .fsub), (['F', 'M', 'U', 'L'], .fmul), (['F', 'I', 'N', 'V'], .finv),
   (['F', 'L', 'D'], .fld), (['F', 'S', 'T'], .fst), (['P', 'C', 'H', 'K'], .pchk), (['P', 'D', 'E', 'C'], .pdec),
   (['P', 'A', 'D', 'D'], .padd)]
  ++
  [(['P', 'E', 'N', 'C'], .penc), (['P', 'L', 'D'], .pld), (['P', 'S', 'T'], .pst), (['A', 'D', 'D'], .add),
   (['F', 'S', 'Q', 'R'], .fsqr), (['F', 'D', 'B', 'L'], .fdbl), (['F', 'C', 'L', 'R'], .fclr), (['P', 'D', 'B', 'L'], .pdbl)]

/-- A mnemonic, in letters of either case (R111). -/
def readMnemonic (name : List Char) : Option AsmMnemonic :=
  (mnemonicNames.find? fun e => e.1 == name.map capital).map Prod.snd

/-- A decimal digit. -/
def digitOf (c : Char) : Option Nat := if 48 ≤ c.toNat ∧ c.toNat ≤ 57 then some (c.toNat - 48) else none

/-- The digits of a decimal number read on from the value `acc`. -/
def readDigits (acc : Nat) : List Char → Option Nat
  | [] => some acc
  | c :: rest =>
    match digitOf c with
    | some d => readDigits (acc * 10 + d) rest
    | none => none

/-- A decimal number of at least one digit. -/
def readNumber : List Char → Option Nat
  | [] => none
  | c :: rest => readDigits 0 (c :: rest)

/-- An operand: f and a number, p and a number, or a number (R111). -/
def readOperand : List Char → Option AsmOperand
  | [] => none
  | c :: rest =>
    if c == 'f' then (readNumber rest).map .f
    else if c == 'p' then (readNumber rest).map .p
    else (readNumber (c :: rest)).map .slot

/-- The operands of a line, separated by commas; no text is no operand. -/
def readOperands (t : List Char) : Option (List AsmOperand) :=
  if (trimBlanks t).isEmpty then some [] else (splitCommas t).mapM fun part => readOperand (trimBlanks part)

/-- The mnemonic and the operands of a line: the mnemonic up to the first blank, then the operands (R111). -/
def readLine (line : List Char) : Option (AsmMnemonic × List AsmOperand) := do
  let t := trimBlanks line
  let m ← readMnemonic (t.takeWhile fun c => !isBlank c)
  let ops ← readOperands (t.dropWhile fun c => !isBlank c)
  return (m, ops)

/-- The command a line of assembly stands for (R111, R112). -/
def assembleLine (line : List Char) : Option Instr := (readLine line).bind fun (m, ops) => assemble m ops

end Sys2Proof.Machine
end

