-- ==== Sys2Proof/Safety.lean ====
section
/-! DEFINITION. What a claim may call a good state and a good run: the invariant of the rules (spec/10_state.md R35, R39, R43,
R44), and the events the spec gives an effect (spec/20_memory.md R74, spec/70_reset_and_hazards.md R271). -/

namespace Sys2Proof.Machine

/-- Point of R12 and R35: INF, or a pair that satisfies the curve equation. -/
def Point.wf : Point → Bool
  | .inf => true
  | .aff x y => onCurve x y

/-- The source's CurvePoint invariant (R35): every P register that holds a point holds a valid one. -/
def State.pointsValid (s : State) : Prop := ∀ (r : PReg) (q : Point), s.pCell r = .valid q → q.wf = true

/-- While a command is in flight, CMD holds its word, DONE is 0 and CODE reads 0 (R38, R39, R43). -/
def State.lifeCycle (s : State) : Prop := ∀ w, s.inflight = some w → s.cmd = w ∧ s.done = false ∧ s.code = .ok

/-- The invariant of the engine. That F registers are canonical (R32) and that a status code is one of 0 to 6 (R230) are in
the types. -/
structure State.Inv (s : State) : Prop where
  memWf : Memory.wf s.mem = true
  pointsValid : s.pointsValid
  lifeCycle : s.lifeCycle

/-- An access the port takes, or one that does not reach this engine (R72, R74). -/
def Access.taken : Access → Bool
  | .read addr width =>
    match offsetOf addr with
    | some off => portTakes off width
    | none => true
  | .write addr width _ =>
    match offsetOf addr with
    | some off => portTakes off width
    | none => true

/-- An event the spec gives an effect: no access the port refuses (R74), no access during reset (R271). -/
def Event.served : Event → Bool
  | .access a => a.taken
  | .engine => true
  | .reset => true
  | .accessDuringReset _ => false

/-- A state whose agents do only what the spec gives an effect. -/
def State.scheduleServed (s : State) : Bool := s.schedule.all Event.served

/-- The part of IN, INLEN and the registers a command can read (R31): two states that agree on it are the same to every
command. -/
def State.sameInputs (s t : State) : Prop :=
  (∀ i, i < Config.inBytes → s.inByte i = t.inByte i) ∧ s.inlen = t.inlen ∧ s.fregs = t.fregs ∧ s.pregs = t.pregs

/-- What a command can write (R31, R78): OUT, the registers and FLAG. -/
def State.sameResults (s t : State) : Prop :=
  (∀ i, i < Config.outBytes → s.outByte i = t.outByte i) ∧ s.fregs = t.fregs ∧ s.pregs = t.pregs ∧ s.flag = t.flag

end Sys2Proof.Machine
end

