-- ==== Sys2Proof/Certificates/Slice0/Obligations.lean ====
section
/-! DEFINITION. The statements for the provers. What a rule says is written here a second time, from the rule's own words:
sums of weighted bytes, integers modulo p, whole records; the model's operations are named only where a statement is about
them. -/

namespace Sys2Proof.Slice0

open Sys2Proof Sys2Proof.Machine

/-- The status update of the completion step (R44) on a state that already holds the command's writes. -/
def ended (s : State) (c : StatusCode) : State := { s with inflight := none, done := true, code := c }

/-- Only F[r] changed. -/
def withF (s : State) (r : FReg) (v : Fp) : State := { s with fregs := s.fregs.set r (.valid v) }

/-- Only P[r] changed. -/
def withP (s : State) (r : PReg) (q : Point) : State := { s with pregs := s.pregs.set r (.valid q) }

/-- The command word with these field values is decoded as `i` (R100, R106). -/
def hasWord (i : Instr) (op a b c : Nat) : Prop :=
  decode (BitVec.ofNat 32 (op + 2 ^ 8 * a + 2 ^ 12 * b + 2 ^ 16 * c)) = .ok i

/-- The 32-byte big-endian number at IN[off : off+32] (R75): byte k has weight 256^(31-k). -/
def elemAt (s : State) (off : Nat) : Nat :=
  ∑ k ∈ Finset.range 32, (s.inByte (off + k)).toNat * 256 ^ (31 - k)

/-- OUT[off : off+32] holds toBE32(v) (R11, R75). -/
def outElem (t : State) (off v : Nat) : Prop :=
  ∀ k, k < 32 → (t.outByte (off + k)).toNat = v / 256 ^ (31 - k) % 256

/-- OUT[0:64] holds the encoding of a point, INF as zeros (R168, R193). -/
def outPoint (t : State) (q : Point) : Prop :=
  match q with
  | .inf => outElem t 0 0 ∧ outElem t 32 0
  | .aff x y => outElem t 0 x.val ∧ outElem t 32 y.val

/-- Every byte of the window's buffers outside `lo` to `hi - 1` reads as before. -/
def memoryKeptOutside (s t : State) (lo hi : Nat) : Prop :=
  ∀ a, (a < lo ∨ hi ≤ a) → Memory.read t.mem a = Memory.read s.mem a

/-- The curve equation on naturals (R159). -/
def curveEq (x y : Nat) : Prop := (y * y) % Config.p = (x * x * x + 3) % Config.p

/-- The 64 bytes of IN from `off` hold the encoding of the point q (R191, R162). -/
def holdsPoint (s : State) (off : Nat) (q : Point) : Prop :=
  (elemAt s off = 0 ∧ elemAt s (off + 32) = 0 ∧ q = .inf) ∨
    ∃ x y : Fp, x.val = elemAt s off ∧ y.val = elemAt s (off + 32) ∧ ¬(x.val = 0 ∧ y.val = 0) ∧
      curveEq x.val y.val ∧ q = .aff x y

/-- A coordinate chunk of the 64 bytes from `off` is not below p (R233). -/
def outOfRangeAt (s : State) (off : Nat) : Prop := Config.p ≤ elemAt s off ∨ Config.p ≤ elemAt s (off + 32)

/-- In-range coordinates other than (0, 0) that fail the curve equation (R234). -/
def offCurveAt (s : State) (off : Nat) : Prop :=
  elemAt s off < Config.p ∧ elemAt s (off + 32) < Config.p ∧ ¬(elemAt s off = 0 ∧ elemAt s (off + 32) = 0) ∧
    ¬curveEq (elemAt s off) (elemAt s (off + 32))

/-- x3 and y3 of R164 for the slope lam. -/
def thirdOnLine (lam x1 y1 x2 x3 y3 : Fp) : Prop :=
  (x3.val : Int) = ((lam.val : Int) * lam.val - x1.val - x2.val) % Config.p ∧
    (y3.val : Int) = ((lam.val : Int) * ((x1.val : Int) - x3.val) - y1.val) % Config.p

/-- q is the sum the group law of R164 gives for q1 and q2; the slope is given by its equation, not by an inverse. -/
def isSum (q1 q2 q : Point) : Prop :=
  match q1, q2 with
  | .inf, _ => q = q2
  | .aff _ _, .inf => q = q1
  | .aff x1 y1, .aff x2 y2 =>
    if x1.val = x2.val then
      if (y1.val + y2.val) % Config.p = 0 then q = .inf
      else ∃ lam x3 y3 : Fp, (2 * y1.val * lam.val) % Config.p = (3 * x1.val * x1.val) % Config.p ∧
        thirdOnLine lam x1 y1 x2 x3 y3 ∧ q = .aff x3 y3
    else ∃ lam x3 y3 : Fp,
      (((x2.val : Int) - x1.val) * lam.val) % Config.p = ((y2.val : Int) - y1.val) % Config.p ∧
        thirdOnLine lam x1 y1 x2 x3 y3 ∧ q = .aff x3 y3

/-- The F registers a command may write (R33). -/
def fDests : Instr → List FReg
  | .fadd rd _ _ => [rd]
  | .fsub rd _ _ => [rd]
  | .fmul rd _ _ => [rd]
  | .finv rd _ => [rd]
  | .fld rd _ => [rd]
  | .fst _ _ => []
  | .pchk _ _ => []
  | .pdec _ _ _ => []
  | .padd _ _ _ => []
  | .penc rd _ => [rd, rd + 1]
  | .pld _ _ => []
  | .pst _ => []
  | .add => []

/-- The P register a command may write (R35). -/
def pDests : Instr → List PReg
  | .fadd _ _ _ => []
  | .fsub _ _ _ => []
  | .fmul _ _ _ => []
  | .finv _ _ => []
  | .fld _ _ => []
  | .fst _ _ => []
  | .pchk _ _ => []
  | .pdec pd _ _ => [pd]
  | .padd pd _ _ => [pd]
  | .penc _ _ => []
  | .pld pd _ => [pd]
  | .pst _ => []
  | .add => []

/-- The F registers a command reads (R33, R236). -/
def fSources : Instr → List FReg
  | .fadd _ rs1 rs2 => [rs1, rs2]
  | .fsub _ rs1 rs2 => [rs1, rs2]
  | .fmul _ rs1 rs2 => [rs1, rs2]
  | .finv _ rs => [rs]
  | .fld _ _ => []
  | .fst rs _ => [rs]
  | .pchk rs1 rs2 => [rs1, rs2]
  | .pdec _ rs1 rs2 => [rs1, rs2]
  | .padd _ _ _ => []
  | .penc _ _ => []
  | .pld _ _ => []
  | .pst _ => []
  | .add => []

/-- The P registers a command reads (R35, R236). -/
def pSources : Instr → List PReg
  | .fadd _ _ _ => []
  | .fsub _ _ _ => []
  | .fmul _ _ _ => []
  | .finv _ _ => []
  | .fld _ _ => []
  | .fst _ _ => []
  | .pchk _ _ => []
  | .pdec _ _ _ => []
  | .padd _ ps1 ps2 => [ps1, ps2]
  | .penc _ ps => [ps]
  | .pld _ _ => []
  | .pst ps => [ps]
  | .add => []

/-- The window offsets a command may store to: from the first to before the second (R135, R192, R210). -/
def storeRange : Instr → Nat × Nat
  | .fadd _ _ _ => (0, 0)
  | .fsub _ _ _ => (0, 0)
  | .fmul _ _ _ => (0, 0)
  | .finv _ _ => (0, 0)
  | .fld _ _ => (0, 0)
  | .fst _ slot => (0x80 + 32 * slot.val, 0x80 + 32 * slot.val + 32)
  | .pchk _ _ => (0, 0)
  | .pdec _ _ _ => (0, 0)
  | .padd _ _ _ => (0, 0)
  | .penc _ _ => (0, 0)
  | .pld _ _ => (0, 0)
  | .pst _ => (0x80, 0xC0)
  | .add => (0x80, 0xC0)

/-- An operand of the kind of `bound` whose number is below the bound's. -/
def asmBelow : AsmOperand → AsmOperand → Prop
  | .f n, .f k => n < k
  | .p n, .p k => n < k
  | .slot n, .slot k => n < k
  | _, _ => False

/-- Kind and bound of each operand of a mnemonic, in the order of R111 and R112: 16 F registers (R102), 4 P registers (R104),
4 slots for FLD and 2 for FST and PLD (R105). -/
def asmBounds : AsmMnemonic → List AsmOperand
  | .fadd => [.f 16, .f 16, .f 16]
  | .fsub => [.f 16, .f 16, .f 16]
  | .fmul => [.f 16, .f 16, .f 16]
  | .finv => [.f 16, .f 16]
  | .fld => [.f 16, .slot 4]
  | .fst => [.f 16, .slot 2]
  | .pchk => [.f 16, .f 16]
  | .pdec => [.p 4, .f 16, .f 16]
  | .padd => [.p 4, .p 4, .p 4]
  | .penc => [.f 16, .p 4]
  | .pld => [.p 4, .slot 2]
  | .pst => [.p 4]
  | .add => []
  | .fsqr => [.f 16, .f 16]
  | .fdbl => [.f 16, .f 16]
  | .fclr => [.f 16, .f 16]
  | .pdbl => [.p 4, .p 4]

/-- The operands written are the mnemonic's, each in its own field's range, PENC's destination even (R103, R111). -/
def asmInRange (m : AsmMnemonic) (ops : List AsmOperand) : Prop :=
  List.Forall₂ asmBelow ops (asmBounds m) ∧ (m = .penc → ∃ n rest, ops = .f n :: rest ∧ n % 2 = 0)

/-- The expansions of R112; any other mnemonic stands for itself. -/
def asmExpand : AsmMnemonic → List AsmOperand → AsmMnemonic × List AsmOperand
  | .fsqr, [d, a] => (.fmul, [d, a, a])
  | .fdbl, [d, a] => (.fadd, [d, a, a])
  | .fclr, [d, a] => (.fsub, [d, a, a])
  | .pdbl, [d, a] => (.padd, [d, a, a])
  | m, ops => (m, ops)

/-- How R111 writes a command: its mnemonic and its operands, destination first. -/
def asmForm : Instr → AsmMnemonic × List AsmOperand
  | .fadd rd rs1 rs2 => (.fadd, [.f rd, .f rs1, .f rs2])
  | .fsub rd rs1 rs2 => (.fsub, [.f rd, .f rs1, .f rs2])
  | .fmul rd rs1 rs2 => (.fmul, [.f rd, .f rs1, .f rs2])
  | .finv rd rs => (.finv, [.f rd, .f rs])
  | .fld rd slot => (.fld, [.f rd, .slot slot])
  | .fst rs slot => (.fst, [.f rs, .slot slot])
  | .pchk rs1 rs2 => (.pchk, [.f rs1, .f rs2])
  | .pdec pd rs1 rs2 => (.pdec, [.p pd, .f rs1, .f rs2])
  | .padd pd ps1 ps2 => (.padd, [.p pd, .p ps1, .p ps2])
  | .penc rd ps => (.penc, [.f rd, .p ps])
  | .pld pd slot => (.pld, [.p pd, .slot slot])
  | .pst ps => (.pst, [.p ps])
  | .add => (.add, [])

/-- The mnemonics as R111 and R112 write them. -/
def asmName : AsmMnemonic → List Char
  | .fadd => "FADD".toList
  | .fsub => "FSUB".toList
  | .fmul => "FMUL".toList
  | .finv => "FINV".toList
  | .fld => "FLD".toList
  | .fst => "FST".toList
  | .pchk => "PCHK".toList
  | .pdec => "PDEC".toList
  | .padd => "PADD".toList
  | .penc => "PENC".toList
  | .pld => "PLD".toList
  | .pst => "PST".toList
  | .add => "ADD".toList
  | .fsqr => "FSQR".toList
  | .fdbl => "FDBL".toList
  | .fclr => "FCLR".toList
  | .pdbl => "PDBL".toList

/-- The decimal digits of a number below 100, with no zero before them. -/
def decimalText (n : Nat) : List Char :=
  if n < 10 then [Char.ofNat (48 + n)] else [Char.ofNat (48 + n / 10), Char.ofNat (48 + n % 10)]

/-- An operand as R111 writes it: f0 to f15, p0 to p3, a decimal slot. -/
def operandText : AsmOperand → List Char
  | .f n => 'f' :: decimalText n
  | .p n => 'p' :: decimalText n
  | .slot n => decimalText n

/-- Operands separated by a comma and one blank, as R111 writes them. -/
def operandsText : List AsmOperand → List Char
  | [] => []
  | [o] => operandText o
  | o :: rest => operandText o ++ [',', ' '] ++ operandsText rest

/-- A line as R111 writes it: the mnemonic's letters, and after a blank the operands, if there are any. -/
def lineText (name : List Char) (ops : List AsmOperand) : List Char :=
  match ops with
  | [] => name
  | o :: rest => name ++ [' '] ++ operandsText (o :: rest)

end Sys2Proof.Slice0

open Sys2Proof Sys2Proof.Machine Sys2Proof.Slice0

/-! ### Encoding (spec/30_encoding.md) -/

/-- Words written out from the field tables of R106 decode to the command they stand for, one or more per family. -/
def Obligations.SpecWordsDecode : Prop :=
  decode 0x00021001 = .ok (.fadd 0 1 2) ∧ decode 0x00021002 = .ok (.fsub 0 1 2) ∧
  decode 0x00010203 = .ok (.fmul 2 0 1) ∧ decode 0x00003304 = .ok (.finv 3 3) ∧
  decode 0x00030508 = .ok (.fld 5 3) ∧ decode 0x00014009 = .ok (.fst 4 1) ∧
  decode 0x00076010 = .ok (.pchk 6 7) ∧ decode 0x000B0311 = .ok (.pdec 3 0 11) ∧
  decode 0x00010212 = .ok (.padd 2 0 1) ∧ decode 0x00003C13 = .ok (.penc 12 3) ∧
  decode 0x00010118 = .ok (.pld 1 1) ∧ decode 0x00002019 = .ok (.pst 2) ∧ decode 0x00000020 = .ok .add

/-- R113, which the spec derives from R106: the encoding of a command is the sum of its fields in their places, unused fields 0,
with the rule's examples. The clause on PENC covers odd destinations too, which R111 does not assemble: that such a term has
this word is the model's reading (log entry 18). -/
def Obligations.EncodingIsFieldSum : Prop :=
  (∀ rd rs1 rs2 : FReg,
    (encode (.fadd rd rs1 rs2)).toNat = 0x01 + 2 ^ 8 * rd.val + 2 ^ 12 * rs1.val + 2 ^ 16 * rs2.val ∧
    (encode (.fsub rd rs1 rs2)).toNat = 0x02 + 2 ^ 8 * rd.val + 2 ^ 12 * rs1.val + 2 ^ 16 * rs2.val ∧
    (encode (.fmul rd rs1 rs2)).toNat = 0x03 + 2 ^ 8 * rd.val + 2 ^ 12 * rs1.val + 2 ^ 16 * rs2.val ∧
    (encode (.finv rd rs1)).toNat = 0x04 + 2 ^ 8 * rd.val + 2 ^ 12 * rs1.val ∧
    (encode (.pchk rs1 rs2)).toNat = 0x10 + 2 ^ 12 * rs1.val + 2 ^ 16 * rs2.val) ∧
  (∀ (r : FReg) (k4 : Fin 4) (k2 : Fin 2),
    (encode (.fld r k4)).toNat = 0x08 + 2 ^ 8 * r.val + 2 ^ 16 * k4.val ∧
    (encode (.fst r k2)).toNat = 0x09 + 2 ^ 12 * r.val + 2 ^ 16 * k2.val) ∧
  (∀ (pd ps1 ps2 : PReg) (r1 r2 : FReg) (k2 : Fin 2),
    (encode (.pdec pd r1 r2)).toNat = 0x11 + 2 ^ 8 * pd.val + 2 ^ 12 * r1.val + 2 ^ 16 * r2.val ∧
    (encode (.padd pd ps1 ps2)).toNat = 0x12 + 2 ^ 8 * pd.val + 2 ^ 12 * ps1.val + 2 ^ 16 * ps2.val ∧
    (encode (.penc r1 ps1)).toNat = 0x13 + 2 ^ 8 * r1.val + 2 ^ 12 * ps1.val ∧
    (encode (.pld pd k2)).toNat = 0x18 + 2 ^ 8 * pd.val + 2 ^ 16 * k2.val ∧
    (encode (.pst ps1)).toNat = 0x19 + 2 ^ 12 * ps1.val ∧
    (encode .add).toNat = 0x20) ∧
  encode (.fmul 2 0 1) = 0x00010203 ∧ encode (.padd 2 0 1) = 0x00010212 ∧ encode (.pld 1 1) = 0x00010118 ∧
  encode (.penc 4 3) = 0x00003413 ∧ encode .add = 0x00000020

/-- Decoding the encoding of every well-formed command gives it back, every operand at every value. -/
def Obligations.DecodeOfEncodeIsIdentity : Prop :=
  ∀ i : Instr, i.wf = true → decode (encode i) = .ok i

/-- Every word that decodes is the encoding of the well-formed command it decodes to: no legal word carries another bit. -/
def Obligations.EncodeOfDecodeIsIdentity : Prop :=
  ∀ (w : Word) (i : Instr), decode w = .ok i → i.wf = true ∧ encode i = w

/-- At most one row of the opcode map matches any word. -/
def Obligations.AtMostOneRowMatches : Prop :=
  ∀ (w : Word) (r1 r2 : OpcodeRow), r1 ∈ opcodeMap → r2 ∈ opcodeMap → w &&& r1.mask = r1.pattern →
    w &&& r2.mask = r2.pattern → r1 = r2

/-- Exactly 14,029 of the 2^32 words are legal commands. -/
def Obligations.LegalWordCount : Prop := Set.ncard { w : Word | ∃ i, decode w = .ok i } = 14029

/-- R108: every OP outside the 13 is illegal, so is the all-zero word, and so is a defined OP with a bit outside its row's
free fields. -/
def Obligations.ReservedEncodingsIllegal : Prop :=
  (∀ w : Word, w.toNat % 256 ∉ [0x01, 0x02, 0x03, 0x04, 0x08, 0x09, 0x10, 0x11, 0x12, 0x13, 0x18, 0x19, 0x20] →
    ∃ e, decode w = .error e) ∧
  (∃ e, decode 0 = .error e) ∧ (∃ e, decode State.reset.cmd = .error e) ∧
  ∀ (w : Word) (r : OpcodeRow), r ∈ opcodeMap → w.toNat % 256 = r.pattern.toNat % 256 → w &&& r.mask ≠ r.pattern →
    ∃ e, decode w = .error e

/-- The assembler takes exactly the operands that are in range, each by its own command's bound; the command it gives is
well-formed, has an encoding, and has the operands written, a pseudo-command's as its expansion; so for a line of text; the
case of a mnemonic's letters is not seen; the rule's examples are refused. -/
def Obligations.AssemblerNeverWraps : Prop :=
  (∀ (m : AsmMnemonic) (ops : List AsmOperand), (∃ i, assemble m ops = some i) ↔ asmInRange m ops) ∧
  (∀ (m : AsmMnemonic) (ops : List AsmOperand) (i : Instr), assemble m ops = some i →
    asmForm i = asmExpand m ops ∧ i.wf = true ∧ decode (encode i) = .ok i) ∧
  (∀ d a : AsmOperand,
    assemble .fsqr [d, a] = assemble .fmul [d, a, a] ∧ assemble .fdbl [d, a] = assemble .fadd [d, a, a] ∧
    assemble .fclr [d, a] = assemble .fsub [d, a, a] ∧ assemble .pdbl [d, a] = assemble .padd [d, a, a]) ∧
  (∀ (line : List Char) (i : Instr), assembleLine line = some i →
    ∃ m ops, readLine line = some (m, ops) ∧ asmInRange m ops ∧ asmForm i = asmExpand m ops ∧ i.wf = true ∧
      decode (encode i) = .ok i) ∧
  (∀ name : List Char, readMnemonic name = readMnemonic (name.map capital)) ∧
  assemble .penc [.f 3, .p 0] = none ∧ assemble .fld [.f 0, .slot 4] = none ∧
  assemble .padd [.p 4, .p 0, .p 1] = none

/-- Every line written as R111 writes it, its mnemonic in letters of either case, is read as its mnemonic and its operands
(R111 leaves the blanks open: log entry 13), and the line of a well-formed command assembles to the command. -/
def Obligations.AssemblyLineReadsBack : Prop :=
  (∀ (m : AsmMnemonic) (ops : List AsmOperand) (name : List Char), asmInRange m ops → name.map capital = asmName m →
    readLine (lineText name ops) = some (m, ops)) ∧
  ∀ i : Instr, i.wf = true → assembleLine (lineText (asmName (asmForm i).1) (asmForm i).2) = some i

/-! ### Steps, acceptance, completion (spec/10_state.md) -/

/-- When the in-flight word decodes to a command, the engine's turn is that command's completion step: as the next event of
the schedule (log entry 2), and when the schedule is empty (log entry 3). -/
def Obligations.StepRunsDecodedCommand : Prop :=
  ∀ (s : State) (w : Word) (i : Instr), s.inflight = some w → decode w = .ok i →
    (s.schedule = [] → step s = exec i s) ∧
    ∀ rest, s.schedule = .engine :: rest → step s = exec i { s with schedule := rest }

/-- A step that takes a host access performs it at its window offset; an access outside the window leaves the engine as it
is (log entry 4); a host access during reset is refused (log entry 8). -/
def Obligations.StepPerformsHostAccess : Prop :=
  ∀ (s : State) (rest : List Event),
    (∀ (off width : Nat), off < 256 → s.schedule = .access (.read (Config.base + off) width) :: rest →
      step s = { s with schedule := rest }.readAt off width) ∧
    (∀ (off width : Nat) (data : Word), off < 256 →
      s.schedule = .access (.write (Config.base + off) width data) :: rest →
      step s = { s with schedule := rest }.writeAt off width data) ∧
    (∀ (addr width : Nat) (data : Word), (addr < Config.base ∨ Config.base + 256 ≤ addr) →
      (s.schedule = .access (.read addr width) :: rest → step s = .next { s with schedule := rest }) ∧
      (s.schedule = .access (.write addr width data) :: rest → step s = .next { s with schedule := rest })) ∧
    ∀ a : Access, s.schedule = .accessDuringReset a :: rest → step s = .refused .hostAccessDuringReset

/-- With no command in flight the engine's turn changes nothing (R249): as an event of the schedule (log entries 2 and 22), and
when the schedule is empty (log entry 3). -/
def Obligations.IdleEngineKeepsState : Prop :=
  ∀ s : State, s.inflight = none →
    (s.schedule = [] → step s = .next s) ∧
    ∀ rest, s.schedule = .engine :: rest → step s = .next { s with schedule := rest }

/-- R43: what an accepted write of CMD does, and that it changes nothing else. -/
def Obligations.AcceptanceEffect : Prop :=
  ∀ (s : State) (w : Word), s.busy = false →
    s.writeAt 0xC0 32 w =
      .next { s with cmd := w, inflight := some w, done := false, code := .ok, ovr := false }

/-- R110: an illegal word is accepted like any other, and its completion writes only the status, with code 5; the completion is
the engine's turn as an event of the schedule (log entry 2) and when the schedule is empty (log entry 3). -/
def Obligations.IllegalCommandEndsWithCode5 : Prop :=
  ∀ (s : State) (w : Word) (e : Illegal), decode w = .error e →
    (s.busy = false → s.writeAt 0xC0 32 w =
      .next { s with cmd := w, inflight := some w, done := false, code := .ok, ovr := false }) ∧
    (s.inflight = some w → s.schedule = [] → step s = .next (ended s (.error .illegalCommand))) ∧
    ∀ rest, s.inflight = some w → s.schedule = .engine :: rest →
      step s = .next (ended { s with schedule := rest } (.error .illegalCommand))

/-- Every completed command ends with BUSY = 0 and DONE = 1 and leaves INLEN, CMD, OVR, all of IN, and the agents' future
alone. -/
def Obligations.CompletionFrame : Prop :=
  ∀ (i : Instr) (s t : State), exec i s = .next t →
    t.busy = false ∧ t.done = true ∧ t.inlen = s.inlen ∧ t.cmd = s.cmd ∧ t.ovr = s.ovr ∧ t.schedule = s.schedule ∧
      t.lastRead = s.lastRead ∧ ∀ k, k < 128 → t.inByte k = s.inByte k

/-- R45: the writes that are dropped while BUSY change OVR alone; only an acceptance clears it, a completion does not; writes
to read-only and reserved locations never set it. -/
def Obligations.OverrunDropsWrites : Prop :=
  (∀ (s : State) (off width : Nat) (data : Word), s.busy = true →
    ((width = 32 ∧ off % 4 = 0 ∧ off < 0x80) ∨ (width = 8 ∧ off < 0x80) ∨ (width = 32 ∧ off = 0xC0) ∨
      (width = 32 ∧ off = 0xC8)) →
    s.writeAt off width data = .next { s with ovr := true }) ∧
  (∀ s t : State, s.engineTurn = .next t → t.ovr = s.ovr) ∧
  (∀ (s t : State) (off width : Nat) (data : Word), s.ovr = true → s.writeAt off width data = .next t →
    t.ovr = true ∨ (s.busy = false ∧ off = 0xC0)) ∧
  (∀ (s t : State) (off width : Nat), s.readAt off width = .next t → t.ovr = s.ovr) ∧
  ∀ (s t : State) (off width : Nat) (data : Word),
    ((0x80 ≤ off ∧ off < 0xC0) ∨ off = 0xC4 ∨ off = 0xCC ∨ 0xD0 ≤ off) → s.writeAt off width data = .next t → t = s

/-- Nothing the host does while BUSY = 1 changes the command's result (R79): after any host access the port performs, the
in-flight command ends with the same code and writes the same OUT, registers and FLAG, or halts for the same reason. -/
def Obligations.BusyHostCannotChangeResult : Prop :=
  ∀ (s s' : State) (a : Access), s.busy = true → s.hostAccess a = .next s' →
    s'.busy = true ∧ s.sameInputs s' ∧ s.sameResults s' ∧
    (∀ t, s.engineTurn = .next t →
      ∃ t', s'.engineTurn = .next t' ∧ t'.code = t.code ∧ t.sameResults t' ∧ t'.busy = false) ∧
    ∀ f, s.engineTurn = .fault f → s'.engineTurn = .fault f

/-! ### The port and the control registers (spec/20_memory.md, spec/10_state.md) -/

/-- R72 and R74: the port performs 8-bit accesses to the buffers and the reserved range and aligned 32-bit accesses, and
refuses every other access to the window with a bus error, which gives no state and no data. -/
def Obligations.PortRefusals : Prop :=
  ∀ (s : State) (off width : Nat) (data : Word), off < 256 →
    (((width = 8 ∧ (off < 0xC0 ∨ 0xD0 ≤ off)) ∨ (width = 32 ∧ off % 4 = 0)) →
      (∃ v, s.readAt off width = .next { s with lastRead := some v }) ∧ ∃ t, s.writeAt off width data = .next t) ∧
    (((width = 32 ∧ off % 4 ≠ 0) ∨ (width = 8 ∧ 0xC0 ≤ off ∧ off < 0xD0) ∨ (width ≠ 8 ∧ width ≠ 32) ∨
        256 < off + width / 8) →
      s.readAt off width = .fault .busError ∧ s.writeAt off width data = .fault .busError)

/-- R71: writes to OUT, STATUS, REGVALID and reserved offsets change no state; reserved offsets read 0; a read changes
nothing but the word it returns. -/
def Obligations.ReadOnlyAndReservedAccess : Prop :=
  (∀ (s t : State) (off width : Nat) (data : Word),
    ((0x80 ≤ off ∧ off < 0xC0) ∨ (0xC4 ≤ off ∧ off < 0xC8) ∨ (0xCC ≤ off ∧ off < 0xD0) ∨ 0xD0 ≤ off) →
    s.writeAt off width data = .next t → t = s) ∧
  (∀ (s t : State) (off width : Nat), 0xD0 ≤ off → s.readAt off width = .next t → t.lastRead = some 0) ∧
  ∀ (s t : State) (off width : Nat), s.readAt off width = .next t → t = { s with lastRead := t.lastRead }

/-- R73: byte o + k of a 32-bit buffer access is in bits 8k+7:8k of the bus word, for reads of IN, OUT and reserved, and for
writes of IN; a write to IN while BUSY is dropped whole and sets OVR; a control register moves whole. -/
def Obligations.LittleEndianLanes : Prop :=
  (∀ (s : State) (off : Nat), off % 4 = 0 → (off < 0xC0 ∨ (0xD0 ≤ off ∧ off < 256)) →
    ∃ v : Word, s.readAt off 32 = .next { s with lastRead := some v } ∧
      ∀ k, k < 4 → v.extractLsb' (8 * k) 8 = if off < 0xC0 then Memory.read s.mem (off + k) else 0) ∧
  (∀ (s : State) (off : Nat) (data : Word), off % 4 = 0 → off < 0x80 → s.busy = false →
    ∃ t, s.writeAt off 32 data = .next t ∧ t = { s with mem := t.mem } ∧
      (∀ k, k < 4 → Memory.read t.mem (off + k) = data.extractLsb' (8 * k) 8) ∧ memoryKeptOutside s t off (off + 4)) ∧
  (∀ (s : State) (off : Nat) (data : Word), off % 4 = 0 → off < 0x80 → s.busy = true →
    s.writeAt off 32 data = .next { s with ovr := true }) ∧
  (∀ s : State,
    s.readAt 0xC0 32 = .next { s with lastRead := some s.cmd } ∧
    s.readAt 0xC4 32 = .next { s with lastRead := some s.status } ∧
    s.readAt 0xC8 32 = .next { s with lastRead := some s.inlen } ∧
    s.readAt 0xCC 32 = .next { s with lastRead := some s.regValid }) ∧
  ∀ (s : State) (w : Word), s.busy = false →
    (∃ t, s.writeAt 0xC0 32 w = .next t ∧ t.cmd = w) ∧ s.writeAt 0xC8 32 w = .next { s with inlen := w }

/-- 8-bit accesses to the buffers (R70): a read returns the byte of IN or OUT, a write stores the byte of IN unless BUSY. The
byte is in bits 7:0 of the bus word by log entry 17. -/
def Obligations.ByteAccesses : Prop :=
  (∀ (s : State) (off : Nat), off < 0xC0 →
    ∃ v : Word, s.readAt off 8 = .next { s with lastRead := some v } ∧ v.toNat = (Memory.read s.mem off).toNat) ∧
  ∀ (s : State) (off : Nat) (data : Word), off < 0x80 →
    ∃ t, s.writeAt off 8 data = .next t ∧
      (s.busy = true → t = { s with ovr := true }) ∧
      (s.busy = false → t = { s with mem := t.mem } ∧ (Memory.read t.mem off).toNat = data.toNat % 256 ∧
        memoryKeptOutside s t off (off + 1))

/-- R39: the fields of STATUS in their places and nothing else, read at 0xC4, writes ignored, the reset value, and, in a state that keeps
the life cycle of commands, the legal combinations and CODE while BUSY. -/
def Obligations.StatusLayout : Prop :=
  (∀ s : State, s.status.toNat =
    s.busy.toNat + 2 * s.done.toNat + 4 * s.ovr.toNat + 8 * s.flag.toNat + 2 ^ 8 * s.code.toByte.toNat) ∧
  (∀ s : State, s.readAt 0xC4 32 = .next { s with lastRead := some s.status }) ∧
  (∀ (s t : State) (data : Word), s.writeAt 0xC4 32 data = .next t → t = s) ∧
  State.reset.status = 0 ∧
  ∀ s : State, s.Inv → s.busy = true → s.done = false ∧ s.code.toByte = 0

/-- R41: bit i is the valid bit of F[i], bit 16 + j that of P[j], every other bit 0; it reads at 0xCC; writes are ignored; no
host access changes it, BUSY or not; 0 after reset. -/
def Obligations.RegValidLayout : Prop :=
  (∀ (s : State) (r : FReg), s.regValid.getLsbD r.val = true ↔ ∃ v, s.fCell r = .valid v) ∧
  (∀ (s : State) (r : PReg), s.regValid.getLsbD (16 + r.val) = true ↔ ∃ q, s.pCell r = .valid q) ∧
  (∀ (s : State) (k : Nat), 20 ≤ k → s.regValid.getLsbD k = false) ∧
  (∀ s : State, s.readAt 0xCC 32 = .next { s with lastRead := some s.regValid }) ∧
  (∀ (s t : State) (data : Word), s.writeAt 0xCC 32 data = .next t → t = s) ∧
  (∀ (s t : State) (a : Access), s.hostAccess a = .next t → t.regValid = s.regValid) ∧
  State.reset.regValid = 0

/-- R38: CMD reads as the word most recently accepted (a completion and any other access keep it), 0 after reset; every word is accepted while BUSY = 0; a write while
BUSY = 1 is dropped and sets OVR. -/
def Obligations.CmdRegister : Prop :=
  (∀ (s : State) (w : Word), s.busy = false →
    ∃ t, s.writeAt 0xC0 32 w = .next t ∧ t.busy = true ∧ t.inflight = some w ∧
      t.readAt 0xC0 32 = .next { t with lastRead := some w }) ∧
  (∀ s t : State, s.engineTurn = .next t → t.read32 0xC0 = s.read32 0xC0) ∧
  (∀ (s t : State) (a : Access), s.hostAccess a = .next t →
    t.read32 0xC0 = s.read32 0xC0 ∨ (s.busy = false ∧ t.inflight = some (t.read32 0xC0))) ∧
  State.reset.read32 0xC0 = 0 ∧
  ∀ (s : State) (w : Word), s.busy = true → s.writeAt 0xC0 32 w = .next { s with ovr := true }

/-- R40: INLEN takes and returns any 32-bit value; only ADD reads it, and ADD requires 128; it does not limit IN, whose 128
bytes read and write the same whatever INLEN is; a write while BUSY = 1 is dropped and sets OVR; 0 after reset. -/
def Obligations.InlenRegister : Prop :=
  (∀ (s : State) (v : Word), s.busy = false →
    ∃ t, s.writeAt 0xC8 32 v = .next t ∧ t = { s with inlen := v } ∧
      t.readAt 0xC8 32 = .next { t with lastRead := some v }) ∧
  (∀ (i : Instr) (s t : State) (v : Word), i ≠ .add → exec i s = .next t →
    exec i { s with inlen := v } = .next { t with inlen := v }) ∧
  (∀ s : State, s.inlen ≠ 128 → exec .add s = .next (ended s (.error .invalidInputLength))) ∧
  (∀ (s t : State) (v : Word) (off width : Nat), off < 0x80 → s.readAt off width = .next t →
    { s with inlen := v }.readAt off width = .next { t with inlen := v }) ∧
  (∀ (s t : State) (v data : Word) (off width : Nat), off < 0x80 → s.writeAt off width data = .next t →
    { s with inlen := v }.writeAt off width data = .next { t with inlen := v }) ∧
  (∀ (s : State) (v : Word), s.busy = true → s.writeAt 0xC8 32 v = .next { s with ovr := true }) ∧
  State.reset.inlen = 0

/-- From an accepted write of CMD to its completion. Right after the acceptance STATUS reads BUSY = 1 and every other bit but
FLAG 0. Every host access before the completion, taken by the port or as a step of the schedule (the model's own, log entry 2),
keeps BUSY = 1, DONE = 0 and CODE = 0, keeps FLAG, and can only set OVR (R45); so STATUS reads BUSY = 1, never a stale DONE
(R77 (b)). The completion then ends with BUSY = 0 and DONE = 1. -/
def Obligations.StatusAfterAcceptance : Prop :=
  (∀ (s t : State) (w : Word), s.busy = false → s.writeAt 0xC0 32 w = .next t →
    t.busy = true ∧ t.done = false ∧ t.code = .ok ∧ t.status.toNat = 1 + 8 * s.flag.toNat) ∧
  (∀ (s t : State) (a : Access), s.busy = true → s.done = false → s.code = .ok → s.hostAccess a = .next t →
    t.busy = true ∧ t.done = false ∧ t.code = .ok ∧ t.flag = s.flag ∧ t.inflight = s.inflight ∧ (s.ovr = true → t.ovr = true) ∧
      t.status.toNat = 1 + 4 * t.ovr.toNat + 8 * s.flag.toNat) ∧
  (∀ (s t : State) (a : Access) (rest : List Event), s.schedule = .access a :: rest → s.busy = true → s.done = false →
    s.code = .ok → step s = .next t →
    t.busy = true ∧ t.done = false ∧ t.code = .ok ∧ t.flag = s.flag ∧ t.inflight = s.inflight ∧ (s.ovr = true → t.ovr = true) ∧
      t.status.toNat = 1 + 4 * t.ovr.toNat + 8 * s.flag.toNat) ∧
  (∀ s : State, s.busy = true → s.done = false → s.code = .ok →
    ∃ v : Word, s.readAt 0xC4 32 = .next { s with lastRead := some v } ∧ v.toNat = 1 + 4 * s.ovr.toNat + 8 * s.flag.toNat) ∧
  ∀ s t : State, s.busy = true → s.engineTurn = .next t → t.busy = false ∧ t.done = true

/-! ### Reset (spec/10_state.md R55, spec/70_reset_and_hazards.md) -/

/-- R55: the value of every piece of state after reset. -/
def Obligations.ResetState : Prop :=
  (∀ k, k < 128 → State.reset.inByte k = 0) ∧ (∀ k, k < 64 → State.reset.outByte k = 0) ∧
  State.reset.inlen = 0 ∧ State.reset.cmd = 0 ∧ State.reset.busy = false ∧ State.reset.done = false ∧
  State.reset.ovr = false ∧ State.reset.flag = false ∧ State.reset.code.toByte = 0 ∧ State.reset.status = 0 ∧
  State.reset.regValid = 0 ∧ (∀ r, State.reset.fCell r = .invalid) ∧ (∀ r, State.reset.pCell r = .invalid) ∧
  State.reset.inflight = none

/-- R270: the reset event (an event of the schedule: log entries 2 and 20), in any state, zeroes IN, OUT, INLEN and CMD, clears
the status bits, FLAG and CODE, makes every register Invalid and drops an in-flight command; no other step makes a register
Invalid. -/
def Obligations.ResetEvent : Prop :=
  (∀ (s : State) (rest : List Event), s.schedule = .reset :: rest →
    ∃ t, step s = .next t ∧ (∀ k, k < 128 → t.inByte k = 0) ∧ (∀ k, k < 64 → t.outByte k = 0) ∧ t.inlen = 0 ∧
      t.cmd = 0 ∧ t.busy = false ∧ t.done = false ∧ t.ovr = false ∧ t.flag = false ∧ t.code = .ok ∧
      (∀ r, t.fCell r = .invalid) ∧ (∀ r, t.pCell r = .invalid) ∧ t.inflight = none ∧ t.schedule = rest) ∧
  ∀ s t : State, step s = .next t → (∀ rest, s.schedule ≠ .reset :: rest) →
    (∀ r v, s.fCell r = .valid v → ∃ v', t.fCell r = .valid v') ∧
    ∀ r q, s.pCell r = .valid q → ∃ q', t.pCell r = .valid q'

/-- Nothing computed before a reset can be observed after it: two states with the same future (log entries 2 and 20) reset to
the same state. -/
def Obligations.ResetForgetsEverything : Prop :=
  ∀ (s1 s2 : State) (rest : List Event), s1.schedule = .reset :: rest → s2.schedule = .reset :: rest →
    ∃ t, step s1 = .next t ∧ step s2 = .next t

/-! ### Rules about every command -/

/-- R236: a command with an Invalid source register ends with code 6 and writes nothing; FLD, PLD and ADD, which read no
register, never end so; a destination's validity is not checked. PENC with an odd destination is illegal first (R238). -/
def Obligations.UninitRegisterErrors : Prop :=
  (∀ (i : Instr) (s : State), i.wf = true →
    ((∃ r ∈ fSources i, s.fCell r = .invalid) ∨ ∃ r ∈ pSources i, s.pCell r = .invalid) →
    exec i s = .next (ended s (.error .uninitRegister))) ∧
  (∀ (i : Instr) (s t : State), (∀ r ∈ fSources i, s.fCell r ≠ .invalid) → (∀ r ∈ pSources i, s.pCell r ≠ .invalid) →
    exec i s = .next t → t.code ≠ .error .uninitRegister) ∧
  ∀ (i : Instr) (s t : State), exec i s = .next t → t.code = .ok →
    (∀ r ∈ fDests i, t.fCell r ≠ .invalid) ∧ ∀ r ∈ pDests i, t.pCell r ≠ .invalid

/-- R231: a command, legal or not, that ends with a code other than 0 changes nothing but the completion's status, and CMD
keeps its word. -/
def Obligations.ErrorsWriteNothing : Prop :=
  (∀ (i : Instr) (s t : State), exec i s = .next t → t.code ≠ .ok → t = ended s t.code ∧ t.read32 0xC0 = s.cmd) ∧
  ∀ (s t : State) (w : Word), s.inflight = some w → s.engineTurn = .next t → t.code ≠ .ok →
    t = ended s t.code ∧ t.read32 0xC0 = s.cmd

/-- Every F register a command does not name as its destination is unchanged, whatever the command and its code. -/
def Obligations.FieldRegisterFrame : Prop :=
  ∀ (i : Instr) (s t : State) (r : FReg), exec i s = .next t → r ∉ fDests i → t.fCell r = s.fCell r

/-- Every P register a command does not name as its destination is unchanged, whatever the command and its code. -/
def Obligations.PointRegisterFrame : Prop :=
  ∀ (i : Instr) (s t : State) (r : PReg), exec i s = .next t → r ∉ pDests i → t.pCell r = s.pCell r

/-- R37: PCHK alone writes FLAG; a PCHK that fails leaves it; no command's outcome depends on FLAG; no host access writes it;
the host reads it as STATUS bit 3; its reset value is 0. -/
def Obligations.OnlyPchkWritesFlag : Prop :=
  (∀ (i : Instr) (s t : State), exec i s = .next t → ((∀ r1 r2, i ≠ .pchk r1 r2) ∨ t.code ≠ .ok) → t.flag = s.flag) ∧
  (∀ (rs1 rs2 : FReg) (s : State) (x y : Fp), s.fCell rs1 = .valid x → s.fCell rs2 = .valid y →
    ∃ t, exec (.pchk rs1 rs2) s = .next t ∧ (t.flag = true ↔ curveEq x.val y.val)) ∧
  (∀ (i : Instr) (s t : State) (fl : Bool), (∀ r1 r2, i ≠ .pchk r1 r2) → exec i s = .next t →
    exec i { s with flag := fl } = .next { t with flag := fl }) ∧
  (∀ (s t : State) (a : Access), s.hostAccess a = .next t → t.flag = s.flag) ∧
  (∀ s : State, s.status.getLsbD 3 = s.flag) ∧ State.reset.flag = false

/-- Every byte outside the bytes a command stores to reads as before: all of memory for a command that stores nothing, and
all but FST's slot, or OUT, for the others. -/
def Obligations.MemoryFrame : Prop :=
  ∀ (i : Instr) (s t : State), exec i s = .next t →
    memoryKeptOutside s t (storeRange i).1 (storeRange i).2

/-! ### The field unit (spec/40_field.md) -/

/-- R130, FADD: its word, its result on valid sources with everything else unchanged, and code 6. -/
def Obligations.FaddResult : Prop :=
  ∀ (rd rs1 rs2 : FReg) (s : State),
    hasWord (.fadd rd rs1 rs2) 0x01 rd rs1 rs2 ∧
    (∀ a c : Fp, s.fCell rs1 = .valid a → s.fCell rs2 = .valid c →
      ∃ v : Fp, v.val = (a.val + c.val) % Config.p ∧
        exec (.fadd rd rs1 rs2) s = .next (ended (withF s rd v) .ok)) ∧
    ((s.fCell rs1 = .invalid ∨ s.fCell rs2 = .invalid) →
      exec (.fadd rd rs1 rs2) s = .next (ended s (.error .uninitRegister)))

/-- R131, FSUB. -/
def Obligations.FsubResult : Prop :=
  ∀ (rd rs1 rs2 : FReg) (s : State),
    hasWord (.fsub rd rs1 rs2) 0x02 rd rs1 rs2 ∧
    (∀ a c : Fp, s.fCell rs1 = .valid a → s.fCell rs2 = .valid c →
      ∃ v : Fp, (v.val : Int) = ((a.val : Int) - c.val) % Config.p ∧
        v.val = (if a.val < c.val then a.val + Config.p - c.val else a.val - c.val) ∧
        exec (.fsub rd rs1 rs2) s = .next (ended (withF s rd v) .ok)) ∧
    ((s.fCell rs1 = .invalid ∨ s.fCell rs2 = .invalid) →
      exec (.fsub rd rs1 rs2) s = .next (ended s (.error .uninitRegister)))

/-- R132, FMUL. -/
def Obligations.FmulResult : Prop :=
  ∀ (rd rs1 rs2 : FReg) (s : State),
    hasWord (.fmul rd rs1 rs2) 0x03 rd rs1 rs2 ∧
    (∀ a c : Fp, s.fCell rs1 = .valid a → s.fCell rs2 = .valid c →
      ∃ v : Fp, v.val = (a.val * c.val) % Config.p ∧
        exec (.fmul rd rs1 rs2) s = .next (ended (withF s rd v) .ok)) ∧
    ((s.fCell rs1 = .invalid ∨ s.fCell rs2 = .invalid) →
      exec (.fmul rd rs1 rs2) s = .next (ended s (.error .uninitRegister)))

/-- R133, FINV: the result is the one c in Fp with (a * c) mod p = 1; 0 ends with code 4, F[rd] unchanged. -/
def Obligations.FinvResult : Prop :=
  ∀ (rd rs : FReg) (s : State),
    hasWord (.finv rd rs) 0x04 rd rs 0 ∧
    (∀ a : Fp, s.fCell rs = .valid a → a.val ≠ 0 →
      ∃ v : Fp, (a.val * v.val) % Config.p = 1 ∧ (∀ u : Fp, (a.val * u.val) % Config.p = 1 → u = v) ∧
        exec (.finv rd rs) s = .next (ended (withF s rd v) .ok)) ∧
    (∀ a : Fp, s.fCell rs = .valid a → a.val = 0 →
      exec (.finv rd rs) s = .next (ended s (.error .divisionByZero))) ∧
    (s.fCell rs = .invalid → exec (.finv rd rs) s = .next (ended s (.error .uninitRegister)))

/-- R134, FLD: the 32 bytes at IN[32*slot] as a big-endian number, refused from p on. -/
def Obligations.FldResult : Prop :=
  ∀ (rd : FReg) (slot : Fin 4) (s : State),
    hasWord (.fld rd slot) 0x08 rd 0 slot ∧
    (elemAt s (32 * slot.val) < Config.p →
      ∃ v : Fp, v.val = elemAt s (32 * slot.val) ∧ exec (.fld rd slot) s = .next (ended (withF s rd v) .ok)) ∧
    (Config.p ≤ elemAt s (32 * slot.val) → exec (.fld rd slot) s = .next (ended s (.error .outOfRange)))

/-- R135, FST: toBE32 of the register at OUT[32*slot], every other byte and all other state unchanged. -/
def Obligations.FstResult : Prop :=
  ∀ (rs : FReg) (slot : Fin 2) (s : State),
    hasWord (.fst rs slot) 0x09 0 rs slot ∧
    (∀ v : Fp, s.fCell rs = .valid v →
      ∃ t, exec (.fst rs slot) s = .next t ∧ outElem t (32 * slot.val) v.val ∧
        memoryKeptOutside s t (0x80 + 32 * slot.val) (0x80 + 32 * slot.val + 32) ∧
        t = ended { s with mem := t.mem } .ok) ∧
    (s.fCell rs = .invalid → exec (.fst rs slot) s = .next (ended s (.error .uninitRegister)))

/-! ### The point unit (spec/41_point.md) -/

/-- R160, PCHK: FLAG is the curve equation's truth; nothing else changes; an off-curve pair is no error. -/
def Obligations.PchkResult : Prop :=
  ∀ (rs1 rs2 : FReg) (s : State),
    hasWord (.pchk rs1 rs2) 0x10 0 rs1 rs2 ∧
    (∀ x y : Fp, s.fCell rs1 = .valid x → s.fCell rs2 = .valid y →
      (curveEq x.val y.val → exec (.pchk rs1 rs2) s = .next (ended { s with flag := true } .ok)) ∧
      (¬curveEq x.val y.val → exec (.pchk rs1 rs2) s = .next (ended { s with flag := false } .ok))) ∧
    ((s.fCell rs1 = .invalid ∨ s.fCell rs2 = .invalid) →
      exec (.pchk rs1 rs2) s = .next (ended s (.error .uninitRegister)))

/-- R163, PDEC: (0, 0) is INF, a pair on the curve is that point, any other ends with code 3. -/
def Obligations.PdecResult : Prop :=
  ∀ (pd : PReg) (rs1 rs2 : FReg) (s : State),
    hasWord (.pdec pd rs1 rs2) 0x11 pd rs1 rs2 ∧
    (∀ x y : Fp, s.fCell rs1 = .valid x → s.fCell rs2 = .valid y →
      (x.val = 0 → y.val = 0 → exec (.pdec pd rs1 rs2) s = .next (ended (withP s pd .inf) .ok)) ∧
      (¬(x.val = 0 ∧ y.val = 0) → curveEq x.val y.val →
        exec (.pdec pd rs1 rs2) s = .next (ended (withP s pd (.aff x y)) .ok)) ∧
      (¬(x.val = 0 ∧ y.val = 0) → ¬curveEq x.val y.val →
        exec (.pdec pd rs1 rs2) s = .next (ended s (.error .pointNotOnCurve)))) ∧
    ((s.fCell rs1 = .invalid ∨ s.fCell rs2 = .invalid) →
      exec (.pdec pd rs1 rs2) s = .next (ended s (.error .uninitRegister)))

/-- R166, PADD on valid points: the sum of the group law of R164, again a valid point; never an error but code 6. -/
def Obligations.PaddResult : Prop :=
  ∀ (pd ps1 ps2 : PReg) (s : State),
    hasWord (.padd pd ps1 ps2) 0x12 pd ps1 ps2 ∧
    (∀ q1 q2 : Point, s.pCell ps1 = .valid q1 → s.pCell ps2 = .valid q2 → q1.wf = true → q2.wf = true →
      ∃ q, isSum q1 q2 q ∧ q.wf = true ∧ exec (.padd pd ps1 ps2) s = .next (ended (withP s pd q) .ok)) ∧
    ((s.pCell ps1 = .invalid ∨ s.pCell ps2 = .invalid) →
      exec (.padd pd ps1 ps2) s = .next (ended s (.error .uninitRegister)))

/-- R167, PENC: the coordinates go to F[rd] and F[rd + 1], zeros for INF; an odd rd has no legal word and ends with code 5. -/
def Obligations.PencResult : Prop :=
  ∀ (rd : FReg) (ps : PReg) (s : State),
    (rd.val % 2 = 0 → hasWord (.penc rd ps) 0x13 rd ps 0 ∧
      (∀ zero : Fp, zero.val = 0 → s.pCell ps = .valid .inf →
        exec (.penc rd ps) s = .next (ended (withF (withF s rd zero) (rd + 1) zero) .ok)) ∧
      (∀ x y : Fp, s.pCell ps = .valid (.aff x y) →
        exec (.penc rd ps) s = .next (ended (withF (withF s rd x) (rd + 1) y) .ok)) ∧
      (s.pCell ps = .invalid → exec (.penc rd ps) s = .next (ended s (.error .uninitRegister)))) ∧
    (rd.val % 2 = 1 → (∃ e, decode (BitVec.ofNat 32 (0x13 + 2 ^ 8 * rd.val + 2 ^ 12 * ps.val)) = .error e) ∧
      exec (.penc rd ps) s = .next (ended s (.error .illegalCommand)))

/-! ### The point codec (spec/42_codec.md) -/

/-- R190, PLD: the point of the 64 bytes at IN[64*slot], code 2 for a coordinate from p on, else code 3 off the curve. -/
def Obligations.PldResult : Prop :=
  ∀ (pd : PReg) (slot : Fin 2) (s : State),
    hasWord (.pld pd slot) 0x18 pd 0 slot ∧
    (∀ q, holdsPoint s (64 * slot.val) q → exec (.pld pd slot) s = .next (ended (withP s pd q) .ok)) ∧
    (outOfRangeAt s (64 * slot.val) → exec (.pld pd slot) s = .next (ended s (.error .outOfRange))) ∧
    (offCurveAt s (64 * slot.val) → exec (.pld pd slot) s = .next (ended s (.error .pointNotOnCurve)))

/-- R192, PST: OUT[0:64] is the encoding of the point, INF as 64 zero bytes; all else unchanged. -/
def Obligations.PstResult : Prop :=
  ∀ (ps : PReg) (s : State),
    hasWord (.pst ps) 0x19 0 ps 0 ∧
    (∀ q, s.pCell ps = .valid q →
      ∃ t, exec (.pst ps) s = .next t ∧ outPoint t q ∧ memoryKeptOutside s t 0x80 0xC0 ∧
        t = ended { s with mem := t.mem } .ok) ∧
    (s.pCell ps = .invalid → exec (.pst ps) s = .next (ended s (.error .uninitRegister)))

/-- R194, which the spec derives from R191, R193 and R161: decoding an encoded valid point gives it back, INF included, and
encoding what DecodePoint accepts gives the 64 bytes back. -/
def Obligations.CodecIsBijective : Prop :=
  (∀ q : Point, q.wf = true → decodePoint (encodePoint q) = .ok q) ∧
  ∀ (bytes : List Byte) (q : Point), bytes.length = 64 → decodePoint bytes = .ok q → encodePoint q = bytes

/-! ### The add operation (spec/43_add.md) -/

/-- ADD with INLEN = 128 and two encoded points: OUT becomes the encoding of their sum, code 0, all else unchanged. -/
def Obligations.AddResult : Prop :=
  hasWord .add 0x20 0 0 0 ∧
  ∀ (s : State) (a b : Point), s.inlen = 128 → holdsPoint s 0 a → holdsPoint s 64 b →
    ∃ c t, isSum a b c ∧ c.wf = true ∧ exec .add s = .next t ∧ outPoint t c ∧ memoryKeptOutside s t 0x80 0xC0 ∧
      t = ended { s with mem := t.mem } .ok

/-- R213: ADD reports the first error: the length, then A's range, A's curve test, B's range, B's curve test; nothing is
written. -/
def Obligations.AddErrorOrder : Prop :=
  ∀ s : State,
    (s.inlen ≠ 128 → exec .add s = .next (ended s (.error .invalidInputLength))) ∧
    (s.inlen = 128 → outOfRangeAt s 0 → exec .add s = .next (ended s (.error .outOfRange))) ∧
    (s.inlen = 128 → offCurveAt s 0 → exec .add s = .next (ended s (.error .pointNotOnCurve))) ∧
    (∀ a, s.inlen = 128 → holdsPoint s 0 a → outOfRangeAt s 64 → exec .add s = .next (ended s (.error .outOfRange))) ∧
    ∀ a, s.inlen = 128 → holdsPoint s 0 a → offCurveAt s 64 → exec .add s = .next (ended s (.error .pointNotOnCurve))

/-- R212: ADD completes in every state, reads and writes no register and not FLAG, cannot end with code 6, and its code and OUT
are the same whatever the registers hold. -/
def Obligations.AddUsesNoRegister : Prop :=
  (∀ s : State, ∃ t, exec .add s = .next t ∧
    t.fregs = s.fregs ∧ t.pregs = s.pregs ∧ t.flag = s.flag ∧ t.regValid = s.regValid ∧
      t.code ≠ .error .uninitRegister) ∧
  ∀ (s t : State) (f : Vector (Cell Fp) 16) (g : Vector (Cell Point) 4) (fl : Bool), exec .add s = .next t →
    exec .add { s with fregs := f, pregs := g, flag := fl } = .next { t with fregs := f, pregs := g, flag := fl }

/-! ### The curve and the group law -/

/-- R161, which the spec computes from p and b of R6 and R7: (0, 0) is not on the curve; no point has x = 0; no point has
y = 0; (1, 2) is on the curve. -/
def Obligations.CurveFacts : Prop :=
  onCurve ⟨0, Config.p_pos⟩ ⟨0, Config.p_pos⟩ = false ∧
  (∀ x y : Fp, x.val = 0 → onCurve x y = false) ∧
  (∀ x y : Fp, y.val = 0 → onCurve x y = false) ∧
  ∀ x y : Fp, x.val = 1 → y.val = 2 → onCurve x y = true

/-- Where PADD halts: only on two affine points with equal x whose y are neither negatives nor equal; y1 = 0 is the guard of
R165 (log entry 9), any other y1 the unstated case of U12 (log entry 10). -/
def Obligations.PaddHaltsOnlyOffCurve : Prop :=
  ∀ (pd ps1 ps2 : PReg) (s : State),
    (∀ x y1 y2 : Fp, s.pCell ps1 = .valid (.aff x y1) → s.pCell ps2 = .valid (.aff x y2) →
      (y1.val + y2.val) % Config.p ≠ 0 → y1.val ≠ y2.val →
      (y1.val = 0 → exec (.padd pd ps1 ps2) s = .fault .divisionByZeroGuard) ∧
      (y1.val ≠ 0 → exec (.padd pd ps1 ps2) s = .fault .equalXOffCurve)) ∧
    ∀ f, exec (.padd pd ps1 ps2) s = .fault f →
      ∃ x y1 y2 : Fp, s.pCell ps1 = .valid (.aff x y1) ∧ s.pCell ps2 = .valid (.aff x y2) ∧
        (y1.val + y2.val) % Config.p ≠ 0 ∧ y1.val ≠ y2.val

/-- Identity, inverse and commutativity of PointAdd on valid points (R169). -/
def Obligations.PointAddGroupLaws : Prop :=
  (∀ q : Point, pointAdd q .inf = .ok q ∧ pointAdd .inf q = .ok q) ∧
  (∀ x y : Fp, pointAdd (.aff x y) (.aff x (fneg y)) = .ok .inf) ∧
  ∀ q1 q2 : Point, q1.wf = true → q2.wf = true → pointAdd q1 q2 = pointAdd q2 q1

/-- Associativity of PointAdd on valid points (R169). -/
def Obligations.PointAddAssociative : Prop :=
  ∀ q1 q2 q3 : Point, q1.wf = true → q2.wf = true → q3.wf = true →
    ∃ q12 q23 q, pointAdd q1 q2 = .ok q12 ∧ pointAdd q2 q3 = .ok q23 ∧ pointAdd q12 q3 = .ok q ∧ pointAdd q1 q23 = .ok q

/-! ### Invariants and runs -/

/-- The invariant of Safety.lean holds after reset. -/
def Obligations.InvAtReset : Prop := State.reset.Inv

/-- Every step keeps the invariant: memory stays canonical, every P register holds a curve point or INF (R35), and while a
command is in flight CMD holds its word, DONE is 0 and CODE reads 0 (R38, R39). -/
def Obligations.StepKeepsInv : Prop := ∀ s t : State, s.Inv → step s = .next t → t.Inv

/-- From a state whose P registers hold valid points every command completes: the guard of R165 is unreachable and nothing
else stops a command. -/
def Obligations.EveryCommandCompletes : Prop :=
  ∀ (i : Instr) (s : State), s.pointsValid → ∃ t, exec i s = .next t ∧ t.pointsValid

/-- Every run ends (the schedule and the engine's turn after it are log entries 2 and 3): when the agents do only what the spec
gives an effect, the whole schedule is taken, and one more step, the engine's, leaves the engine with BUSY = 0 and nothing owed
(R281), the invariant kept. -/
def Obligations.EveryScheduleDrains : Prop :=
  ∀ s : State, s.Inv → s.scheduleServed = true →
    ∃ t, Host.Core.run Sys2Proof.core (s.schedule.length + 1) s = .next t ∧ t.busy = false ∧ t.schedule = [] ∧ t.Inv
end

