-- ==== Sys2Proof/Laws/Asm.lean ====
section
/-! SUPPORT. The parts of the assembler: what an operand in range is, and what the readers of a line of text answer. -/

namespace Sys2Proof.Machine

/-- An F register is read from its own name and from nothing else. -/
theorem asmF_eq_some (o : AsmOperand) (r : FReg) : asmF o = some r ↔ o = .f r := by
  cases o <;> simp [asmF, Fin.ext_iff]
  rintro rfl; exact r.2

/-- A P register is read from its own name and from nothing else. -/
theorem asmP_eq_some (o : AsmOperand) (r : PReg) : asmP o = some r ↔ o = .p r := by
  cases o <;> simp [asmP, Fin.ext_iff]
  rintro rfl; exact r.2

/-- A slot is read from its own number and from nothing else. -/
theorem asmSlot_eq_some (k : Nat) (o : AsmOperand) (r : Fin k) : asmSlot k o = some r ↔ o = .slot r := by
  cases o <;> simp [asmSlot, Fin.ext_iff]
  rintro rfl; exact r.2

/-- The capital of a capital is itself. -/
theorem capital_capital (c : Char) : capital (capital c) = capital c := by
  unfold capital
  split_ifs with h1 h2
  · have key : ∀ n, 97 ≤ n → n ≤ 122 → ¬ (97 ≤ (Char.ofNat (n - 32)).toNat ∧ (Char.ofNat (n - 32)).toNat ≤ 122) := by
      intro n a b; interval_cases n <;> decide
    exact absurd h2 (key _ h1.1 h1.2)
  · rfl
  · rfl

/-- A blank is its own capital. -/
theorem capital_of_isBlank {c : Char} (h : isBlank c = true) : capital c = c := by
  simp only [isBlank, Bool.or_eq_true, beq_iff_eq] at h
  obtain rfl | rfl := h <;> decide

/-- The case of a mnemonic's letters is not seen. -/
theorem readMnemonic_map_capital (name : List Char) : readMnemonic (name.map capital) = readMnemonic name := by
  simp only [readMnemonic, List.map_map, Function.comp_def, capital_capital]

/-- A text that neither begins nor ends with a blank is its own trimmed text. -/
theorem trimBlanks_eq_self {t : List Char} (hh : ∀ c ∈ t.head?, isBlank c = false) (hl : ∀ c ∈ t.getLast?, isBlank c = false) :
    trimBlanks t = t := by
  have dw : ∀ l : List Char, (∀ c ∈ l.head?, isBlank c = false) → l.dropWhile isBlank = l := by
    intro l h; cases l with
    | nil => rfl
    | cons c r => rw [List.dropWhile_cons_of_neg]; simp [h c rfl]
  unfold trimBlanks
  rw [dw t hh, dw _ (by simpa [List.head?_reverse] using hl), List.reverse_reverse]

/-- A blank in front of a text is dropped. -/
theorem trimBlanks_blank_cons (t : List Char) : trimBlanks (' ' :: t) = trimBlanks t := rfl

/-- A text without blanks is its own trimmed text. -/
theorem trimBlanks_of_forall {t : List Char} (h : ∀ c ∈ t, isBlank c = false) : trimBlanks t = t :=
  trimBlanks_eq_self (fun c hc => h c (List.mem_of_mem_head? hc)) fun c hc => h c (List.mem_of_getLast? hc)

/-- A text without commas is one part. -/
theorem splitCommas_of_forall {t : List Char} (h : ∀ c ∈ t, c ≠ ',') : splitCommas t = [t] := by
  induction t with
  | nil => rfl
  | cons c r ih => simp [splitCommas, h c, ih fun x hx => h x (List.mem_cons_of_mem _ hx)]

/-- The text before the first comma is the first part. -/
theorem splitCommas_append_comma {t : List Char} (h : ∀ c ∈ t, c ≠ ',') (r : List Char) :
    splitCommas (t ++ ',' :: r) = t :: splitCommas r := by
  induction t with
  | nil => simp [splitCommas]
  | cons c t ih => simp [splitCommas, h c, ih fun x hx => h x (List.mem_cons_of_mem _ hx)]

end Sys2Proof.Machine
end

