-- ==== Sys2Proof/Laws/Memory.lean ====
section
/-! SUPPORT. The laws of buffer memory: read after write, and that every operation keeps the canonical form. The read
laws need no canonical form. -/

namespace Sys2Proof.Machine

/-! ### Reading what was written -/

theorem Memory.read_filter (m : Memory) (a k : Nat) :
    Memory.read (m.filter (fun c => decide (c.1 ≠ a))) k = if k = a then 0 else Memory.read m k := by
  induction m with
  | nil => simp [Memory.read]
  | cons c rest ih =>
    obtain ⟨b, u⟩ := c
    by_cases hb : b = a
    · subst hb
      simp only [ne_eq, List.filter_cons, not_true_eq_false, decide_false, Bool.false_eq_true, if_false, ih,
        Memory.read]
      split <;> rfl
    · simp only [ne_eq, List.filter_cons, hb, not_false_eq_true, decide_true, if_true, Memory.read, ih]
      by_cases hk : k = b <;> by_cases ha : k = a <;> simp_all

theorem Memory.read_insert (m : Memory) (a k : Nat) (v : Byte) :
    Memory.read (Memory.insert m a v) k = if k = a then v else Memory.read m k := by
  induction m with
  | nil => simp [Memory.insert, Memory.read]
  | cons c rest ih =>
    obtain ⟨b, u⟩ := c
    simp only [Memory.insert]
    split
    · simp [Memory.read]
    · split
      · rename_i h; subst h
        simp only [Memory.read]; split <;> rfl
      · simp only [Memory.read, ih]
        by_cases hk : k = b <;> by_cases ha : k = a <;> simp_all

/-- A read after a write: the byte written at its place, and every other byte as before. -/
@[simp] theorem Memory.read_write (m : Memory) (a k : Nat) (v : Byte) :
    Memory.read (Memory.write m a v) k = if k = a then v else Memory.read m k := by
  simp only [Memory.write]
  split
  · rename_i h; subst h; exact Memory.read_filter m a k
  · exact Memory.read_insert m a k v

/-- A read after a sequence of bytes was stored. -/
theorem Memory.read_writeBytes (m : Memory) (a k : Nat) (bytes : List Byte) :
    Memory.read (Memory.writeBytes m a bytes) k =
      if h : a ≤ k ∧ k < a + bytes.length then bytes[k - a]'(by omega) else Memory.read m k := by
  induction bytes generalizing m a with
  | nil => simp only [Memory.writeBytes, List.length_nil]; rw [dif_neg (by omega)]
  | cons v rest ih =>
    simp only [Memory.writeBytes, ih, List.length_cons, Memory.read_write]
    by_cases hk : k = a
    · subst hk
      rw [dif_neg (by omega), if_pos rfl, dif_pos (by omega)]
      simp
    · by_cases hin : a ≤ k ∧ k < a + (rest.length + 1)
      · rw [dif_pos (by omega), dif_pos hin]
        have : k - a = (k - (a + 1)) + 1 := by omega
        simp [this]
      · rw [dif_neg (by omega), dif_neg hin, if_neg hk]

/-- Every byte outside the stored ones reads as before. -/
theorem Memory.read_writeBytes_outside (m : Memory) (a k : Nat) (bytes : List Byte)
    (h : k < a ∨ a + bytes.length ≤ k) : Memory.read (Memory.writeBytes m a bytes) k = Memory.read m k := by
  rw [Memory.read_writeBytes, dif_neg (by omega)]

@[simp] theorem Memory.length_readBytes (m : Memory) (a n : Nat) : (Memory.readBytes m a n).length = n := by
  induction n generalizing a with
  | zero => rfl
  | succ n ih => simp [Memory.readBytes, ih]

theorem Memory.getElem_readBytes (m : Memory) (a n i : Nat) (h : i < (Memory.readBytes m a n).length) :
    (Memory.readBytes m a n)[i] = Memory.read m (a + i) := by
  induction n generalizing a i with
  | zero => simp [Memory.readBytes] at h
  | succ n ih =>
    cases i with
    | zero => simp [Memory.readBytes]
    | succ i =>
      simp only [Memory.readBytes, List.getElem_cons_succ]
      rw [ih]; congr 1; omega

/-- Reading back the bytes just stored. -/
@[simp] theorem Memory.readBytes_writeBytes (m : Memory) (a : Nat) (bytes : List Byte) :
    Memory.readBytes (Memory.writeBytes m a bytes) a bytes.length = bytes := by
  refine List.ext_getElem (by simp) fun i h1 h2 => ?_
  rw [Memory.getElem_readBytes, Memory.read_writeBytes, dif_pos (by omega)]
  simp

/-- The first bytes of a longer read. -/
theorem Memory.take_readBytes (m : Memory) (a n k : Nat) (h : k ≤ n) :
    (Memory.readBytes m a n).take k = Memory.readBytes m a k := by
  refine List.ext_getElem (by simpa using h) fun i h1 h2 => ?_
  rw [List.getElem_take, Memory.getElem_readBytes, Memory.getElem_readBytes]

/-- The last bytes of a longer read. -/
theorem Memory.drop_readBytes (m : Memory) (a n k : Nat) :
    (Memory.readBytes m a n).drop k = Memory.readBytes m (a + k) (n - k) := by
  refine List.ext_getElem (by simp) fun i h1 h2 => ?_
  rw [List.getElem_drop, Memory.getElem_readBytes, Memory.getElem_readBytes, Nat.add_assoc]

/-- Two memories that read alike on a range give the same bytes there. -/
theorem Memory.readBytes_congr (m m' : Memory) (a n : Nat)
    (h : ∀ k, a ≤ k → k < a + n → Memory.read m k = Memory.read m' k) :
    Memory.readBytes m a n = Memory.readBytes m' a n := by
  refine List.ext_getElem (by simp) fun i h1 h2 => ?_
  rw [Memory.getElem_readBytes, Memory.getElem_readBytes]
  simp only [Memory.length_readBytes] at h1
  exact h _ (by omega) (by omega)

/-! ### The canonical form -/

theorem Memory.wf_cons (c : Host.Cell) (m : Memory) :
    Memory.wf (c :: m) = true ↔ c.2 ≠ 0 ∧ c.1 < 0xC0 ∧ (∀ d ∈ m, c.1 < d.1) ∧ Memory.wf m = true := by
  obtain ⟨a, v⟩ := c
  simp [Memory.wf, and_assoc]

theorem Memory.wf_filter (m : Memory) (f : Host.Cell → Bool) (h : Memory.wf m = true) :
    Memory.wf (m.filter f) = true := by
  induction m with
  | nil => simpa using h
  | cons c rest ih =>
    rw [Memory.wf_cons] at h
    rw [List.filter_cons]
    split
    · rw [Memory.wf_cons]
      exact ⟨h.1, h.2.1, fun d hd => h.2.2.1 d (List.mem_filter.1 hd).1, ih h.2.2.2⟩
    · exact ih h.2.2.2

theorem Memory.mem_insert (m : Memory) (a : Nat) (v : Byte) (d : Host.Cell) (h : d ∈ Memory.insert m a v) :
    d = (a, v) ∨ d ∈ m := by
  induction m with
  | nil => simpa [Memory.insert] using h
  | cons c rest ih =>
    obtain ⟨b, u⟩ := c
    simp only [Memory.insert] at h
    split at h
    · simpa using h
    · split at h
      · simp only [List.mem_cons] at h ⊢
        tauto
      · simp only [List.mem_cons] at h ⊢
        rcases h with h | h
        · exact .inr (.inl h)
        · rcases ih h with h | h <;> tauto

theorem Memory.wf_insert (m : Memory) (a : Nat) (v : Byte) (hv : v ≠ 0) (ha : a < 0xC0)
    (h : Memory.wf m = true) : Memory.wf (Memory.insert m a v) = true := by
  induction m with
  | nil => simpa [Memory.insert, Memory.wf_cons, Memory.wf] using ⟨hv, ha⟩
  | cons c rest ih =>
    obtain ⟨b, u⟩ := c
    have hw := h
    rw [Memory.wf_cons] at h
    obtain ⟨hu, hb, hall, hr⟩ := h
    simp only [Memory.insert]
    split
    · rename_i hab
      rw [Memory.wf_cons]
      refine ⟨hv, ha, fun d hd => ?_, hw⟩
      rcases List.mem_cons.1 hd with rfl | hd
      · exact hab
      · exact hab.trans (hall d hd)
    · split
      · rename_i hab; subst hab
        rw [Memory.wf_cons]
        exact ⟨hv, ha, hall, hr⟩
      · rw [Memory.wf_cons]
        refine ⟨hu, hb, fun d hd => ?_, ih hr⟩
        rcases Memory.mem_insert rest a v d hd with rfl | hd
        · show b < a; omega
        · exact hall d hd

/-- A store inside the buffers keeps the canonical form. -/
theorem Memory.wf_write (m : Memory) (a : Nat) (v : Byte) (ha : a < 0xC0) (h : Memory.wf m = true) :
    Memory.wf (Memory.write m a v) = true := by
  simp only [Memory.write]
  split
  · exact Memory.wf_filter m _ h
  · exact Memory.wf_insert m a v (by assumption) ha h

/-- Storing a sequence inside the buffers keeps the canonical form. -/
theorem Memory.wf_writeBytes (m : Memory) (a : Nat) (bytes : List Byte) (ha : a + bytes.length ≤ 0xC0)
    (h : Memory.wf m = true) : Memory.wf (Memory.writeBytes m a bytes) = true := by
  induction bytes generalizing m a with
  | nil => exact h
  | cons v rest ih =>
    rw [List.length_cons] at ha
    exact ih _ _ (by omega) (Memory.wf_write m a v (by omega) h)

theorem Memory.read_zero_of_lt (m : Memory) (k : Nat) (h : ∀ d ∈ m, k < d.1) : Memory.read m k = 0 := by
  induction m with
  | nil => rfl
  | cons c rest ih =>
    obtain ⟨b, u⟩ := c
    have hb : k < b := h (b, u) (by simp)
    rw [Memory.read, if_neg (by omega)]
    exact ih fun d hd => h d (by simp [hd])

/-- In the canonical form equal reads mean equal memories. -/
theorem Memory.eq_of_read (m m' : Memory) (h : Memory.wf m = true) (h' : Memory.wf m' = true)
    (hr : ∀ k, Memory.read m k = Memory.read m' k) : m = m' := by
  induction m generalizing m' with
  | nil =>
    cases m' with
    | nil => rfl
    | cons c rest =>
      rw [Memory.wf_cons] at h'
      exact absurd (by simpa [Memory.read] using (hr c.1).symm) h'.1
  | cons c rest ih =>
    obtain ⟨b, u⟩ := c
    cases m' with
    | nil =>
      rw [Memory.wf_cons] at h
      exact absurd (by simpa [Memory.read] using hr b) h.1
    | cons c' rest' =>
      obtain ⟨b', u'⟩ := c'
      rw [Memory.wf_cons] at h h'
      obtain ⟨hu, -, hall, hw⟩ := h
      obtain ⟨hu', -, hall', hw'⟩ := h'
      simp only at hu hall hu' hall'
      have hb : b = b' := by
        rcases Nat.lt_trichotomy b b' with hlt | heq | hgt
        · exfalso
          have := hr b
          rw [Memory.read, if_pos rfl, Memory.read, if_neg (by omega),
            Memory.read_zero_of_lt rest' b fun d hd => hlt.trans (hall' d hd)] at this
          exact hu this
        · exact heq
        · exfalso
          have := hr b'
          rw [Memory.read, if_neg (by omega), Memory.read_zero_of_lt rest b' fun d hd => hgt.trans (hall d hd),
            Memory.read, if_pos rfl] at this
          exact hu' this.symm
      subst hb
      have hu2 : u = u' := by simpa [Memory.read] using hr b
      subst hu2
      congr 1
      refine ih rest' hw hw' fun k => ?_
      by_cases hk : k = b
      · subst hk
        rw [Memory.read_zero_of_lt rest k hall, Memory.read_zero_of_lt rest' k hall']
      · simpa [Memory.read, hk] using hr k

/-- Reset memory has the canonical form. -/
theorem Memory.wf_reset : Memory.wf State.reset.mem = true := rfl

end Sys2Proof.Machine
end

