-- ==== Sys2Proof/Laws/Bytes.lean ====
section
/-! SUPPORT. The laws of the big-endian codec of field elements and points (spec/00_scope.md R11, spec/42_codec.md R191,
R193), and of the packing of bits. -/

namespace Sys2Proof.Machine

@[simp] theorem length_toBE (n v : Nat) : (toBE n v).length = n := by
  induction n generalizing v with
  | zero => rfl
  | succ n ih => simp [toBE, ih]

@[simp] theorem length_toBE32 (v : Fp) : (toBE32 v).length = 32 := length_toBE _ _

@[simp] theorem length_encodePoint (q : Point) : (encodePoint q).length = 64 := by
  simp [encodePoint]

/-- A sequence of n bytes stands for a number below 256^n. -/
theorem be_lt (s : List Byte) : be s < 256 ^ s.length := by
  induction s with
  | nil => simp [be]
  | cons x rest ih =>
    have hx := x.isLt
    simp only [be, List.length_cons, pow_succ]
    nlinarith

/-- BE of the encoding of v is v, cut to n bytes. -/
theorem be_toBE (n v : Nat) : be (toBE n v) = v % 256 ^ n := by
  induction n with
  | zero => simp [toBE, be, Nat.mod_one]
  | succ n ih =>
    have h8 : (2 : Nat) ^ 8 = 256 := rfl
    rw [toBE, be, length_toBE, ih, BitVec.toNat_ofNat, h8, pow_succ, Nat.mod_mul]
    ring

theorem toBE_mul_add (n x v : Nat) : toBE n (x * 256 ^ n + v) = toBE n v := by
  have key : ∀ m, m ≤ n → toBE m (x * 256 ^ n + v) = toBE m v := by
    intro m hm
    induction m with
    | zero => rfl
    | succ m ih =>
      simp only [toBE]
      congr 1
      · apply BitVec.eq_of_toNat_eq
        simp only [BitVec.toNat_ofNat]
        have : x * 256 ^ n + v = v + 256 ^ m * (256 * (x * 256 ^ (n - (m + 1)))) := by
          have hn : 256 ^ n = 256 ^ m * 256 * 256 ^ (n - (m + 1)) := by
            rw [← pow_succ, ← pow_add]; congr 1; omega
          rw [hn]; ring
        rw [this, Nat.add_mul_div_left _ _ (by positivity)]
        omega
      · exact ih (by omega)
  exact key n le_rfl

/-- The encoding of BE(s) is s: the byte codec loses nothing. -/
theorem toBE_be (s : List Byte) : toBE s.length (be s) = s := by
  induction s with
  | nil => rfl
  | cons x rest ih =>
    simp only [List.length_cons, toBE, be]
    have hlt := be_lt rest
    congr 1
    · apply BitVec.eq_of_toNat_eq
      have hx := x.isLt
      rw [BitVec.toNat_ofNat, mul_comm, Nat.mul_add_div (by positivity), Nat.div_eq_of_lt hlt]
      omega
    · rw [toBE_mul_add, ih]

theorem p_lt_256_pow : Config.p < 256 ^ Config.elemBytes := by decide

theorem canonical?_of_lt {v : Nat} (h : v < Config.p) : canonical? v = some ⟨v, h⟩ := dif_pos h

theorem canonical?_of_ge {v : Nat} (h : Config.p ≤ v) : canonical? v = none := dif_neg (by omega)

/-- The encoding of a field element stands for that element. -/
theorem be_toBE32 (v : Fp) : be (toBE32 v) = v.val := by
  rw [toBE32, be_toBE, Nat.mod_eq_of_lt (v.isLt.trans p_lt_256_pow)]

/-- Decoding the encoding of a field element. -/
@[simp] theorem decodeElem_toBE32 (v : Fp) : decodeElem (toBE32 v) = .ok v := by
  rw [decodeElem, be_toBE32, canonical?_of_lt v.isLt]
  rfl

/-- All that the element decoder can answer (R134). -/
theorem decodeElem_cases (s : List Byte) :
    (∃ v : Fp, v.val = be s ∧ decodeElem s = .ok v) ∨
      (Config.p ≤ be s ∧ decodeElem s = .error (.raised .outOfRange)) := by
  by_cases h : be s < Config.p
  · exact .inl ⟨⟨be s, h⟩, rfl, by rw [decodeElem, canonical?_of_lt h]; rfl⟩
  · exact .inr ⟨by omega, by rw [decodeElem, canonical?_of_ge (by omega)]; rfl⟩

/-- Encoding what the element decoder accepted gives the bytes back. -/
theorem toBE32_of_decodeElem {s : List Byte} {v : Fp} (hs : s.length = 32) (h : decodeElem s = .ok v) :
    toBE32 v = s := by
  rcases decodeElem_cases s with ⟨u, hu, he⟩ | ⟨-, he⟩
  · rw [he] at h
    cases h
    have : toBE32 v = toBE s.length (be s) := by rw [toBE32, hu, hs]
    rw [this, toBE_be]
  · rw [he] at h; cases h

/-- BE as the weighted sum of R11. -/
theorem be_eq_sum (s : List Byte) : be s = ∑ k ∈ Finset.range s.length, (s.getD k 0).toNat * 256 ^ (s.length - 1 - k) := by
  induction s with
  | nil => rfl
  | cons x rest ih =>
    rw [be, ih, List.length_cons, Finset.sum_range_succ']
    simp only [List.getD_cons_succ, List.getD_cons_zero]
    rw [add_comm]
    congr 1
    refine Finset.sum_congr rfl fun k hk => ?_
    congr 2
    omega

/-- The number in n bytes of memory (R11, R75). -/
theorem be_readBytes (m : Memory) (a n : Nat) :
    be (Memory.readBytes m a n) = ∑ k ∈ Finset.range n, (Memory.read m (a + k)).toNat * 256 ^ (n - 1 - k) := by
  rw [be_eq_sum, Memory.length_readBytes]
  refine Finset.sum_congr rfl fun k hk => ?_
  have hk' : k < (Memory.readBytes m a n).length := by simpa using hk
  rw [List.getD_eq_getElem _ _ hk', Memory.getElem_readBytes]

/-- Byte k of the n-byte encoding of v. -/
theorem getElem_toBE (n v k : Nat) (hk : k < (toBE n v).length) :
    (toBE n v)[k].toNat = v / 256 ^ (n - 1 - k) % 256 := by
  induction n generalizing k with
  | zero => simp [toBE] at hk
  | succ n ih =>
    cases k with
    | zero => simp [toBE]
    | succ k =>
      simp only [toBE, List.getElem_cons_succ]
      rw [ih]
      congr 3
      omega

/-- Bit i of the packed number is entry i of the list. -/
theorem testBit_bitsToNat (l : List Bool) (i : Nat) : (bitsToNat l).testBit i = l.getD i false := by
  induction l generalizing i with
  | nil => simp [bitsToNat]
  | cons x rest ih =>
    cases i with
    | zero => cases x <;> simp [bitsToNat, Nat.testBit_zero]
    | succ i =>
      rw [List.getD_cons_succ, ← ih, bitsToNat, Nat.testBit_succ]
      congr 1
      cases x <;> (simp; try omega)

theorem bitsToNat_lt (l : List Bool) : bitsToNat l < 2 ^ l.length := by
  induction l with
  | nil => simp [bitsToNat]
  | cons x rest ih =>
    rw [bitsToNat, List.length_cons, pow_succ]
    cases x <;> simp <;> omega

end Sys2Proof.Machine
end

