-- ==== Sys2Proof/Laws/Primality.lean ====
section
/-! SUPPORT. p is prime (spec/00_scope.md R6): a Pratt certificate, checked by the kernel. The factors of p - 1 and of the
large ones below it were computed outside; the theorems check them. -/

namespace Sys2Proof.Laws

/-- a^e mod m by squaring, for e below 2^fuel. -/
def powMod (m : Nat) : Nat → Nat → Nat → Nat
  | 0, _, _ => 1 % m
  | fuel + 1, a, e =>
    if e % 2 = 1 then a * powMod m fuel (a * a % m) (e / 2) % m else powMod m fuel (a * a % m) (e / 2)

theorem powMod_eq (m fuel a e : Nat) (he : e < 2 ^ fuel) : powMod m fuel a e = a ^ e % m := by
  induction fuel generalizing a e with
  | zero =>
    have : e = 0 := by simpa using he
    simp [powMod, this]
  | succ fuel ih =>
    have hq : e / 2 < 2 ^ fuel := by rw [pow_succ] at he; omega
    have hsq : (a * a % m) ^ (e / 2) % m = a ^ (2 * (e / 2)) % m := by
      rw [← Nat.pow_mod, pow_mul, sq]
    rw [powMod, ih _ _ hq, hsq]
    split
    · rw [Nat.mul_mod_mod, ← pow_succ']
      congr 2; omega
    · congr 2; omega

/-- One node of a Pratt certificate: a base of order n - 1, given the primes whose product is n - 1. -/
theorem prime_of_certificate (n a fuel : Nat) (factors : List Nat) (hn : 1 < n) (hfuel : n - 1 < 2 ^ fuel)
    (hprod : factors.prod = n - 1) (hprime : ∀ q ∈ factors, q.Prime)
    (hone : powMod n fuel a (n - 1) = 1) (hne : ∀ q ∈ factors, powMod n fuel a ((n - 1) / q) ≠ 1) : n.Prime := by
  have cast : ∀ e, e < 2 ^ fuel → ((a : ZMod n) ^ e = 1 ↔ powMod n fuel a e = 1) := by
    intro e he
    rw [powMod_eq _ _ _ _ he, ← Nat.cast_pow, ← Nat.cast_one, ZMod.natCast_eq_natCast_iff, Nat.ModEq,
      Nat.mod_eq_of_lt hn]
  refine lucas_primality n a ((cast _ hfuel).2 hone) fun q hq hdvd hpow => ?_
  rw [← hprod, hq.prime.dvd_prod_iff] at hdvd
  obtain ⟨r, hr, hqr⟩ := hdvd
  obtain rfl : q = r := (Nat.prime_dvd_prime_iff_eq hq (hprime r hr)).1 hqr
  exact hne q hr ((cast _ ((Nat.div_le_self _ _).trans_lt hfuel)).1 hpow)

theorem prime_405928799 : Nat.Prime 405928799 :=
  prime_of_certificate 405928799 22 64 [2, 11, 3691, 4999] (by decide) (by decide) (by decide) (by norm_num)
    (by decide +kernel) (by decide +kernel)

theorem prime_11465965001 : Nat.Prime 11465965001 :=
  prime_of_certificate 11465965001 3 64 [2, 2, 2, 5, 5, 5, 5, 7, 327599] (by decide) (by decide) (by decide) (by norm_num)
    (by decide +kernel) (by decide +kernel)

theorem prime_173171039 : Nat.Prime 173171039 :=
  prime_of_certificate 173171039 13 64 [2, 73, 89, 13327] (by decide) (by decide) (by decide) (by norm_num)
    (by decide +kernel) (by decide +kernel)

theorem prime_1263766531 : Nat.Prime 1263766531 :=
  prime_of_certificate 1263766531 10 64 [2, 3, 5, 13, 911, 3557] (by decide) (by decide) (by decide) (by norm_num)
    (by decide +kernel) (by decide +kernel)

theorem prime_35385462869 : Nat.Prime 35385462869 :=
  prime_of_certificate 35385462869 2 64 [2, 2, 7, 1263766531] (by decide) (by decide) (by decide)
    (by simp [prime_1263766531]; norm_num) (by decide +kernel) (by decide +kernel)

theorem prime_2480874801745591 : Nat.Prime 2480874801745591 :=
  prime_of_certificate 2480874801745591 6 64 [2, 3, 3, 5, 19, 41, 35385462869] (by decide) (by decide) (by decide)
    (by simp [prime_35385462869]; norm_num) (by decide +kernel) (by decide +kernel)

theorem prime_13427688667394608761327070753331941386769 : Nat.Prime 13427688667394608761327070753331941386769 :=
  prime_of_certificate 13427688667394608761327070753331941386769 17 134
    [2, 2, 2, 2, 3, 7, 11, 1853641, 4562087, 173171039, 2480874801745591] (by decide) (by decide) (by decide)
    (by simp [prime_173171039, prime_2480874801745591]; norm_num) (by decide +kernel) (by decide +kernel)

/-- p is prime (R6). -/
theorem prime_p : Nat.Prime Config.p :=
  prime_of_certificate Config.p 3 254
    [2, 3, 3, 13, 29, 67, 229, 311, 983, 11003, 405928799, 11465965001, 13427688667394608761327070753331941386769]
    (by decide) (by decide) (by decide)
    (by simp [prime_405928799, prime_11465965001, prime_13427688667394608761327070753331941386769]; norm_num)
    (by decide +kernel) (by decide +kernel)

end Sys2Proof.Laws
end

