-- ==== Sys2Proof/Laws/Field.lean ====
section
/-! SUPPORT. Field arithmetic as arithmetic in ZMod p (spec/00_scope.md R14): `asZMod` carries every operation of the model to
the field operation of the same name, and is injective; finv is the inverse (R133). -/

namespace Sys2Proof.Machine

theorem fact_prime_p : Fact (Nat.Prime Config.p) := ⟨Laws.prime_p⟩

/-- A field element as an element of ZMod p. -/
def asZMod (a : Fp) : ZMod Config.p := (a.val : ZMod Config.p)

theorem asZMod_inj {a c : Fp} : asZMod a = asZMod c ↔ a = c := by
  rw [asZMod, asZMod, ZMod.natCast_eq_natCast_iff, Nat.ModEq, Nat.mod_eq_of_lt a.isLt, Nat.mod_eq_of_lt c.isLt, Fin.ext_iff]

theorem asZMod_toInt (a : Fp) : ((toInt a : Int) : ZMod Config.p) = asZMod a := by simp [toInt, asZMod]

/-- The value of a narrowed integer. -/
theorem reduce_val (z : Int) : ((reduce z).val : Int) = z % (Config.p : Int) := by
  have hp : (0 : Int) < (Config.p : Int) := Int.natCast_pos.mpr Config.p_pos
  exact Int.toNat_of_nonneg (Int.emod_nonneg z (Int.ne_of_gt hp))

@[simp] theorem asZMod_reduce (z : Int) : asZMod (reduce z) = (z : ZMod Config.p) := by
  have h : ((reduce z).val : Int) ≡ z [ZMOD (Config.p : Int)] := by
    rw [reduce_val]; exact Int.mod_modEq z _
  rw [asZMod, ← Int.cast_natCast]
  exact (ZMod.intCast_eq_intCast_iff _ _ _).2 h

@[simp] theorem reduce_toInt (a : Fp) : reduce (toInt a) = a := by
  rw [← asZMod_inj, asZMod_reduce, asZMod_toInt]

theorem reduce_eq_iff (z z' : Int) : reduce z = reduce z' ↔ (z : ZMod Config.p) = (z' : ZMod Config.p) := by
  rw [← asZMod_inj, asZMod_reduce, asZMod_reduce]

@[simp] theorem asZMod_fzero : asZMod fzero = 0 := by simp [asZMod, fzero]

theorem asZMod_eq_zero {a : Fp} : asZMod a = 0 ↔ a = fzero := by rw [← asZMod_fzero, asZMod_inj]

@[simp] theorem asZMod_fadd (a c : Fp) : asZMod (fadd a c) = asZMod a + asZMod c := by simp [fadd, asZMod_toInt]

@[simp] theorem asZMod_fsub (a c : Fp) : asZMod (fsub a c) = asZMod a - asZMod c := by simp [fsub, asZMod_toInt]

@[simp] theorem asZMod_fmul (a c : Fp) : asZMod (fmul a c) = asZMod a * asZMod c := by simp [fmul, asZMod_toInt]

@[simp] theorem asZMod_fneg (a : Fp) : asZMod (fneg a) = -asZMod a := by simp [fneg, asZMod_toInt]

theorem asZMod_fpow (fuel e : Nat) (a : Fp) (he : e < 2 ^ fuel) : asZMod (fpow a fuel e) = asZMod a ^ e := by
  induction fuel generalizing a e with
  | zero =>
    have : e = 0 := by simpa using he
    simp [fpow, this]
  | succ fuel ih =>
    have hq : e / 2 < 2 ^ fuel := by rw [pow_succ] at he; omega
    simp only [fpow]
    split
    · rw [asZMod_fmul, ih _ _ hq, asZMod_fmul, ← sq, ← pow_mul, ← pow_succ']
      congr 1; omega
    · rw [ih _ _ hq, asZMod_fmul, ← sq, ← pow_mul]
      congr 1; omega

/-- finv is the inverse of ZMod p; like it, it sends 0 to 0. -/
@[simp] theorem asZMod_finv (a : Fp) : asZMod (finv a) = (asZMod a)⁻¹ := by
  have := fact_prime_p
  rw [finv, asZMod_fpow _ _ _ (by decide)]
  by_cases h : asZMod a = 0
  · rw [h, inv_zero, zero_pow (by decide)]
  · refine (inv_eq_of_mul_eq_one_left ?_).symm
    rw [← pow_succ]
    exact ZMod.pow_card_sub_one_eq_one h

/-- The multiplicative inverse of R14 and R133. -/
theorem fmul_finv {a : Fp} (h : a ≠ fzero) : (a.val * (finv a).val) % Config.p = 1 := by
  have := fact_prime_p
  have h1 : asZMod a * asZMod (finv a) = 1 := by
    rw [asZMod_finv, mul_inv_cancel₀ (by rwa [Ne, asZMod_eq_zero])]
  rw [asZMod, asZMod, ← Nat.cast_mul, ← Nat.cast_one, ZMod.natCast_eq_natCast_iff, Nat.ModEq] at h1
  rw [h1]; decide

/-- There is no other inverse (R14: "the unique c"). -/
theorem finv_unique {a c : Fp} (h : (a.val * c.val) % Config.p = 1) : c = finv a := by
  have := fact_prime_p
  have h1 : asZMod a * asZMod c = 1 := by
    rw [asZMod, asZMod, ← Nat.cast_mul, ← Nat.cast_one, ZMod.natCast_eq_natCast_iff, Nat.ModEq, h]; decide
  rw [← asZMod_inj, asZMod_finv]
  exact (inv_eq_of_mul_eq_one_right h1).symm

/-- The sum as one conditional subtraction (R130, R151). -/
theorem fadd_val (a c : Fp) : (fadd a c).val = (a.val + c.val) % Config.p := by
  have h := reduce_val (toInt a + toInt c)
  rw [toInt, toInt] at h
  exact_mod_cast h

/-- The product, reduced (R132). -/
theorem fmul_val (a c : Fp) : (fmul a c).val = (a.val * c.val) % Config.p := by
  have h := reduce_val (toInt a * toInt c)
  rw [toInt, toInt] at h
  exact_mod_cast h

/-- The difference on natural numbers (R131). -/
theorem fsub_val (a c : Fp) : (fsub a c).val = if c.val ≤ a.val then a.val - c.val else a.val + Config.p - c.val := by
  have h := reduce_val (toInt a - toInt c)
  have ha := a.isLt
  have hc := c.isLt
  rw [toInt, toInt] at h
  have goal : ((fsub a c).val : Int) = ((if c.val ≤ a.val then a.val - c.val else a.val + Config.p - c.val : Nat) : Int) := by
    refine h.trans ?_
    split
    · rw [Int.emod_eq_of_lt] <;> omega
    · rw [← Int.add_emod_right, Int.emod_eq_of_lt] <;> omega
  exact_mod_cast goal

end Sys2Proof.Machine
end

