-- ==== Sys2Proof/Laws/Curve.lean ====
section
/-! SUPPORT. The curve functions in ZMod p, and one lemma per function that says all it can answer (spec/41_point.md R159 to
R168, spec/42_codec.md R191, R193). -/

namespace Sys2Proof.Machine

/-- The curve equation of R159 in ZMod p. -/
theorem onCurve_iff (x y : Fp) : onCurve x y = true ↔ asZMod y ^ 2 = asZMod x ^ 3 + 3 := by
  rw [onCurve, beq_iff_eq]
  change Nat.ModEq Config.p _ _ ↔ _
  rw [← ZMod.natCast_eq_natCast_iff, Config.b]
  push_cast
  rw [asZMod, asZMod, pow_two, pow_succ, pow_two]

theorem two_ne_zero_Z : (2 : ZMod Config.p) ≠ 0 := by
  have h : ((2 : Nat) : ZMod Config.p) ≠ 0 := by
    rw [Ne, ZMod.natCast_eq_zero_iff]; decide
  exact_mod_cast h

theorem asZMod_thirdPoint_x (lam x1 x2 : Fp) :
    asZMod (reduce (toInt lam * toInt lam - toInt x1 - toInt x2)) = asZMod lam ^ 2 - asZMod x1 - asZMod x2 := by
  simp [asZMod_toInt, sq]

theorem asZMod_thirdPoint_y (lam x1 x3 y1 : Fp) :
    asZMod (reduce (toInt lam * (toInt x1 - toInt x3) - toInt y1)) = asZMod lam * (asZMod x1 - asZMod x3) - asZMod y1 := by
  simp [asZMod_toInt]

theorem asZMod_tangentSlope (x1 d : Fp) : asZMod (tangentSlope x1 d) = 3 * asZMod x1 ^ 2 * (asZMod d)⁻¹ := by
  simp only [tangentSlope, asZMod_reduce]
  push_cast
  rw [asZMod_toInt, asZMod_toInt, asZMod_finv]
  ring

theorem asZMod_chordSlope (x1 y1 x2 y2 : Fp) :
    asZMod (chordSlope x1 y1 x2 y2) = (asZMod y2 - asZMod y1) * (asZMod x2 - asZMod x1)⁻¹ := by
  simp only [chordSlope, asZMod_reduce]
  push_cast
  rw [asZMod_toInt, asZMod_toInt, asZMod_toInt, asZMod_finv, asZMod_reduce]
  push_cast
  rw [asZMod_toInt, asZMod_toInt]

/-- The third point of a line is on the curve when the line meets the curve in (x1, y1) and x2 as the slope says. -/
theorem thirdPoint_wf (lam x1 y1 x2 : Fp) (h1 : asZMod y1 ^ 2 = asZMod x1 ^ 3 + 3)
    (hline : 2 * asZMod y1 * asZMod lam + asZMod lam ^ 2 * (asZMod x2 - asZMod x1)
      = asZMod x1 ^ 2 + asZMod x1 * asZMod x2 + asZMod x2 ^ 2) :
    (thirdPoint lam x1 y1 x2).wf = true := by
  rw [thirdPoint, Point.wf, onCurve_iff, asZMod_thirdPoint_y, asZMod_thirdPoint_x]
  generalize asZMod lam = l at *
  generalize asZMod x1 = a at *
  generalize asZMod y1 = c at *
  generalize asZMod x2 = e at *
  linear_combination h1 + (-2 * a - e + l ^ 2) * hline

/-- All that PointAdd can answer on valid points (R164, R165): never an error, and a valid point. -/
theorem pointAdd_wf {q1 q2 : Point} (h1 : q1.wf = true) (h2 : q2.wf = true) :
    ∃ q, pointAdd q1 q2 = .ok q ∧ q.wf = true := by
  have := fact_prime_p
  cases q1 with
  | inf => exact ⟨q2, rfl, h2⟩
  | aff x1 y1 =>
    cases q2 with
    | inf => exact ⟨_, rfl, h1⟩
    | aff x2 y2 =>
      simp only [Point.wf, onCurve_iff] at h1 h2
      simp only [pointAdd]
      split
      · rename_i hx
        subst hx
        split
        · exact ⟨_, rfl, rfl⟩
        · rename_i hsum
          rw [← asZMod_eq_zero, asZMod_fadd] at hsum
          have hprod : (asZMod y1 - asZMod y2) * (asZMod y1 + asZMod y2) = 0 := by linear_combination h1 - h2
          have hy : y1 = y2 := by
            rw [← asZMod_inj]
            exact sub_eq_zero.1 ((mul_eq_zero.1 hprod).resolve_right hsum)
          subst hy
          have hd : asZMod (reduce (2 * toInt y1)) = 2 * asZMod y1 := by
            rw [asZMod_reduce]; push_cast; rw [asZMod_toInt]
          have hd0 : asZMod (reduce (2 * toInt y1)) ≠ 0 := by rw [hd, two_mul]; exact hsum
          rw [if_neg (by rwa [← asZMod_eq_zero]), if_pos rfl]
          refine ⟨_, rfl, thirdPoint_wf _ _ _ _ h1 ?_⟩
          rw [hd] at hd0
          rw [asZMod_tangentSlope, hd]
          linear_combination 3 * asZMod x1 ^ 2 * mul_inv_cancel₀ hd0
      · rename_i hx
        have hx' : asZMod x2 - asZMod x1 ≠ 0 := fun h => hx (asZMod_inj.1 (sub_eq_zero.1 h).symm)
        refine ⟨_, rfl, thirdPoint_wf _ _ _ _ h1 ?_⟩
        rw [asZMod_chordSlope]
        field_simp
        linear_combination h2 - h1

/-- All that PointDecode can answer (R162). -/
theorem pointDecode_cases (x y : Fp) :
    (x = fzero ∧ y = fzero ∧ pointDecode x y = .ok .inf) ∨
      (¬(x = fzero ∧ y = fzero) ∧ onCurve x y = true ∧ pointDecode x y = .ok (.aff x y)) ∨
      (¬(x = fzero ∧ y = fzero) ∧ onCurve x y = false ∧ pointDecode x y = .error (.raised .pointNotOnCurve)) := by
  by_cases hz : x = fzero ∧ y = fzero
  · exact .inl ⟨hz.1, hz.2, if_pos hz⟩
  · cases hc : onCurve x y with
    | true => exact .inr (.inl ⟨hz, rfl, by rw [pointDecode, if_neg hz, if_pos hc]⟩)
    | false => exact .inr (.inr ⟨hz, rfl, by rw [pointDecode, if_neg hz, if_neg (by simp [hc])]; rfl⟩)

/-- A decoded point is valid. -/
theorem pointDecode_wf {x y : Fp} {q : Point} (h : pointDecode x y = .ok q) : q.wf = true := by
  rcases pointDecode_cases x y with ⟨-, -, e⟩ | ⟨-, hc, e⟩ | ⟨-, -, e⟩ <;> rw [e] at h <;> cases h
  · rfl
  · exact hc

/-- All that DecodePoint can answer (R191): OutOfRange, or what PointDecode answers on the two coordinates. -/
theorem decodePoint_cases (s : List Byte) :
    (∃ x y : Fp, x.val = be (s.take 32) ∧ y.val = be (s.drop 32) ∧ decodePoint s = pointDecode x y) ∨
      ((Config.p ≤ be (s.take 32) ∨ Config.p ≤ be (s.drop 32)) ∧
        decodePoint s = .error (.raised .outOfRange)) := by
  rcases decodeElem_cases (s.take 32) with ⟨x, hx, ex⟩ | ⟨hx, ex⟩
  · rcases decodeElem_cases (s.drop 32) with ⟨y, hy, ey⟩ | ⟨hy, ey⟩
    · exact .inl ⟨x, y, hx, hy, by rw [decodePoint, Config.elemBytes, ex, ey]; rfl⟩
    · exact .inr ⟨.inr hy, by rw [decodePoint, Config.elemBytes, ex, ey]; rfl⟩
  · exact .inr ⟨.inl hx, by rw [decodePoint, Config.elemBytes, ex]; rfl⟩

/-- A decoded buffer is a valid point. -/
theorem decodePoint_wf {s : List Byte} {q : Point} (h : decodePoint s = .ok q) : q.wf = true := by
  rcases decodePoint_cases s with ⟨x, y, -, -, e⟩ | ⟨-, e⟩
  · exact pointDecode_wf (e.symm.trans h)
  · rw [e] at h; cases h

/-- The codec's errors are only codes 2 and 3: decoding never stops the machine. -/
theorem decodePoint_error {s : List Byte} {e : Exit} (h : decodePoint s = .error e) :
    e = .raised .outOfRange ∨ e = .raised .pointNotOnCurve := by
  rcases decodePoint_cases s with ⟨x, y, -, -, e'⟩ | ⟨-, e'⟩
  · rw [e'] at h
    rcases pointDecode_cases x y with ⟨-, -, d⟩ | ⟨-, -, d⟩ | ⟨-, -, d⟩ <;> rw [d] at h <;> cases h
    exact .inr rfl
  · rw [e'] at h; cases h; exact .inl rfl

end Sys2Proof.Machine
end

