-- ==== Sys2Proof/Laws/State.lean ====
section
/-! SUPPORT. One lemma per field of State per named update, and what an update does to a register cell and to BUSY. All the
field lemmas are true by rfl. -/

namespace Sys2Proof.Machine

variable (s : State)

/-! ### State.memWrite -/

@[simp] theorem State.memWrite_mem (off : Nat) (bytes : List Byte) : (s.memWrite off bytes).mem = Memory.writeBytes s.mem (0x80 + off) bytes := rfl
@[simp] theorem State.memWrite_inlen (off : Nat) (bytes : List Byte) : (s.memWrite off bytes).inlen = s.inlen := rfl
@[simp] theorem State.memWrite_cmd (off : Nat) (bytes : List Byte) : (s.memWrite off bytes).cmd = s.cmd := rfl
@[simp] theorem State.memWrite_inflight (off : Nat) (bytes : List Byte) : (s.memWrite off bytes).inflight = s.inflight := rfl
@[simp] theorem State.memWrite_done (off : Nat) (bytes : List Byte) : (s.memWrite off bytes).done = s.done := rfl
@[simp] theorem State.memWrite_ovr (off : Nat) (bytes : List Byte) : (s.memWrite off bytes).ovr = s.ovr := rfl
@[simp] theorem State.memWrite_flag (off : Nat) (bytes : List Byte) : (s.memWrite off bytes).flag = s.flag := rfl
@[simp] theorem State.memWrite_code (off : Nat) (bytes : List Byte) : (s.memWrite off bytes).code = s.code := rfl
@[simp] theorem State.memWrite_fregs (off : Nat) (bytes : List Byte) : (s.memWrite off bytes).fregs = s.fregs := rfl
@[simp] theorem State.memWrite_pregs (off : Nat) (bytes : List Byte) : (s.memWrite off bytes).pregs = s.pregs := rfl
@[simp] theorem State.memWrite_schedule (off : Nat) (bytes : List Byte) : (s.memWrite off bytes).schedule = s.schedule := rfl
@[simp] theorem State.memWrite_lastRead (off : Nat) (bytes : List Byte) : (s.memWrite off bytes).lastRead = s.lastRead := rfl
@[simp] theorem State.memWrite_fCell (off : Nat) (bytes : List Byte) (k : FReg) : (s.memWrite off bytes).fCell k = s.fCell k := rfl
@[simp] theorem State.memWrite_pCell (off : Nat) (bytes : List Byte) (k : PReg) : (s.memWrite off bytes).pCell k = s.pCell k := rfl
@[simp] theorem State.memWrite_busy (off : Nat) (bytes : List Byte) : (s.memWrite off bytes).busy = s.busy := rfl

/-! ### State.writeF -/

@[simp] theorem State.writeF_mem (r : FReg) (v : Fp) : (s.writeF r v).mem = s.mem := rfl
@[simp] theorem State.writeF_inlen (r : FReg) (v : Fp) : (s.writeF r v).inlen = s.inlen := rfl
@[simp] theorem State.writeF_cmd (r : FReg) (v : Fp) : (s.writeF r v).cmd = s.cmd := rfl
@[simp] theorem State.writeF_inflight (r : FReg) (v : Fp) : (s.writeF r v).inflight = s.inflight := rfl
@[simp] theorem State.writeF_done (r : FReg) (v : Fp) : (s.writeF r v).done = s.done := rfl
@[simp] theorem State.writeF_ovr (r : FReg) (v : Fp) : (s.writeF r v).ovr = s.ovr := rfl
@[simp] theorem State.writeF_flag (r : FReg) (v : Fp) : (s.writeF r v).flag = s.flag := rfl
@[simp] theorem State.writeF_code (r : FReg) (v : Fp) : (s.writeF r v).code = s.code := rfl
@[simp] theorem State.writeF_fregs (r : FReg) (v : Fp) : (s.writeF r v).fregs = s.fregs.set r (.valid v) := rfl
@[simp] theorem State.writeF_pregs (r : FReg) (v : Fp) : (s.writeF r v).pregs = s.pregs := rfl
@[simp] theorem State.writeF_schedule (r : FReg) (v : Fp) : (s.writeF r v).schedule = s.schedule := rfl
@[simp] theorem State.writeF_lastRead (r : FReg) (v : Fp) : (s.writeF r v).lastRead = s.lastRead := rfl
@[simp] theorem State.writeF_pCell (r : FReg) (v : Fp) (k : PReg) : (s.writeF r v).pCell k = s.pCell k := rfl
@[simp] theorem State.writeF_busy (r : FReg) (v : Fp) : (s.writeF r v).busy = s.busy := rfl

/-! ### State.writeP -/

@[simp] theorem State.writeP_mem (r : PReg) (v : Point) : (s.writeP r v).mem = s.mem := rfl
@[simp] theorem State.writeP_inlen (r : PReg) (v : Point) : (s.writeP r v).inlen = s.inlen := rfl
@[simp] theorem State.writeP_cmd (r : PReg) (v : Point) : (s.writeP r v).cmd = s.cmd := rfl
@[simp] theorem State.writeP_inflight (r : PReg) (v : Point) : (s.writeP r v).inflight = s.inflight := rfl
@[simp] theorem State.writeP_done (r : PReg) (v : Point) : (s.writeP r v).done = s.done := rfl
@[simp] theorem State.writeP_ovr (r : PReg) (v : Point) : (s.writeP r v).ovr = s.ovr := rfl
@[simp] theorem State.writeP_flag (r : PReg) (v : Point) : (s.writeP r v).flag = s.flag := rfl
@[simp] theorem State.writeP_code (r : PReg) (v : Point) : (s.writeP r v).code = s.code := rfl
@[simp] theorem State.writeP_fregs (r : PReg) (v : Point) : (s.writeP r v).fregs = s.fregs := rfl
@[simp] theorem State.writeP_pregs (r : PReg) (v : Point) : (s.writeP r v).pregs = s.pregs.set r (.valid v) := rfl
@[simp] theorem State.writeP_schedule (r : PReg) (v : Point) : (s.writeP r v).schedule = s.schedule := rfl
@[simp] theorem State.writeP_lastRead (r : PReg) (v : Point) : (s.writeP r v).lastRead = s.lastRead := rfl
@[simp] theorem State.writeP_fCell (r : PReg) (v : Point) (k : FReg) : (s.writeP r v).fCell k = s.fCell k := rfl
@[simp] theorem State.writeP_busy (r : PReg) (v : Point) : (s.writeP r v).busy = s.busy := rfl

/-! ### State.writeFlag -/

@[simp] theorem State.writeFlag_mem (v : Bool) : (s.writeFlag v).mem = s.mem := rfl
@[simp] theorem State.writeFlag_inlen (v : Bool) : (s.writeFlag v).inlen = s.inlen := rfl
@[simp] theorem State.writeFlag_cmd (v : Bool) : (s.writeFlag v).cmd = s.cmd := rfl
@[simp] theorem State.writeFlag_inflight (v : Bool) : (s.writeFlag v).inflight = s.inflight := rfl
@[simp] theorem State.writeFlag_done (v : Bool) : (s.writeFlag v).done = s.done := rfl
@[simp] theorem State.writeFlag_ovr (v : Bool) : (s.writeFlag v).ovr = s.ovr := rfl
@[simp] theorem State.writeFlag_flag (v : Bool) : (s.writeFlag v).flag = v := rfl
@[simp] theorem State.writeFlag_code (v : Bool) : (s.writeFlag v).code = s.code := rfl
@[simp] theorem State.writeFlag_fregs (v : Bool) : (s.writeFlag v).fregs = s.fregs := rfl
@[simp] theorem State.writeFlag_pregs (v : Bool) : (s.writeFlag v).pregs = s.pregs := rfl
@[simp] theorem State.writeFlag_schedule (v : Bool) : (s.writeFlag v).schedule = s.schedule := rfl
@[simp] theorem State.writeFlag_lastRead (v : Bool) : (s.writeFlag v).lastRead = s.lastRead := rfl
@[simp] theorem State.writeFlag_fCell (v : Bool) (k : FReg) : (s.writeFlag v).fCell k = s.fCell k := rfl
@[simp] theorem State.writeFlag_pCell (v : Bool) (k : PReg) : (s.writeFlag v).pCell k = s.pCell k := rfl
@[simp] theorem State.writeFlag_busy (v : Bool) : (s.writeFlag v).busy = s.busy := rfl

/-! ### State.accept -/

@[simp] theorem State.accept_mem (w : Word) : (s.accept w).mem = s.mem := rfl
@[simp] theorem State.accept_inlen (w : Word) : (s.accept w).inlen = s.inlen := rfl
@[simp] theorem State.accept_cmd (w : Word) : (s.accept w).cmd = w := rfl
@[simp] theorem State.accept_inflight (w : Word) : (s.accept w).inflight = some w := rfl
@[simp] theorem State.accept_done (w : Word) : (s.accept w).done = false := rfl
@[simp] theorem State.accept_ovr (w : Word) : (s.accept w).ovr = false := rfl
@[simp] theorem State.accept_flag (w : Word) : (s.accept w).flag = s.flag := rfl
@[simp] theorem State.accept_code (w : Word) : (s.accept w).code = .ok := rfl
@[simp] theorem State.accept_fregs (w : Word) : (s.accept w).fregs = s.fregs := rfl
@[simp] theorem State.accept_pregs (w : Word) : (s.accept w).pregs = s.pregs := rfl
@[simp] theorem State.accept_schedule (w : Word) : (s.accept w).schedule = s.schedule := rfl
@[simp] theorem State.accept_lastRead (w : Word) : (s.accept w).lastRead = s.lastRead := rfl
@[simp] theorem State.accept_fCell (w : Word) (k : FReg) : (s.accept w).fCell k = s.fCell k := rfl
@[simp] theorem State.accept_pCell (w : Word) (k : PReg) : (s.accept w).pCell k = s.pCell k := rfl

/-! ### State.overrun -/

@[simp] theorem State.overrun_mem : s.overrun.mem = s.mem := rfl
@[simp] theorem State.overrun_inlen : s.overrun.inlen = s.inlen := rfl
@[simp] theorem State.overrun_cmd : s.overrun.cmd = s.cmd := rfl
@[simp] theorem State.overrun_inflight : s.overrun.inflight = s.inflight := rfl
@[simp] theorem State.overrun_done : s.overrun.done = s.done := rfl
@[simp] theorem State.overrun_ovr : s.overrun.ovr = true := rfl
@[simp] theorem State.overrun_flag : s.overrun.flag = s.flag := rfl
@[simp] theorem State.overrun_code : s.overrun.code = s.code := rfl
@[simp] theorem State.overrun_fregs : s.overrun.fregs = s.fregs := rfl
@[simp] theorem State.overrun_pregs : s.overrun.pregs = s.pregs := rfl
@[simp] theorem State.overrun_schedule : s.overrun.schedule = s.schedule := rfl
@[simp] theorem State.overrun_lastRead : s.overrun.lastRead = s.lastRead := rfl
@[simp] theorem State.overrun_fCell (k : FReg) : s.overrun.fCell k = s.fCell k := rfl
@[simp] theorem State.overrun_pCell (k : PReg) : s.overrun.pCell k = s.pCell k := rfl
@[simp] theorem State.overrun_busy : s.overrun.busy = s.busy := rfl

/-! ### State.complete -/

@[simp] theorem State.complete_mem (c : StatusCode) : (s.complete c).mem = s.mem := rfl
@[simp] theorem State.complete_inlen (c : StatusCode) : (s.complete c).inlen = s.inlen := rfl
@[simp] theorem State.complete_cmd (c : StatusCode) : (s.complete c).cmd = s.cmd := rfl
@[simp] theorem State.complete_inflight (c : StatusCode) : (s.complete c).inflight = none := rfl
@[simp] theorem State.complete_done (c : StatusCode) : (s.complete c).done = true := rfl
@[simp] theorem State.complete_ovr (c : StatusCode) : (s.complete c).ovr = s.ovr := rfl
@[simp] theorem State.complete_flag (c : StatusCode) : (s.complete c).flag = s.flag := rfl
@[simp] theorem State.complete_code (c : StatusCode) : (s.complete c).code = c := rfl
@[simp] theorem State.complete_fregs (c : StatusCode) : (s.complete c).fregs = s.fregs := rfl
@[simp] theorem State.complete_pregs (c : StatusCode) : (s.complete c).pregs = s.pregs := rfl
@[simp] theorem State.complete_schedule (c : StatusCode) : (s.complete c).schedule = s.schedule := rfl
@[simp] theorem State.complete_lastRead (c : StatusCode) : (s.complete c).lastRead = s.lastRead := rfl
@[simp] theorem State.complete_fCell (c : StatusCode) (k : FReg) : (s.complete c).fCell k = s.fCell k := rfl
@[simp] theorem State.complete_pCell (c : StatusCode) (k : PReg) : (s.complete c).pCell k = s.pCell k := rfl

/-! ### State.raiseError -/

@[simp] theorem State.raiseError_mem (e : ErrorKind) : (s.raiseError e).mem = s.mem := rfl
@[simp] theorem State.raiseError_inlen (e : ErrorKind) : (s.raiseError e).inlen = s.inlen := rfl
@[simp] theorem State.raiseError_cmd (e : ErrorKind) : (s.raiseError e).cmd = s.cmd := rfl
@[simp] theorem State.raiseError_inflight (e : ErrorKind) : (s.raiseError e).inflight = none := rfl
@[simp] theorem State.raiseError_done (e : ErrorKind) : (s.raiseError e).done = true := rfl
@[simp] theorem State.raiseError_ovr (e : ErrorKind) : (s.raiseError e).ovr = s.ovr := rfl
@[simp] theorem State.raiseError_flag (e : ErrorKind) : (s.raiseError e).flag = s.flag := rfl
@[simp] theorem State.raiseError_code (e : ErrorKind) : (s.raiseError e).code = .error e := rfl
@[simp] theorem State.raiseError_fregs (e : ErrorKind) : (s.raiseError e).fregs = s.fregs := rfl
@[simp] theorem State.raiseError_pregs (e : ErrorKind) : (s.raiseError e).pregs = s.pregs := rfl
@[simp] theorem State.raiseError_schedule (e : ErrorKind) : (s.raiseError e).schedule = s.schedule := rfl
@[simp] theorem State.raiseError_lastRead (e : ErrorKind) : (s.raiseError e).lastRead = s.lastRead := rfl
@[simp] theorem State.raiseError_fCell (e : ErrorKind) (k : FReg) : (s.raiseError e).fCell k = s.fCell k := rfl
@[simp] theorem State.raiseError_pCell (e : ErrorKind) (k : PReg) : (s.raiseError e).pCell k = s.pCell k := rfl

/-! ### State.resetEvent -/

@[simp] theorem State.resetEvent_mem : s.resetEvent.mem = [] := rfl
@[simp] theorem State.resetEvent_inlen : s.resetEvent.inlen = 0 := rfl
@[simp] theorem State.resetEvent_cmd : s.resetEvent.cmd = 0 := rfl
@[simp] theorem State.resetEvent_inflight : s.resetEvent.inflight = none := rfl
@[simp] theorem State.resetEvent_done : s.resetEvent.done = false := rfl
@[simp] theorem State.resetEvent_ovr : s.resetEvent.ovr = false := rfl
@[simp] theorem State.resetEvent_flag : s.resetEvent.flag = false := rfl
@[simp] theorem State.resetEvent_code : s.resetEvent.code = .ok := rfl
@[simp] theorem State.resetEvent_fregs : s.resetEvent.fregs = Vector.replicate 16 .invalid := rfl
@[simp] theorem State.resetEvent_pregs : s.resetEvent.pregs = Vector.replicate 4 .invalid := rfl
@[simp] theorem State.resetEvent_schedule : s.resetEvent.schedule = s.schedule := rfl
@[simp] theorem State.resetEvent_lastRead : s.resetEvent.lastRead = none := rfl

/-! ### Cells and BUSY -/

@[simp] theorem State.writeF_fCell (r k : FReg) (v : Fp) :
    (s.writeF r v).fCell k = if k = r then .valid v else s.fCell k := by
  simp only [State.fCell, State.writeF, Fin.getElem_fin, Vector.getElem_set, Fin.val_inj, eq_comm]

@[simp] theorem State.writeP_pCell (r k : PReg) (v : Point) :
    (s.writeP r v).pCell k = if k = r then .valid v else s.pCell k := by
  simp only [State.pCell, State.writeP, Fin.getElem_fin, Vector.getElem_set, Fin.val_inj, eq_comm]

@[simp] theorem State.accept_busy (w : Word) : (s.accept w).busy = true := rfl
@[simp] theorem State.complete_busy (c : StatusCode) : (s.complete c).busy = false := rfl
@[simp] theorem State.raiseError_busy (e : ErrorKind) : (s.raiseError e).busy = false := rfl
@[simp] theorem State.resetEvent_busy : s.resetEvent.busy = false := rfl

@[simp] theorem State.resetEvent_fCell (k : FReg) : s.resetEvent.fCell k = .invalid := by
  simp [State.fCell]

@[simp] theorem State.resetEvent_pCell (k : PReg) : s.resetEvent.pCell k = .invalid := by
  simp [State.pCell]

theorem State.reset_fCell (k : FReg) : State.reset.fCell k = .invalid := by
  simp [State.fCell, State.reset]

theorem State.reset_pCell (k : PReg) : State.reset.pCell k = .invalid := by
  simp [State.pCell, State.reset]

/-- BUSY is 1 exactly when a word is in flight. -/
theorem State.busy_iff : s.busy = true ↔ ∃ w, s.inflight = some w := by
  simp [State.busy, Option.isSome_iff_exists]

/-- Two states with equal register cells have equal F registers. -/
theorem State.fregs_ext {s t : State} (h : ∀ k, s.fCell k = t.fCell k) : s.fregs = t.fregs :=
  Vector.ext fun i hi => h ⟨i, hi⟩

/-- Two states with equal register cells have equal P registers. -/
theorem State.pregs_ext {s t : State} (h : ∀ k, s.pCell k = t.pCell k) : s.pregs = t.pregs :=
  Vector.ext fun i hi => h ⟨i, hi⟩

end Sys2Proof.Machine
end

