-- ==== Sys2Proof/Laws/Ops.lean ====
section
/-! SUPPORT. One lemma per shared operation that says all it can answer: the completion of a command's rule (spec/10_state.md
R44), the reads of registers (spec/00_scope.md R13), the checks, and the buffers. -/

namespace Sys2Proof.Machine

variable (s : State)

/-! ### Completion -/

@[simp] theorem State.finish_ok (t : State) : s.finish (.ok t) = .next (t.complete .ok) := rfl

@[simp] theorem State.finish_raised (e : ErrorKind) :
    s.finish (.error (.raised e)) = .next (s.raiseError e) := rfl

@[simp] theorem State.finish_halt (f : Fault) : s.finish (.error (.halt f)) = .fault f := rfl

/-- A command's rule that completes ended with success, its writes applied, or with an error and nothing written. -/
theorem State.finish_next {s t : State} {r : Except Exit State} (h : s.finish r = .next t) :
    (∃ u, r = .ok u ∧ t = u.complete .ok) ∨ (∃ e, r = .error (.raised e) ∧ t = s.raiseError e) := by
  rcases r with (e | f) | u
  · cases h; exact .inr ⟨e, rfl, rfl⟩
  · cases h
  · cases h; exact .inl ⟨u, rfl, rfl⟩

/-- A command faults only where its rule halts. -/
theorem State.finish_fault {s : State} {r : Except Exit State} {f : Fault} (h : s.finish r = .fault f) :
    r = .error (.halt f) := by
  rcases r with (e | g) | u <;> cases h
  rfl

/-- No command is refused. -/
theorem State.finish_not_refused (r : Except Exit State) (x : Refusal) : s.finish r ≠ .refused x := by
  rcases r with (e | g) | u <;> exact fun h => by cases h

/-! ### Sequencing -/

@[simp] theorem ok_bind {α β : Type} (a : α) (k : α → Except Exit β) : (Except.ok a >>= k) = k a := rfl

@[simp] theorem error_bind {α β : Type} (e : Exit) (k : α → Except Exit β) :
    ((Except.error e : Except Exit α) >>= k) = .error e := rfl

@[simp] theorem pure_eq_ok {α : Type} (a : α) : (pure a : Except Exit α) = .ok a := rfl

@[simp] theorem raise_eq {α : Type} (e : ErrorKind) : (raise e : Except Exit α) = .error (.raised e) := rfl

@[simp] theorem halt_eq {α : Type} (f : Fault) : (halt f : Except Exit α) = .error (.halt f) := rfl

/-- A sequence that succeeds does so through a value of its first part. -/
theorem bind_eq_ok {α β : Type} {x : Except Exit α} {k : α → Except Exit β} {b : β} (h : (x >>= k) = .ok b) :
    ∃ a, x = .ok a ∧ k a = .ok b := by
  cases x with
  | error e => cases h
  | ok a => exact ⟨a, rfl, h⟩

/-- A sequence that ends early does so in its first part or in what follows it. -/
theorem bind_eq_error {α β : Type} {x : Except Exit α} {k : α → Except Exit β} {e : Exit} (h : (x >>= k) = .error e) :
    x = .error e ∨ ∃ a, x = .ok a ∧ k a = .error e := by
  cases x with
  | error e' => cases h; exact .inl rfl
  | ok a => exact .inr ⟨a, rfl, h⟩

@[simp] theorem require_true (e : ErrorKind) : require true e = .ok () := rfl

@[simp] theorem require_false (e : ErrorKind) : require false e = .error (.raised e) := rfl

/-! ### Register reads -/

/-- All that reading a register cell can answer (R13, R34). -/
theorem Cell.get_cases {α : Type} (c : Cell α) :
    (∃ v, c = .valid v ∧ c.get = .ok v) ∨ (c = .invalid ∧ c.get = .error (.raised .uninitRegister)) := by
  cases c with
  | invalid => exact .inr ⟨rfl, rfl⟩
  | valid v => exact .inl ⟨v, rfl, rfl⟩

theorem State.readF_valid {s : State} {r : FReg} {v : Fp} (h : s.fCell r = .valid v) : s.readF r = .ok v := by
  rw [State.readF, h]; rfl

theorem State.readF_invalid {s : State} {r : FReg} (h : s.fCell r = .invalid) :
    s.readF r = .error (.raised .uninitRegister) := by
  rw [State.readF, h]; rfl

theorem State.readP_valid {s : State} {r : PReg} {q : Point} (h : s.pCell r = .valid q) : s.readP r = .ok q := by
  rw [State.readP, h]; rfl

theorem State.readP_invalid {s : State} {r : PReg} (h : s.pCell r = .invalid) :
    s.readP r = .error (.raised .uninitRegister) := by
  rw [State.readP, h]; rfl

theorem State.readF_eq_ok {s : State} {r : FReg} {v : Fp} : s.readF r = .ok v ↔ s.fCell r = .valid v := by
  rcases h : s.fCell r with _ | u
  · simp [State.readF_invalid h]
  · simp [State.readF_valid h]

theorem State.readP_eq_ok {s : State} {r : PReg} {q : Point} : s.readP r = .ok q ↔ s.pCell r = .valid q := by
  rcases h : s.pCell r with _ | u
  · simp [State.readP_invalid h]
  · simp [State.readP_valid h]

theorem State.readF_eq_error {s : State} {r : FReg} {e : Exit} (h : s.readF r = .error e) :
    s.fCell r = .invalid ∧ e = .raised .uninitRegister := by
  rcases Cell.get_cases (s.fCell r) with ⟨v, -, g⟩ | ⟨hc, g⟩
  · exact absurd (h.symm.trans g) (by simp)
  · exact ⟨hc, by simpa using h.symm.trans g⟩

theorem State.readP_eq_error {s : State} {r : PReg} {e : Exit} (h : s.readP r = .error e) :
    s.pCell r = .invalid ∧ e = .raised .uninitRegister := by
  rcases Cell.get_cases (s.pCell r) with ⟨v, -, g⟩ | ⟨hc, g⟩
  · exact absurd (h.symm.trans g) (by simp)
  · exact ⟨hc, by simpa using h.symm.trans g⟩

theorem State.readPairF_valid {s : State} {r1 r2 : FReg} {a c : Fp} (h1 : s.fCell r1 = .valid a)
    (h2 : s.fCell r2 = .valid c) : s.readPairF r1 r2 = .ok (a, c) := by
  rw [State.readPairF, State.readF_valid h1, State.readF_valid h2]; rfl

theorem State.readPairF_invalid {s : State} {r1 r2 : FReg} (h : s.fCell r1 = .invalid ∨ s.fCell r2 = .invalid) :
    s.readPairF r1 r2 = .error (.raised .uninitRegister) := by
  rcases h1 : s.fCell r1 with _ | a
  · rw [State.readPairF, State.readF_invalid h1]; rfl
  · have h2 := h.resolve_left (by simp [h1])
    rw [State.readPairF, State.readF_valid h1, State.readF_invalid h2]; rfl

/-- All that reading two F sources can answer. -/
theorem State.readPairF_cases (r1 r2 : FReg) :
    (∃ a c, s.fCell r1 = .valid a ∧ s.fCell r2 = .valid c ∧ s.readPairF r1 r2 = .ok (a, c)) ∨
      ((s.fCell r1 = .invalid ∨ s.fCell r2 = .invalid) ∧
        s.readPairF r1 r2 = .error (.raised .uninitRegister)) := by
  rcases h1 : s.fCell r1 with _ | a
  · exact .inr ⟨.inl rfl, State.readPairF_invalid (.inl h1)⟩
  · rcases h2 : s.fCell r2 with _ | c
    · exact .inr ⟨.inr rfl, State.readPairF_invalid (.inr h2)⟩
    · exact .inl ⟨a, c, rfl, rfl, State.readPairF_valid h1 h2⟩

/-- All that a three-operand field command can do. -/
theorem State.binaryF_cases (op : Fp → Fp → Fp) (rd rs1 rs2 : FReg) :
    (∃ a c, s.fCell rs1 = .valid a ∧ s.fCell rs2 = .valid c ∧
        s.binaryF op rd rs1 rs2 = .next ((s.writeF rd (op a c)).complete .ok)) ∨
      ((s.fCell rs1 = .invalid ∨ s.fCell rs2 = .invalid) ∧
        s.binaryF op rd rs1 rs2 = .next (s.raiseError .uninitRegister)) := by
  rcases s.readPairF_cases rs1 rs2 with ⟨a, c, h1, h2, e⟩ | ⟨h, e⟩
  · exact .inl ⟨a, c, h1, h2, by rw [State.binaryF, e]; rfl⟩
  · exact .inr ⟨h, by rw [State.binaryF, e]; rfl⟩

/-! ### Buffers -/

@[simp] theorem State.length_memRead (off n : Nat) : (s.memRead off n).length = n := by simp [State.memRead]

/-- Bytes of OUT that a command stores. -/
theorem State.memWrite_read (off k : Nat) (bytes : List Byte) :
    Memory.read (s.memWrite off bytes).mem k =
      if h : 0x80 + off ≤ k ∧ k < 0x80 + off + bytes.length then
        bytes[k - (0x80 + off)]'(by omega)
      else Memory.read s.mem k :=
  Memory.read_writeBytes s.mem _ k bytes

/-- A command's store leaves IN as it was. -/
@[simp] theorem State.memWrite_inByte (off i : Nat) (bytes : List Byte) (h : i < Config.inBytes) :
    (s.memWrite off bytes).inByte i = s.inByte i :=
  Memory.read_writeBytes_outside _ _ _ _ (.inl (by rw [show Config.inBytes = 128 from rfl] at h; omega))

end Sys2Proof.Machine
end

