-- ==== Sys2Proof/Laws/Exec.lean ====
section
/-! SUPPORT. What a command can do, said once: `Effect i s u` is what the rule of command i writes on success (spec/40_field.md
to spec/43_add.md), and `exec_next` says that a completed command applied exactly that, or reported an error and wrote
nothing (spec/10_state.md R44, spec/60_exceptions.md R231). -/

namespace Sys2Proof.Machine

/-- The writes of a successful command, before the status update of completion. -/
def Effect : Instr → State → State → Prop
  | .fadd rd rs1 rs2, s, u =>
    ∃ a c, s.fCell rs1 = .valid a ∧ s.fCell rs2 = .valid c ∧ u = s.writeF rd (fadd a c)
  | .fsub rd rs1 rs2, s, u =>
    ∃ a c, s.fCell rs1 = .valid a ∧ s.fCell rs2 = .valid c ∧ u = s.writeF rd (fsub a c)
  | .fmul rd rs1 rs2, s, u =>
    ∃ a c, s.fCell rs1 = .valid a ∧ s.fCell rs2 = .valid c ∧ u = s.writeF rd (fmul a c)
  | .finv rd rs, s, u => ∃ a, s.fCell rs = .valid a ∧ a ≠ fzero ∧ u = s.writeF rd (finv a)
  | .fld rd slot, s, u =>
    ∃ v, decodeElem (s.memRead (elemOffset slot) 32) = .ok v ∧ u = s.writeF rd v
  | .fst rs slot, s, u => ∃ v, s.fCell rs = .valid v ∧ u = s.memWrite (elemOffset slot) (toBE32 v)
  | .pchk rs1 rs2, s, u =>
    ∃ x y, s.fCell rs1 = .valid x ∧ s.fCell rs2 = .valid y ∧ u = s.writeFlag (onCurve x y)
  | .pdec pd rs1 rs2, s, u =>
    ∃ x y q, s.fCell rs1 = .valid x ∧ s.fCell rs2 = .valid y ∧ pointDecode x y = .ok q ∧ u = s.writeP pd q
  | .padd pd ps1 ps2, s, u =>
    ∃ p1 p2 q, s.pCell ps1 = .valid p1 ∧ s.pCell ps2 = .valid p2 ∧ pointAdd p1 p2 = .ok q ∧ u = s.writeP pd q
  | .penc rd ps, s, u =>
    ∃ q, FReg.even rd = true ∧ s.pCell ps = .valid q ∧
      u = (s.writeF rd (pointEncode q).1).writeF (pairSecond rd) (pointEncode q).2
  | .pld pd slot, s, u => ∃ q, decodePoint (s.memRead (pointOffset slot) 64) = .ok q ∧ u = s.writeP pd q
  | .pst ps, s, u => ∃ q, s.pCell ps = .valid q ∧ u = s.memWrite 0 (encodePoint q)
  | .add, s, u =>
    ∃ a b c, s.inlen = 128 ∧ decodePoint (s.memRead 0 64) = .ok a ∧ decodePoint (s.memRead 64 64) = .ok b ∧
      pointAdd a b = .ok c ∧ u = s.memWrite 0 (encodePoint c)

theorem require_eq_ok {ok : Bool} {e : ErrorKind} {u : Unit} (h : require ok e = .ok u) : ok = true := by
  cases ok with
  | true => rfl
  | false => cases h

/-- A completed command: its writes and code 0, or a code other than 0 and nothing written. -/
def Completed (i : Instr) (s t : State) : Prop :=
  (∃ u, Effect i s u ∧ t = u.complete .ok) ∨ (∃ e, t = s.raiseError e)

theorem execFadd_next {rd : FReg} {rs1 : FReg} {rs2 : FReg} {s t : State} (h : execFadd rd rs1 rs2 s = .next t) :
    Completed (.fadd rd rs1 rs2) s t := by
  rcases s.binaryF_cases fadd rd rs1 rs2 with ⟨a, c, h1, h2, e⟩ | ⟨-, e⟩ <;> cases e.symm.trans h
  · exact .inl ⟨_, ⟨a, c, h1, h2, rfl⟩, rfl⟩
  · exact .inr ⟨_, rfl⟩

theorem execFsub_next {rd : FReg} {rs1 : FReg} {rs2 : FReg} {s t : State} (h : execFsub rd rs1 rs2 s = .next t) :
    Completed (.fsub rd rs1 rs2) s t := by
  rcases s.binaryF_cases fsub rd rs1 rs2 with ⟨a, c, h1, h2, e⟩ | ⟨-, e⟩ <;> cases e.symm.trans h
  · exact .inl ⟨_, ⟨a, c, h1, h2, rfl⟩, rfl⟩
  · exact .inr ⟨_, rfl⟩

theorem execFmul_next {rd : FReg} {rs1 : FReg} {rs2 : FReg} {s t : State} (h : execFmul rd rs1 rs2 s = .next t) :
    Completed (.fmul rd rs1 rs2) s t := by
  rcases s.binaryF_cases fmul rd rs1 rs2 with ⟨a, c, h1, h2, e⟩ | ⟨-, e⟩ <;> cases e.symm.trans h
  · exact .inl ⟨_, ⟨a, c, h1, h2, rfl⟩, rfl⟩
  · exact .inr ⟨_, rfl⟩

theorem execFinv_next {rd : FReg} {rs : FReg} {s t : State} (h : execFinv rd rs s = .next t) :
    Completed (.finv rd rs) s t := by
  rcases State.finish_next h with ⟨u, hr, rfl⟩ | ⟨e, -, rfl⟩
  · obtain ⟨a, ha, hr⟩ := bind_eq_ok hr
    obtain ⟨_, hz, hr⟩ := bind_eq_ok hr
    cases hr
    exact .inl ⟨_, ⟨a, State.readF_eq_ok.1 ha, bne_iff_ne.1 (require_eq_ok hz), rfl⟩, rfl⟩
  · exact .inr ⟨e, rfl⟩

theorem execFld_next {rd : FReg} {slot : Fin 4} {s t : State} (h : execFld rd slot s = .next t) :
    Completed (.fld rd slot) s t := by
  rcases State.finish_next h with ⟨u, hr, rfl⟩ | ⟨e, -, rfl⟩
  · obtain ⟨v, hv, hr⟩ := bind_eq_ok hr
    cases hr
    exact .inl ⟨_, ⟨v, hv, rfl⟩, rfl⟩
  · exact .inr ⟨e, rfl⟩

theorem execFst_next {rs : FReg} {slot : Fin 2} {s t : State} (h : execFst rs slot s = .next t) :
    Completed (.fst rs slot) s t := by
  rcases State.finish_next h with ⟨u, hr, rfl⟩ | ⟨e, -, rfl⟩
  · obtain ⟨v, hv, hr⟩ := bind_eq_ok hr
    cases hr
    exact .inl ⟨_, ⟨v, State.readF_eq_ok.1 hv, rfl⟩, rfl⟩
  · exact .inr ⟨e, rfl⟩

theorem execPchk_next {rs1 : FReg} {rs2 : FReg} {s t : State} (h : execPchk rs1 rs2 s = .next t) :
    Completed (.pchk rs1 rs2) s t := by
  rcases State.finish_next h with ⟨u, hr, rfl⟩ | ⟨e, -, rfl⟩
  · obtain ⟨⟨x, y⟩, hxy, hr⟩ := bind_eq_ok hr
    cases hr
    rcases s.readPairF_cases rs1 rs2 with ⟨a, c, h1, h2, e⟩ | ⟨-, e⟩ <;> cases e.symm.trans hxy
    exact .inl ⟨_, ⟨x, y, h1, h2, rfl⟩, rfl⟩
  · exact .inr ⟨e, rfl⟩

theorem execPdec_next {pd : PReg} {rs1 : FReg} {rs2 : FReg} {s t : State} (h : execPdec pd rs1 rs2 s = .next t) :
    Completed (.pdec pd rs1 rs2) s t := by
  rcases State.finish_next h with ⟨u, hr, rfl⟩ | ⟨e, -, rfl⟩
  · obtain ⟨⟨x, y⟩, hxy, hr⟩ := bind_eq_ok hr
    obtain ⟨q, hq, hr⟩ := bind_eq_ok hr
    cases hr
    rcases s.readPairF_cases rs1 rs2 with ⟨a, c, h1, h2, e⟩ | ⟨-, e⟩ <;> cases e.symm.trans hxy
    exact .inl ⟨_, ⟨x, y, q, h1, h2, hq, rfl⟩, rfl⟩
  · exact .inr ⟨e, rfl⟩

theorem execPadd_next {pd : PReg} {ps1 : PReg} {ps2 : PReg} {s t : State} (h : execPadd pd ps1 ps2 s = .next t) :
    Completed (.padd pd ps1 ps2) s t := by
  rcases State.finish_next h with ⟨u, hr, rfl⟩ | ⟨e, -, rfl⟩
  · obtain ⟨p1, h1, hr⟩ := bind_eq_ok hr
    obtain ⟨p2, h2, hr⟩ := bind_eq_ok hr
    obtain ⟨q, hq, hr⟩ := bind_eq_ok hr
    cases hr
    exact .inl ⟨_, ⟨p1, p2, q, State.readP_eq_ok.1 h1, State.readP_eq_ok.1 h2, hq, rfl⟩, rfl⟩
  · exact .inr ⟨e, rfl⟩

theorem execPenc_next {rd : FReg} {ps : PReg} {s t : State} (h : execPenc rd ps s = .next t) :
    Completed (.penc rd ps) s t := by
  rcases State.finish_next h with ⟨u, hr, rfl⟩ | ⟨e, -, rfl⟩
  · obtain ⟨_, he, hr⟩ := bind_eq_ok hr
    obtain ⟨q, hq, hr⟩ := bind_eq_ok hr
    cases hr
    exact .inl ⟨_, ⟨q, require_eq_ok he, State.readP_eq_ok.1 hq, rfl⟩, rfl⟩
  · exact .inr ⟨e, rfl⟩

theorem execPld_next {pd : PReg} {slot : Fin 2} {s t : State} (h : execPld pd slot s = .next t) :
    Completed (.pld pd slot) s t := by
  rcases State.finish_next h with ⟨u, hr, rfl⟩ | ⟨e, -, rfl⟩
  · obtain ⟨q, hq, hr⟩ := bind_eq_ok hr
    cases hr
    exact .inl ⟨_, ⟨q, hq, rfl⟩, rfl⟩
  · exact .inr ⟨e, rfl⟩

theorem execPst_next {ps : PReg} {s t : State} (h : execPst ps s = .next t) :
    Completed (.pst ps) s t := by
  rcases State.finish_next h with ⟨u, hr, rfl⟩ | ⟨e, -, rfl⟩
  · obtain ⟨q, hq, hr⟩ := bind_eq_ok hr
    cases hr
    exact .inl ⟨_, ⟨q, State.readP_eq_ok.1 hq, rfl⟩, rfl⟩
  · exact .inr ⟨e, rfl⟩

theorem execAdd_next {s t : State} (h : execAdd s = .next t) :
    Completed (.add) s t := by
  rcases State.finish_next h with ⟨u, hr, rfl⟩ | ⟨e, -, rfl⟩
  · obtain ⟨_, hl, hr⟩ := bind_eq_ok hr
    obtain ⟨a, ha, hr⟩ := bind_eq_ok hr
    obtain ⟨b, hb, hr⟩ := bind_eq_ok hr
    obtain ⟨c, hc, hr⟩ := bind_eq_ok hr
    cases hr
    exact .inl ⟨_, ⟨a, b, c, eq_of_beq (require_eq_ok hl), ha, hb, hc, rfl⟩, rfl⟩
  · exact .inr ⟨e, rfl⟩

/-- Every command that completes does so as `Completed` says. -/
theorem exec_next {i : Instr} {s t : State} (h : exec i s = .next t) : Completed i s t := by
  cases i with
  | fadd _ _ _ => exact execFadd_next h
  | fsub _ _ _ => exact execFsub_next h
  | fmul _ _ _ => exact execFmul_next h
  | finv _ _ => exact execFinv_next h
  | fld _ _ => exact execFld_next h
  | fst _ _ => exact execFst_next h
  | pchk _ _ => exact execPchk_next h
  | pdec _ _ _ => exact execPdec_next h
  | padd _ _ _ => exact execPadd_next h
  | penc _ _ => exact execPenc_next h
  | pld _ _ => exact execPld_next h
  | pst _ => exact execPst_next h
  | add => exact execAdd_next h

/-- What every command's writes leave alone (R33, R35, R37, R40, R45). -/
theorem Effect.control {i : Instr} {s u : State} (h : Effect i s u) :
    u.inlen = s.inlen ∧ u.cmd = s.cmd ∧ u.ovr = s.ovr ∧ u.schedule = s.schedule ∧ u.lastRead = s.lastRead := by
  cases i with
  | fadd => obtain ⟨a, c, -, -, rfl⟩ := h; exact ⟨rfl, rfl, rfl, rfl, rfl⟩
  | fsub => obtain ⟨a, c, -, -, rfl⟩ := h; exact ⟨rfl, rfl, rfl, rfl, rfl⟩
  | fmul => obtain ⟨a, c, -, -, rfl⟩ := h; exact ⟨rfl, rfl, rfl, rfl, rfl⟩
  | finv => obtain ⟨a, -, -, rfl⟩ := h; exact ⟨rfl, rfl, rfl, rfl, rfl⟩
  | fld => obtain ⟨v, -, rfl⟩ := h; exact ⟨rfl, rfl, rfl, rfl, rfl⟩
  | fst => obtain ⟨v, -, rfl⟩ := h; exact ⟨rfl, rfl, rfl, rfl, rfl⟩
  | pchk => obtain ⟨x, y, -, -, rfl⟩ := h; exact ⟨rfl, rfl, rfl, rfl, rfl⟩
  | pdec => obtain ⟨x, y, q, -, -, -, rfl⟩ := h; exact ⟨rfl, rfl, rfl, rfl, rfl⟩
  | padd => obtain ⟨p1, p2, q, -, -, -, rfl⟩ := h; exact ⟨rfl, rfl, rfl, rfl, rfl⟩
  | penc => obtain ⟨q, -, -, rfl⟩ := h; exact ⟨rfl, rfl, rfl, rfl, rfl⟩
  | pld => obtain ⟨q, -, rfl⟩ := h; exact ⟨rfl, rfl, rfl, rfl, rfl⟩
  | pst => obtain ⟨q, -, rfl⟩ := h; exact ⟨rfl, rfl, rfl, rfl, rfl⟩
  | add => obtain ⟨a, b, c, -, -, -, -, rfl⟩ := h; exact ⟨rfl, rfl, rfl, rfl, rfl⟩

theorem Effect.inByte_memWrite {s : State} {off k : Nat} {bytes : List Byte} (hk : k < 128) :
    (s.memWrite off bytes).inByte k = s.inByte k :=
  s.memWrite_inByte off k bytes hk

/-- No command writes IN (R13, R70). -/
theorem Effect.inByte {i : Instr} {s u : State} (h : Effect i s u) {k : Nat} (hk : k < 128) :
    u.inByte k = s.inByte k := by
  cases i with
  | fadd => obtain ⟨a, c, -, -, rfl⟩ := h; rfl
  | fsub => obtain ⟨a, c, -, -, rfl⟩ := h; rfl
  | fmul => obtain ⟨a, c, -, -, rfl⟩ := h; rfl
  | finv => obtain ⟨a, -, -, rfl⟩ := h; rfl
  | fld => obtain ⟨v, -, rfl⟩ := h; rfl
  | fst => obtain ⟨v, -, rfl⟩ := h; exact Effect.inByte_memWrite hk
  | pchk => obtain ⟨x, y, -, -, rfl⟩ := h; rfl
  | pdec => obtain ⟨x, y, q, -, -, -, rfl⟩ := h; rfl
  | padd => obtain ⟨p1, p2, q, -, -, -, rfl⟩ := h; rfl
  | penc => obtain ⟨q, -, -, rfl⟩ := h; rfl
  | pld => obtain ⟨q, -, rfl⟩ := h; rfl
  | pst => obtain ⟨q, -, rfl⟩ := h; exact Effect.inByte_memWrite hk
  | add => obtain ⟨a, b, c, -, -, -, -, rfl⟩ := h; exact Effect.inByte_memWrite hk

end Sys2Proof.Machine
end

