-- ==== Sys2Proof/Laws/Port.lean ====
section
/-! SUPPORT. What a host access and a step can do, said once (spec/20_memory.md R70 to R74, spec/10_state.md R38 to R45). -/

namespace Sys2Proof.Machine

variable (s : State)

/-! ### The window -/

theorem offsetOf_base {off : Nat} (h : off < 256) : offsetOf (Config.base + off) = some off := by
  rw [offsetOf, if_pos (by omega)]
  congr 1
  omega

theorem offsetOf_outside {a : Nat} (h : a < Config.base ∨ Config.base + 256 ≤ a) : offsetOf a = none := by
  rw [offsetOf, if_neg (by omega)]

theorem offsetOf_eq_some {a off : Nat} (h : offsetOf a = some off) : off < 256 ∧ a = Config.base + off := by
  unfold offsetOf at h
  split at h <;> cases h
  omega

/-- The accesses the port takes (R72, R74). -/
theorem portTakes_iff (off width : Nat) :
    portTakes off width = true ↔
      (width = 32 ∧ off % 4 = 0 ∧ off + 4 ≤ 256) ∨ (width = 8 ∧ (off < 0xC0 ∨ (0xD0 ≤ off ∧ off < 256))) := by
  unfold portTakes
  split_ifs <;> simp <;> omega

theorem regionOf_in {off : Nat} (h : off < 0x80) : regionOf off = .inBuf := if_pos h

theorem regionOf_reserved {off : Nat} (h : 0xD0 ≤ off) : regionOf off = .reserved := by
  unfold regionOf
  split_ifs <;> first | rfl | omega

/-- Writes of OUT, STATUS, REGVALID and reserved offsets change nothing (R71). -/
theorem State.portWrite_readOnly {off : Nat} (width : Nat) (data : Word)
    (h : (0x80 ≤ off ∧ off < 0xC0) ∨ (0xC4 ≤ off ∧ off < 0xC8) ∨ 0xCC ≤ off) : s.portWrite off width data = s := by
  unfold State.portWrite regionOf
  split_ifs <;> first | rfl | omega

/-- All that a write the port takes can be. -/
theorem State.portWrite_cases {off width : Nat} (data : Word) (h : portTakes off width = true) :
    (off < 0x80 ∧ s.portWrite off width data = s.writeIn off (writtenBytes width data)) ∨
      (width = 32 ∧ off = 0xC0 ∧ s.portWrite off width data = s.writeCmd data) ∨
      (width = 32 ∧ off = 0xC8 ∧ s.portWrite off width data = s.writeInlen data) ∨
      (((0x80 ≤ off ∧ off < 0xC0) ∨ off = 0xC4 ∨ off = 0xCC ∨ 0xD0 ≤ off) ∧ s.portWrite off width data = s) := by
  rw [portTakes_iff] at h
  by_cases h1 : off < 0x80
  · exact .inl ⟨h1, by rw [State.portWrite, regionOf_in h1]⟩
  by_cases h2 : off = 0xC0
  · subst h2; exact .inr (.inl ⟨by omega, rfl, rfl⟩)
  by_cases h3 : off = 0xC8
  · subst h3; exact .inr (.inr (.inl ⟨by omega, rfl, rfl⟩))
  · exact .inr (.inr (.inr ⟨by omega, s.portWrite_readOnly width data (by omega)⟩))

/-- Lane k of a 32-bit access is the byte at off + k (R73). -/
theorem State.lanes_byte (off k : Nat) (hk : k < 4) :
    (s.lanes off).extractLsb' (8 * k) 8 = s.windowByte (off + k) := by
  have hk' : k = 0 ∨ k = 1 ∨ k = 2 ∨ k = 3 := by omega
  unfold State.lanes
  rcases hk' with rfl | rfl | rfl | rfl <;> apply BitVec.eq_of_getLsbD_eq <;> intro i hi <;>
    simp only [BitVec.getLsbD_extractLsb', BitVec.getLsbD_append] <;>
    simp [hi, show ¬8 + i < 8 by omega, show ¬16 + i < 8 by omega, show ¬24 + i < 8 by omega,
      show ¬24 + i - 8 < 8 by omega, show ¬16 + i - 8 < 8 by omega, show ¬24 + i - 8 - 8 < 8 by omega,
      show 16 + i - 8 - 8 = i by omega, show 24 + i - 8 - 8 - 8 = i by omega]

theorem State.readAt_taken {off width : Nat} (h : portTakes off width = true) :
    s.readAt off width = .next { s with lastRead := some (s.portRead off width) } := if_pos h

theorem State.writeAt_taken {off width : Nat} (data : Word) (h : portTakes off width = true) :
    s.writeAt off width data = .next (s.portWrite off width data) := if_pos h

theorem State.readAt_next {s t : State} {off width : Nat} (h : s.readAt off width = .next t) :
    portTakes off width = true ∧ t = { s with lastRead := some (s.portRead off width) } := by
  unfold State.readAt at h
  split at h
  · cases h; exact ⟨by assumption, rfl⟩
  · cases h

theorem State.writeAt_next {s t : State} {off width : Nat} {data : Word} (h : s.writeAt off width data = .next t) :
    portTakes off width = true ∧ t = s.portWrite off width data := by
  unfold State.writeAt at h
  split at h
  · cases h; exact ⟨by assumption, rfl⟩
  · cases h

/-- All that a host access the port performs can do to the state: return a word, store bytes of IN, accept a command, store
INLEN, set OVR, or nothing. -/
inductive HostEffect (s : State) : State → Prop where
  | read (v : Word) : HostEffect s { s with lastRead := some v }
  | writeIn (off : Nat) (bytes : List Byte) (hoff : off + bytes.length ≤ 0x80) (hb : s.busy = false) :
      HostEffect s { s with mem := Memory.writeBytes s.mem off bytes }
  | accept (w : Word) (hb : s.busy = false) : HostEffect s (s.accept w)
  | inlen (w : Word) (hb : s.busy = false) : HostEffect s { s with inlen := w }
  | overrun (hb : s.busy = true) : HostEffect s s.overrun
  | none : HostEffect s s

theorem HostEffect.of_write {s : State} {off width : Nat} {data : Word} (h : portTakes off width = true) :
    HostEffect s (s.portWrite off width data) := by
  rcases s.portWrite_cases data h with ⟨h1, e⟩ | ⟨-, -, e⟩ | ⟨-, -, e⟩ | ⟨-, e⟩ <;> rw [e]
  · rw [State.writeIn]
    split
    · exact .overrun (by assumption)
    · refine .writeIn off _ ?_ (Bool.eq_false_iff.2 (by assumption))
      rw [portTakes_iff] at h
      rcases h with ⟨rfl, h4, -⟩ | ⟨rfl, -⟩
      · show off + 4 ≤ 0x80; omega
      · show off + 1 ≤ 0x80; omega
  · rw [State.writeCmd]
    split
    · exact .overrun (by assumption)
    · exact .accept _ (Bool.eq_false_iff.2 (by assumption))
  · rw [State.writeInlen]
    split
    · exact .overrun (by assumption)
    · exact .inlen _ (Bool.eq_false_iff.2 (by assumption))
  · exact .none

theorem State.hostAccess_next {s t : State} {a : Access} (h : s.hostAccess a = .next t) : HostEffect s t := by
  cases a with
  | read addr width =>
    simp only [State.hostAccess] at h
    split at h
    · obtain ⟨-, rfl⟩ := State.readAt_next h
      exact .read _
    · cases h; exact .none
  | write addr width data =>
    simp only [State.hostAccess] at h
    split at h
    · obtain ⟨hp, rfl⟩ := State.writeAt_next h
      exact .of_write hp
    · cases h; exact .none

/-! ### Steps -/

theorem step_nil {s : State} (h : s.schedule = []) : step s = s.engineTurn := by
  rw [step, State.oneStep, h]

theorem step_cons {s : State} {e : Event} {rest : List Event} (h : s.schedule = e :: rest) :
    step s = { s with schedule := rest }.takeEvent e := by
  rw [step, State.oneStep, h]

theorem State.engineTurn_idle {s : State} (h : s.inflight = none) : s.engineTurn = .next s := by
  rw [State.engineTurn, h]

theorem State.engineTurn_legal {s : State} {w : Word} {i : Instr} (h : s.inflight = some w) (hd : decode w = .ok i) :
    s.engineTurn = exec i s := by
  rw [State.engineTurn, h]
  simp only [hd]

theorem State.engineTurn_illegal {s : State} {w : Word} {e : Illegal} (h : s.inflight = some w)
    (hd : decode w = .error e) : s.engineTurn = .next (s.raiseError .illegalCommand) := by
  rw [State.engineTurn, h]
  simp only [hd]

/-- All that the engine's turn can be. -/
theorem State.engineTurn_cases (s : State) :
    (s.inflight = none ∧ s.engineTurn = .next s) ∨
      (∃ w i, s.inflight = some w ∧ decode w = .ok i ∧ s.engineTurn = exec i s) ∨
      (∃ w, s.inflight = some w ∧ s.engineTurn = .next (s.raiseError .illegalCommand)) := by
  rcases h : s.inflight with _ | w
  · exact .inl ⟨rfl, State.engineTurn_idle h⟩
  · rcases hd : decode w with e | i
    · exact .inr (.inr ⟨w, rfl, State.engineTurn_illegal h hd⟩)
    · exact .inr (.inl ⟨w, i, rfl, hd, State.engineTurn_legal h hd⟩)

end Sys2Proof.Machine
end

