-- ==== Sys2Proof/Laws/Statements.lean ====
section
/-! SUPPORT. The helper definitions of the statements against the model's operations, said once: the numbers and points that
the bytes of IN hold (spec/42_codec.md R191), the bytes of OUT a store leaves (spec/20_memory.md R75), the sum of the group law
(spec/41_point.md R164). -/

namespace Sys2Proof.Slice0

open Sys2Proof Sys2Proof.Machine

/-- The element 0 is the one whose integer is 0. -/
theorem val_eq_zero {a : Fp} : a.val = 0 ↔ a = fzero := by
  rw [Fin.ext_iff]; rfl

/-- OnCurve of R159 is the curve equation. -/
theorem onCurve_curveEq (x y : Fp) : onCurve x y = true ↔ curveEq x.val y.val := by
  rw [onCurve, beq_iff_eq]; rfl

/-- The number that FLD, PLD and ADD decode from IN is the weighted sum of its bytes (R75). -/
theorem be_memRead (s : State) (off) : be (s.memRead off 32) = elemAt s off := by
  rw [State.memRead, be_readBytes]; rfl

/-- A stored sequence that holds toBE32(v) puts it into OUT at its place (R75). -/
theorem outElem_memWrite (s : State) (off : Nat) (v : Fp) (bytes pre post : List Byte) 
    (hb : bytes = pre ++ toBE32 v ++ post) (o : Nat) (ho : o = off + pre.length) :
    outElem (s.memWrite off bytes) o v.val := by
  intro k hk
  have hl : bytes.length = pre.length + 32 + post.length := by subst hb; simp; omega
  subst ho
  rw [State.outByte, State.memWrite_read, dif_pos ⟨by omega, by omega⟩]
  have hidx : 0x80 + (off + pre.length + k) - (0x80 + off) = pre.length + k := by omega
  have : bytes[pre.length + k]'(by omega) = (toBE 32 v.val)[k]'(by simpa using hk) := by
    subst hb
    rw [List.getElem_append_left (by simp; omega), List.getElem_append_right (by omega)]
    simp [toBE32]
  simp only [hidx]
  rw [this, getElem_toBE]

/-- The pair that rd heads is F[rd], F[rd + 1] (R103). -/
theorem pairSecond_eq (rd : FReg) : pairSecond rd = rd + 1 := by
  apply Fin.ext
  simp [pairSecond, Fin.val_add]

/-- What PointAdd gives on valid points is the sum of the group law of R164. -/
theorem isSum_of_pointAdd {q1 q2 q : Point} (h1 : q1.wf = true) (h2 : q2.wf = true) (h : pointAdd q1 q2 = .ok q) :
    isSum q1 q2 q := by
  have := fact_prime_p
  cases q1 with
  | inf => cases h; rfl
  | aff x1 y1 =>
    cases q2 with
    | inf => cases h; rfl
    | aff x2 y2 =>
      simp only [Point.wf, onCurve_iff] at h1 h2
      simp only [pointAdd] at h
      have third : ∀ lam : Fp, thirdOnLine lam x1 y1 x2 (reduce (toInt lam * toInt lam - toInt x1 - toInt x2))
          (reduce (toInt lam * (toInt x1 - toInt (reduce (toInt lam * toInt lam - toInt x1 - toInt x2))) - toInt y1)) := by
        intro lam
        exact ⟨reduce_val _, reduce_val _⟩
      unfold isSum
      simp only
      by_cases hx : x1 = x2
      · subst hx
        rw [if_pos rfl] at h ⊢
        by_cases hs : fadd y1 y2 = fzero
        · rw [if_pos hs] at h; cases h
          rw [if_pos]
          rw [← fadd_val, hs]; rfl
        · rw [if_neg hs] at h
          rw [if_neg (by rw [← fadd_val]; exact fun e => hs (val_eq_zero.1 e))]
          split_ifs at h with hd hy
          · cases h
          · subst hy
            cases h
            refine ⟨_, _, _, ?_, third _, rfl⟩
            have hz : asZMod (tangentSlope x1 (reduce (2 * toInt y1))) * (2 * asZMod y1) = 3 * asZMod x1 ^ 2 := by
              have hd' : asZMod (reduce (2 * toInt y1)) ≠ 0 := by rwa [Ne, asZMod_eq_zero]
              rw [asZMod_reduce] at hd'
              push_cast at hd'
              rw [asZMod_toInt] at hd'
              rw [asZMod_tangentSlope, asZMod_reduce]
              push_cast
              rw [asZMod_toInt, mul_assoc, inv_mul_cancel₀ hd', mul_one]
            change Nat.ModEq _ _ _
            rw [← ZMod.natCast_eq_natCast_iff]
            push_cast
            have e : ∀ a : Fp, ((a.val : Nat) : ZMod Config.p) = asZMod a := fun a => rfl
            rw [e, e, e]
            linear_combination hz
          · cases h
      · rw [if_neg hx] at h
        rw [if_neg (fun e => hx (Fin.ext e))]
        cases h
        refine ⟨_, _, _, ?_, third _, rfl⟩
        have hX : asZMod x2 - asZMod x1 ≠ 0 := fun e => hx (asZMod_inj.1 (sub_eq_zero.1 e).symm)
        change Int.ModEq _ _ _
        rw [← ZMod.intCast_eq_intCast_iff]
        push_cast
        have e : ∀ a : Fp, ((a.val : Nat) : ZMod Config.p) = asZMod a := fun a => rfl
        rw [e, e, e, e, e, asZMod_chordSlope]
        field_simp

/-- All that DecodePoint can answer for 64 bytes of IN (R191). -/
theorem decodePoint_memRead_cases (s : State) (off : Nat) :
    (∃ q, holdsPoint s off q ∧ decodePoint (s.memRead off 64) = .ok q) ∨
      (outOfRangeAt s off ∧ decodePoint (s.memRead off 64) = .error (.raised .outOfRange)) ∨
      (offCurveAt s off ∧ decodePoint (s.memRead off 64) = .error (.raised .pointNotOnCurve)) := by
  have t1 : be ((s.memRead off 64).take 32) = elemAt s off := by
    rw [State.memRead, Memory.take_readBytes _ _ _ _ (by omega)]; exact be_memRead s off
  have t2 : be ((s.memRead off 64).drop 32) = elemAt s (off + 32) := by
    rw [State.memRead, Memory.drop_readBytes]; exact be_memRead s (off + 32)
  rcases decodePoint_cases (s.memRead off 64) with ⟨x, y, hx, hy, e⟩ | ⟨h, e⟩
  · rw [t1] at hx; rw [t2] at hy
    rcases pointDecode_cases x y with ⟨zx, zy, d⟩ | ⟨nz, hc, d⟩ | ⟨nz, hc, d⟩
    · refine .inl ⟨.inf, .inl ⟨?_, ?_, rfl⟩, e.trans d⟩
      · rw [← hx, zx]; rfl
      · rw [← hy, zy]; rfl
    · refine .inl ⟨_, .inr ⟨x, y, hx, hy,
        fun h => nz ⟨val_eq_zero.1 h.1, val_eq_zero.1 h.2⟩, (onCurve_curveEq x y).1 hc, rfl⟩, e.trans d⟩
    · refine .inr (.inr ⟨⟨hx ▸ x.isLt, hy ▸ y.isLt, ?_, ?_⟩, e.trans d⟩)
      · rw [← hx, ← hy]; exact fun h => nz ⟨val_eq_zero.1 h.1, val_eq_zero.1 h.2⟩
      · rw [← hx, ← hy, ← onCurve_curveEq, hc]; simp
  · rw [t1, t2] at h
    exact .inr (.inl ⟨h, e⟩)

/-- 64 bytes that hold a point are neither out of range nor off the curve. -/
theorem holdsPoint_exclusive {s off q} (h : holdsPoint s off q) : ¬outOfRangeAt s off ∧ ¬offCurveAt s off := by
  rcases h with ⟨h1, h2, rfl⟩ | ⟨x, y, hx, hy, nz, hc, rfl⟩
  · refine ⟨?_, fun h => h.2.2.1 ⟨h1, h2⟩⟩
    unfold outOfRangeAt; rw [h1, h2]; have := Config.p_pos; omega
  · refine ⟨?_, fun h => h.2.2.2 (by rw [← hx, ← hy]; exact hc)⟩
    unfold outOfRangeAt; rw [← hx, ← hy]; have := x.isLt; have := y.isLt; omega

/-- 64 bytes hold at most one point. -/
theorem holdsPoint_unique {s off q q'} (h : holdsPoint s off q) (h' : holdsPoint s off q') : q = q' := by
  rcases h with ⟨h1, h2, rfl⟩ | ⟨x, y, hx, hy, nz, hc, rfl⟩ <;>
    rcases h' with ⟨h1', h2', rfl⟩ | ⟨x', y', hx', hy', nz', hc', rfl⟩
  · rfl
  · exact absurd ⟨hx'.trans h1, hy'.trans h2⟩ nz'
  · exact absurd ⟨hx.trans h1', hy.trans h2'⟩ nz
  · rw [Fin.ext (hx.trans hx'.symm), Fin.ext (hy.trans hy'.symm)]

/-- DecodePoint of 64 bytes that hold a point (R191). -/
theorem decodePoint_of_holds {s off q} (h : holdsPoint s off q) : decodePoint (s.memRead off 64) = .ok q := by
  rcases decodePoint_memRead_cases s off with ⟨q', h', e⟩ | ⟨h', e⟩ | ⟨h', e⟩
  · rw [holdsPoint_unique h h', e]
  · exact absurd h' (holdsPoint_exclusive h).1
  · exact absurd h' (holdsPoint_exclusive h).2

/-- DecodePoint of 64 bytes with a coordinate from p on (R191, R233). -/
theorem decodePoint_of_outOfRange {s off} (h : outOfRangeAt s off) :
    decodePoint (s.memRead off 64) = .error (.raised .outOfRange) := by
  rcases decodePoint_memRead_cases s off with ⟨q', h', e⟩ | ⟨h', e⟩ | ⟨h', e⟩
  · exact absurd h (holdsPoint_exclusive h').1
  · exact e
  · rcases h with h | h
    · exact absurd h (Nat.not_le.2 h'.1)
    · exact absurd h (Nat.not_le.2 h'.2.1)

/-- DecodePoint of 64 bytes off the curve (R191, R234). -/
theorem decodePoint_of_offCurve {s off} (h : offCurveAt s off) :
    decodePoint (s.memRead off 64) = .error (.raised .pointNotOnCurve) := by
  rcases decodePoint_memRead_cases s off with ⟨q', h', e⟩ | ⟨h', e⟩ | ⟨h', e⟩
  · exact absurd h (holdsPoint_exclusive h').2
  · rcases h' with h' | h'
    · exact absurd h' (Nat.not_le.2 h.1)
    · exact absurd h' (Nat.not_le.2 h.2.1)
  · exact e

/-- A stored point encoding fills OUT (R192, R193). -/
theorem outPoint_memWrite (s : State) (q : Point) : outPoint (s.memWrite 0 (encodePoint q)) q := by
  have h1 : ∀ x y : Fp, outElem (s.memWrite 0 (toBE32 x ++ toBE32 y)) 0 x.val ∧
      outElem (s.memWrite 0 (toBE32 x ++ toBE32 y)) 32 y.val := fun x y =>
    ⟨outElem_memWrite s 0 x _ [] (toBE32 y) (by simp) _ (by simp),
      outElem_memWrite s 0 y _ (toBE32 x) [] (by simp) _ (by simp)⟩
  cases q with
  | inf => exact h1 fzero fzero
  | aff x y => exact h1 x y

/-- The completion's status update is not seen in OUT. -/
theorem outElem_complete (t : State) (c : StatusCode) (off v : Nat) : outElem (t.complete c) off v ↔ outElem t off v :=
  Iff.rfl

theorem outPoint_complete (t : State) (c : StatusCode) (q : Point) : outPoint (t.complete c) q ↔ outPoint t q := by
  cases q <;> simp only [outPoint, outElem_complete]

theorem memoryKept_complete (s t : State) (c : StatusCode) (lo hi : Nat) :
    memoryKeptOutside s (t.complete c) lo hi ↔ memoryKeptOutside s t lo hi := Iff.rfl

/-- A stored point encoding leaves every byte outside OUT alone. -/
theorem memoryKept_memWrite (s : State) (q : Point) :
    memoryKeptOutside s (s.memWrite 0 (encodePoint q)) 0x80 0xC0 := fun a ha =>
  Memory.read_writeBytes_outside _ _ _ _ (by rw [length_encodePoint]; omega)

/-- What 64 bytes of IN hold is a valid point. -/
theorem holdsPoint_wf {s off q} (h : holdsPoint s off q) : q.wf = true := by
  rcases h with ⟨h1, h2, rfl⟩ | ⟨x, y, hx, hy, nz, hc, rfl⟩
  · rfl
  · exact (onCurve_curveEq x y).2 hc

/-- ADD once its length check has passed (R210). -/
theorem execAdd_128 {s : State} (hl : s.inlen = 128) : execAdd s = s.finish (do
    let a ← decodePoint (s.memRead 0 64)
    let b ← decodePoint (s.memRead 64 64)
    let c ← pointAdd a b
    return s.memWrite 0 (encodePoint c)) := by
  have : (s.inlen == BitVec.ofNat 32 Config.inBytes) = true := by rw [hl]; rfl
  rw [execAdd, this, require_true, ok_bind]; rfl

end Sys2Proof.Slice0
end

