-- ==== Sys2Proof/Laws/Commute.lean ====
section
/-! SUPPORT. A command's outcome depends only on its source registers, the bytes of IN, and for ADD on INLEN (spec/10_state.md R31,
R40, R37, spec/43_add.md R212): a change of the state that leaves those alone and commutes with the command's writes commutes with
the command. -/

namespace Sys2Proof.Slice0

open Sys2Proof Sys2Proof.Machine

/-- The outcome with its next state changed by g. -/
def mapNext (g : State → State) : StepResult → StepResult
  | .next t => .next (g t)
  | .fault f => .fault f
  | .refused x => .refused x

@[simp] theorem mapNext_next (g : State → State) (t : State) : mapNext g (.next t) = .next (g t) := rfl

@[simp] theorem mapNext_fault (g : State → State) (f : Fault) : mapNext g (.fault f) = .fault f := rfl

/-- g changes nothing that command i reads, and commutes with what it writes and with its completion. -/
structure Transparent (g : State → State) (i : Instr) (s : State) : Prop where
  readF : ∀ r ∈ fSources i, (g s).readF r = s.readF r
  readP : ∀ r ∈ pSources i, (g s).readP r = s.readP r
  memRead : ∀ off n, off + n ≤ 128 → (g s).memRead off n = s.memRead off n
  inlen : i = .add → (g s).inlen = s.inlen
  writeF : fDests i ≠ [] → ∀ u r v, (g u).writeF r v = g (u.writeF r v)
  writeP : pDests i ≠ [] → ∀ u r v, (g u).writeP r v = g (u.writeP r v)
  memWrite : ∀ u off bytes, (g u).memWrite off bytes = g (u.memWrite off bytes)
  writeFlag : (∃ r1 r2, i = .pchk r1 r2) → ∀ u v, (g u).writeFlag v = g (u.writeFlag v)
  complete : ∀ u c, (g u).complete c = g (u.complete c)

/-- A rule whose result g changes. -/
theorem finish_map {g : State → State} {s : State} (hc : ∀ u c, (g u).complete c = g (u.complete c))
    (r : Except Exit State) : (g s).finish (r.map g) = mapNext g (s.finish r) := by
  rcases r with (e | f) | u
  · exact congrArg Host.Outcome.next (hc s _)
  · rfl
  · exact congrArg Host.Outcome.next (hc u _)

theorem map_bind {α : Type} {g : State → State} (x : Except Exit α) (k : α → Except Exit State) :
    (x >>= k).map g = x >>= fun a => (k a).map g := by
  cases x <;> rfl

theorem map_pure (g : State → State) (u : State) : (pure u : Except Exit State).map g = pure (g u) := rfl

variable {g : State → State} {s : State}

theorem readPairF_transparent {r1 r2 : FReg} (h1 : (g s).readF r1 = s.readF r1) (h2 : (g s).readF r2 = s.readF r2) :
    (g s).readPairF r1 r2 = s.readPairF r1 r2 := by
  rw [State.readPairF, State.readPairF, h1, h2]

theorem binaryF_transparent {op : Fp → Fp → Fp} {rd r1 r2 : FReg} (h1 : (g s).readF r1 = s.readF r1)
    (h2 : (g s).readF r2 = s.readF r2) (hw : ∀ u r v, (g u).writeF r v = g (u.writeF r v))
    (hc : ∀ u c, (g u).complete c = g (u.complete c)) :
    (g s).binaryF op rd r1 r2 = mapNext g (s.binaryF op rd r1 r2) := by
  rw [State.binaryF, State.binaryF, ← finish_map hc, map_bind, readPairF_transparent h1 h2]
  simp only [hw, map_pure]

/-- A transparent change commutes with the command. -/
theorem exec_transparent {i : Instr} (h : Transparent g i s) : exec i (g s) = mapNext g (exec i s) := by
  obtain ⟨hF, hP, hM, hL, wF, wP, wM, wG, wC⟩ := h
  cases i with
  | fadd rd r1 r2 =>
    exact binaryF_transparent (hF r1 (by simp [fSources])) (hF r2 (by simp [fSources])) (wF (by simp [fDests])) wC
  | fsub rd r1 r2 =>
    exact binaryF_transparent (hF r1 (by simp [fSources])) (hF r2 (by simp [fSources])) (wF (by simp [fDests])) wC
  | fmul rd r1 r2 =>
    exact binaryF_transparent (hF r1 (by simp [fSources])) (hF r2 (by simp [fSources])) (wF (by simp [fDests])) wC
  | finv rd rs =>
    show execFinv rd rs (g s) = mapNext g (execFinv rd rs s)
    rw [execFinv, execFinv, ← finish_map wC, hF rs (by simp [fSources])]
    simp only [map_bind, map_pure, wF (by simp [fDests])]
  | fld rd slot =>
    show execFld rd slot (g s) = mapNext g (execFld rd slot s)
    have hs : elemOffset slot.val + Config.elemBytes ≤ 128 := by
      show 32 * slot.val + 32 ≤ 128; omega
    rw [execFld, execFld, ← finish_map wC, hM _ _ hs]
    simp only [map_bind, map_pure, wF (by simp [fDests])]
  | fst rs slot =>
    show execFst rs slot (g s) = mapNext g (execFst rs slot s)
    rw [execFst, execFst, ← finish_map wC, hF rs (by simp [fSources])]
    simp only [map_bind, map_pure, wM]
  | pchk r1 r2 =>
    show execPchk r1 r2 (g s) = mapNext g (execPchk r1 r2 s)
    rw [execPchk, execPchk, ← finish_map wC,
      readPairF_transparent (hF r1 (by simp [fSources])) (hF r2 (by simp [fSources]))]
    simp only [map_bind, map_pure, wG ⟨r1, r2, rfl⟩]
  | pdec pd r1 r2 =>
    show execPdec pd r1 r2 (g s) = mapNext g (execPdec pd r1 r2 s)
    rw [execPdec, execPdec, ← finish_map wC,
      readPairF_transparent (hF r1 (by simp [fSources])) (hF r2 (by simp [fSources]))]
    simp only [map_bind, map_pure, wP (by simp [pDests])]
  | padd pd p1 p2 =>
    show execPadd pd p1 p2 (g s) = mapNext g (execPadd pd p1 p2 s)
    rw [execPadd, execPadd, ← finish_map wC, hP p1 (by simp [pSources]), hP p2 (by simp [pSources])]
    simp only [map_bind, map_pure, wP (by simp [pDests])]
  | penc rd ps =>
    show execPenc rd ps (g s) = mapNext g (execPenc rd ps s)
    rw [execPenc, execPenc, ← finish_map wC, hP ps (by simp [pSources])]
    simp only [map_bind, map_pure, wF (by simp [fDests])]
  | pld pd slot =>
    show execPld pd slot (g s) = mapNext g (execPld pd slot s)
    have hs : pointOffset slot.val + Config.pointBytes ≤ 128 := by
      show 64 * slot.val + 64 ≤ 128; omega
    rw [execPld, execPld, ← finish_map wC, hM _ _ hs]
    simp only [map_bind, map_pure, wP (by simp [pDests])]
  | pst ps =>
    show execPst ps (g s) = mapNext g (execPst ps s)
    rw [execPst, execPst, ← finish_map wC, hP ps (by simp [pSources])]
    simp only [map_bind, map_pure, wM]
  | add =>
    show execAdd (g s) = mapNext g (execAdd s)
    have h0 : pointOffset 0 + Config.pointBytes ≤ 128 := by decide
    have h1 : pointOffset 1 + Config.pointBytes ≤ 128 := by decide
    rw [execAdd, execAdd, ← finish_map wC, hL rfl, hM _ _ h0, hM _ _ h1]
    simp only [map_bind, map_pure, wM]

end Sys2Proof.Slice0
end

