-- ==== Sys2Proof/Laws/Completes.lean ====
section
/-! SUPPORT. Which parts of a command can halt: PointAdd alone (spec/41_point.md R165), so every command completes but a PADD whose
PointAdd halts. -/

namespace Sys2Proof.Machine

/-- A rule that does not halt completes. -/
theorem State.finish_completes (s : State) {r : Except Exit State} (h : ∀ f, r ≠ .error (.halt f)) :
    ∃ t, s.finish r = .next t := by
  rcases r with (e | f) | u
  · exact ⟨_, rfl⟩
  · exact absurd rfl (h f)
  · exact ⟨_, rfl⟩

/-- The parts of a command that never halt. -/
theorem not_halt_bind {α β : Type} {x : Except Exit α} {k : α → Except Exit β} (h : ∀ f, x ≠ .error (.halt f))
    (hk : ∀ a, x = .ok a → ∀ f, k a ≠ .error (.halt f)) : ∀ f, (x >>= k) ≠ .error (.halt f) := by
  intro f hf
  rcases bind_eq_error hf with e | ⟨a, ha, e⟩
  · exact h f e
  · exact hk a ha f e

theorem readF_not_halt (s : State) (r : FReg) (f : Fault) : s.readF r ≠ .error (.halt f) :=
  fun h => by cases (State.readF_eq_error h).2

theorem readP_not_halt (s : State) (r : PReg) (f : Fault) : s.readP r ≠ .error (.halt f) :=
  fun h => by cases (State.readP_eq_error h).2

theorem readPairF_not_halt (s : State) (r1 r2 : FReg) (f : Fault) : s.readPairF r1 r2 ≠ .error (.halt f) := by
  rcases s.readPairF_cases r1 r2 with ⟨a, c, -, -, e⟩ | ⟨-, e⟩ <;> rw [e] <;> exact fun h => by cases h

theorem require_not_halt (ok : Bool) (e : ErrorKind) (f : Fault) : require ok e ≠ .error (.halt f) := by
  cases ok <;> exact fun h => by cases h

theorem decodeElem_not_halt (bytes : List Byte) (f : Fault) : decodeElem bytes ≠ .error (.halt f) := by
  rcases decodeElem_cases bytes with ⟨v, -, e⟩ | ⟨-, e⟩ <;> rw [e] <;> exact fun h => by cases h

theorem decodePoint_not_halt (bytes : List Byte) (f : Fault) : decodePoint bytes ≠ .error (.halt f) :=
  fun h => by rcases decodePoint_error h with e | e <;> cases e

theorem pointDecode_not_halt (x y : Fp) (f : Fault) : pointDecode x y ≠ .error (.halt f) := by
  rcases pointDecode_cases x y with ⟨-, -, e⟩ | ⟨-, -, e⟩ | ⟨-, -, e⟩ <;> rw [e] <;> exact fun h => by cases h

theorem pure_not_halt {u : State} (f : Fault) : (pure u : Except Exit State) ≠ .error (.halt f) := fun h => by cases h

/-- Every command completes, but a PADD whose PointAdd halts (R165, U3, U12). -/
theorem exec_completes (i : Instr) (s : State)
    (h : ∀ pd ps1 ps2, i = .padd pd ps1 ps2 → ∀ q1 q2, s.pCell ps1 = .valid q1 → s.pCell ps2 = .valid q2 →
      ∃ q, pointAdd q1 q2 = .ok q) : ∃ t, exec i s = .next t := by
  cases i with
  | fadd => exact s.finish_completes (not_halt_bind (readPairF_not_halt s _ _) fun a _ => pure_not_halt)
  | fsub => exact s.finish_completes (not_halt_bind (readPairF_not_halt s _ _) fun a _ => pure_not_halt)
  | fmul => exact s.finish_completes (not_halt_bind (readPairF_not_halt s _ _) fun a _ => pure_not_halt)
  | finv =>
    exact s.finish_completes (not_halt_bind (readF_not_halt s _) fun _ _ =>
      not_halt_bind (require_not_halt _ _) fun _ _ => pure_not_halt)
  | fld rd slot =>
    show ∃ t, execFld rd slot s = .next t
    rw [execFld]
    exact s.finish_completes (not_halt_bind (decodeElem_not_halt _) fun _ _ => pure_not_halt)
  | fst => exact s.finish_completes (not_halt_bind (readF_not_halt s _) fun _ _ => pure_not_halt)
  | pchk => exact s.finish_completes (not_halt_bind (readPairF_not_halt s _ _) fun a _ => pure_not_halt)
  | pdec =>
    exact s.finish_completes (not_halt_bind (readPairF_not_halt s _ _) fun a _ =>
      not_halt_bind (pointDecode_not_halt _ _) fun _ _ => pure_not_halt)
  | padd pd ps1 ps2 =>
    refine s.finish_completes (not_halt_bind (readP_not_halt s _) fun q1 h1 =>
      not_halt_bind (readP_not_halt s _) fun q2 h2 => not_halt_bind (fun f hf => ?_) fun _ _ => pure_not_halt)
    obtain ⟨q, e⟩ := h pd ps1 ps2 rfl q1 q2 (State.readP_eq_ok.1 h1) (State.readP_eq_ok.1 h2)
    rw [e] at hf
    cases hf
  | penc =>
    exact s.finish_completes (not_halt_bind (require_not_halt _ _) fun _ _ =>
      not_halt_bind (readP_not_halt s _) fun _ _ => pure_not_halt)
  | pld pd slot =>
    show ∃ t, execPld pd slot s = .next t
    rw [execPld]
    exact s.finish_completes (not_halt_bind (decodePoint_not_halt _) fun _ _ => pure_not_halt)
  | pst => exact s.finish_completes (not_halt_bind (readP_not_halt s _) fun _ _ => pure_not_halt)
  | add =>
    show ∃ t, execAdd s = .next t
    rw [execAdd]
    refine s.finish_completes (not_halt_bind (require_not_halt _ _) fun _ _ =>
      not_halt_bind (decodePoint_not_halt _) fun a ha => not_halt_bind (decodePoint_not_halt _) fun b hb =>
        not_halt_bind (fun f hf => ?_) fun _ _ => pure_not_halt)
    obtain ⟨c, e, -⟩ := pointAdd_wf (decodePoint_wf ha) (decodePoint_wf hb)
    rw [e] at hf
    cases hf

end Sys2Proof.Machine
end

