-- ==== Sys2Proof/Laws/Encoding.lean ====
section
/-! SUPPORT. Command words and their fields (spec/30_encoding.md R100, R106, R113): a word is the sum of its fields, and a word that
decodes matches a row of the opcode map. -/

namespace Sys2Proof

/-- The word with given fields is their weighted sum (R113). -/
theorem wordOf_toNat {op a b c : Nat} (ho : op < 256) (ha : a < 16) (hb : b < 16) (hc : c < 16) :
    (wordOf op a b c).toNat = op + 2 ^ 8 * a + 2 ^ 12 * b + 2 ^ 16 * c := by
  have shl : ∀ n k : Nat, n < 16 → k ≤ 16 → (BitVec.ofNat 32 n <<< k).toNat = 2 ^ k * n := by
    intro n k hn hk
    have h16 : 2 ^ k ≤ 2 ^ 16 := Nat.pow_le_pow_right (by decide) hk
    have : 2 ^ k * n < 2 ^ 32 := by nlinarith
    rw [BitVec.toNat_shiftLeft, BitVec.toNat_ofNat, Nat.mod_eq_of_lt (by omega : n < 2 ^ 32), Nat.shiftLeft_eq, Nat.mul_comm,
      Nat.mod_eq_of_lt this]
  have join : ∀ (lo k n : Nat), lo < 2 ^ k → lo ||| 2 ^ k * n = lo + 2 ^ k * n := by
    intro lo k n h
    rw [Nat.or_comm, ← Nat.two_pow_add_eq_or_of_lt h, Nat.add_comm]
  rw [wordOf, BitVec.toNat_or, BitVec.toNat_or, BitVec.toNat_or, shl a 8 ha (by decide), shl b 12 hb (by decide),
    shl c 16 hc (by decide), BitVec.toNat_ofNat, Nat.mod_eq_of_lt (by omega), join _ 8 _ (by omega), join _ 12 _ (by omega),
    join _ 16 _ (by omega)]

/-- A word whose RSV bits are 0 is the word of its own fields (R100). -/
theorem wordOf_fields {w : Word} (h : w.toNat < 2 ^ 20) : wordOf (opField w) (fieldA w) (fieldB w) (fieldC w) = w := by
  have f : ∀ k n, (w.extractLsb' k n).toNat = w.toNat / 2 ^ k % 2 ^ n := fun k n => by
    rw [BitVec.extractLsb'_toNat, Nat.shiftRight_eq_div_pow]
  apply BitVec.eq_of_toNat_eq
  rw [wordOf_toNat (by rw [opField, f]; omega) (by rw [fieldA, f]; omega) (by rw [fieldB, f]; omega)
    (by rw [fieldC, f]; omega), opField, fieldA, fieldB, fieldC, f, f, f, f]
  omega

/-- A word that decodes matches a row of the opcode map and has that row's operands (R106, R107). -/
theorem decode_ok {w : Word} {i : Instr} (h : decode w = .ok i) :
    ∃ r ∈ opcodeMap, w &&& r.mask = r.pattern ∧ i = operandsOf r.op w := by
  unfold decode at h
  split at h
  · rename_i r hr
    cases h
    exact ⟨r, List.mem_of_find?_eq_some hr, by simpa [OpcodeRow.holds] using List.find?_some hr, rfl⟩
  · split at h <;> cases h

/-- The opcode byte is inside every mask (R106). -/
theorem low_byte_of_match {w : Word} {r : OpcodeRow} (hr : r ∈ opcodeMap) (h : w &&& r.mask = r.pattern) :
    w.toNat % 256 = r.pattern.toNat % 256 := by
  have hm : r.mask &&& 0xFF = 0xFF := (by decide : ∀ r ∈ opcodeMap, r.mask &&& 0xFF = 0xFF) r hr
  have hw : w &&& 0xFF = r.pattern &&& 0xFF := by rw [← h, BitVec.and_assoc, hm]
  simpa [BitVec.toNat_and, Nat.and_two_pow_sub_one_eq_mod _ 8] using congrArg BitVec.toNat hw

/-- RSV is inside every mask and 0 in every pattern, so a word that decodes is below 2^20 (R101). -/
theorem lt_of_match {w : Word} {r : OpcodeRow} (hr : r ∈ opcodeMap) (h : w &&& r.mask = r.pattern) : w.toNat < 2 ^ 20 := by
  have hm : r.mask &&& 0xFFF00000 = 0xFFF00000 := (by decide : ∀ r ∈ opcodeMap, r.mask &&& 0xFFF00000 = 0xFFF00000) r hr
  have hp : r.pattern &&& 0xFFF00000 = 0 := (by decide : ∀ r ∈ opcodeMap, r.pattern &&& 0xFFF00000 = 0) r hr
  have hw : w &&& 0xFFF00000 = 0 := by rw [← hp, ← h, BitVec.and_assoc, hm]
  by_contra hc
  obtain ⟨k, hk, hb⟩ : ∃ k, 20 ≤ k ∧ w.toNat.testBit k = true := Nat.exists_ge_and_testBit_of_ge_two_pow (by omega)
  have hk32 : k < 32 := by
    by_contra h32
    rw [Nat.testBit_lt_two_pow (w.isLt.trans_le (Nat.pow_le_pow_right (by decide) (by omega)))] at hb
    cases hb
  have := congrArg (fun v : Word => v.getLsbD k) hw
  simp only [BitVec.getLsbD_and] at this
  rw [show w.getLsbD k = true from hb, Bool.true_and] at this
  revert this
  interval_cases k <;> decide

/-- What a match says of one field: the field under the mask's bits there is the pattern's field. A free field is
unconstrained, a must-be-zero field is 0 (R101). -/
theorem field_of_match {w : Word} {r : OpcodeRow} (h : w &&& r.mask = r.pattern) (k n : Nat) :
    w.extractLsb' k n &&& r.mask.extractLsb' k n = r.pattern.extractLsb' k n := by
  rw [← BitVec.extractLsb'_and, h]

end Sys2Proof
end

