-- ==== Sys2Proof/Laws/Group.lean ====
section
/-! SUPPORT. PointAdd (spec/41_point.md R164) is the addition of Mathlib's group of points of y^2 = x^3 + 3 over ZMod p
(R169: commutativity and associativity are properties of the elliptic-curve group). -/

namespace Sys2Proof.Machine

/-- The curve of R7 as a Weierstrass curve. -/
def bnCurve : WeierstrassCurve.Affine (ZMod Config.p) := { a₁ := 0, a₂ := 0, a₃ := 0, a₄ := 0, a₆ := 3 }

/-- A point of the engine and a point of Mathlib's group are the same point. -/
def Represents : Point → bnCurve.Point → Prop
  | .inf, .zero => True
  | .inf, .some _ _ _ => False
  | .aff _ _, .zero => False
  | .aff x y, .some x' y' _ => asZMod x = x' ∧ asZMod y = y'

theorem bnCurve_equation (x y : ZMod Config.p) : bnCurve.Equation x y ↔ y ^ 2 = x ^ 3 + 3 := by
  rw [WeierstrassCurve.Affine.equation_iff]
  simp [bnCurve]

theorem bnCurve_nonsingular [Fact (Nat.Prime Config.p)] {x y : ZMod Config.p} (h : y ^ 2 = x ^ 3 + 3) :
    bnCurve.Nonsingular x y := by
  refine (bnCurve.equation_iff_nonsingular_of_Δ_ne_zero ?_).1 ((bnCurve_equation x y).2 h)
  have h3888 : ((3888 : Nat) : ZMod Config.p) ≠ 0 := by
    rw [Ne, ZMod.natCast_eq_zero_iff]; decide
  have hd : bnCurve.Δ = -((3888 : Nat) : ZMod Config.p) := by
    simp only [WeierstrassCurve.Δ, WeierstrassCurve.b₂, WeierstrassCurve.b₄, WeierstrassCurve.b₆, WeierstrassCurve.b₈,
      bnCurve]
    push_cast
    ring
  rw [hd]
  exact neg_ne_zero.2 h3888

theorem bnCurve_negY (x y : ZMod Config.p) : bnCurve.negY x y = -y := by
  simp [WeierstrassCurve.Affine.negY, bnCurve]

/-- Every valid point is a point of the group. -/
theorem represents_exists [Fact (Nat.Prime Config.p)] {q : Point} (h : q.wf = true) : ∃ P, Represents q P := by
  cases q with
  | inf => exact ⟨.zero, trivial⟩
  | aff x y =>
    rw [Point.wf, onCurve_iff] at h
    exact ⟨.some _ _ (bnCurve_nonsingular h), rfl, rfl⟩

/-- A point of the group is at most one point of the engine. -/
theorem represents_unique {q q' : Point} {P : bnCurve.Point} (h : Represents q P) (h' : Represents q' P) : q = q' := by
  cases P with
  | zero =>
    cases q with
    | inf => cases q' with
      | inf => rfl
      | aff _ _ => exact h'.elim
    | aff _ _ => exact h.elim
  | some X Y hXY =>
    cases q with
    | inf => exact h.elim
    | aff x y => cases q' with
      | inf => exact h'.elim
      | aff x' y' =>
        obtain ⟨hx, hy⟩ := h
        obtain ⟨hx', hy'⟩ := h'
        rw [asZMod_inj.1 (hx.trans hx'.symm), asZMod_inj.1 (hy.trans hy'.symm)]

/-- The third point of R164 is the sum Mathlib computes from the same slope. -/
theorem represents_thirdPoint {lam x1 y1 x2 : Fp} {l : ZMod Config.p} (hl : asZMod lam = l)
    (h : bnCurve.Nonsingular (bnCurve.addX (asZMod x1) (asZMod x2) l) (bnCurve.addY (asZMod x1) (asZMod x2) (asZMod y1) l)) :
    Represents (thirdPoint lam x1 y1 x2) (.some _ _ h) := by
  subst hl
  refine ⟨?_, ?_⟩
  · rw [asZMod_thirdPoint_x, WeierstrassCurve.Affine.addX]
    simp only [bnCurve]
    ring
  · rw [asZMod_thirdPoint_y, asZMod_thirdPoint_x, WeierstrassCurve.Affine.addY, bnCurve_negY,
      WeierstrassCurve.Affine.negAddY, WeierstrassCurve.Affine.addX]
    simp only [bnCurve]
    ring

/-- PointAdd on valid points is the group's addition. -/
theorem represents_pointAdd [Fact (Nat.Prime Config.p)] {q1 q2 q : Point} {P1 P2 : bnCurve.Point}
    (h1 : Represents q1 P1) (h2 : Represents q2 P2) (h : pointAdd q1 q2 = .ok q) : Represents q (P1 + P2) := by
  cases q1 with
  | inf =>
    cases P1 with
    | zero => cases h; simpa [← WeierstrassCurve.Affine.Point.zero_def] using h2
    | some _ _ _ => exact h1.elim
  | aff x1 y1 =>
    cases P1 with
    | zero => exact h1.elim
    | some X1 Y1 n1 =>
      obtain ⟨rfl, rfl⟩ := h1
      cases q2 with
      | inf =>
        cases P2 with
        | zero => cases h; simpa [← WeierstrassCurve.Affine.Point.zero_def] using ⟨rfl, rfl⟩
        | some _ _ _ => exact h2.elim
      | aff x2 y2 =>
        cases P2 with
        | zero => exact h2.elim
        | some X2 Y2 n2 =>
          obtain ⟨rfl, rfl⟩ := h2
          simp only [pointAdd] at h
          split at h
          · rename_i hx; subst hx
            split at h
            · rename_i hs
              rw [← asZMod_eq_zero, asZMod_fadd] at hs
              cases h
              rw [WeierstrassCurve.Affine.Point.add_of_Y_eq rfl
                (by rw [bnCurve_negY]; exact eq_neg_of_add_eq_zero_left hs)]
              trivial
            · rename_i hs
              rw [← asZMod_eq_zero, asZMod_fadd] at hs
              split at h
              · cases h
              · split at h
                · rename_i hy; subst hy
                  cases h
                  have hY : asZMod y1 ≠ bnCurve.negY (asZMod x1) (asZMod y1) := by
                    rw [bnCurve_negY]; exact fun e => hs (by linear_combination e)
                  rw [WeierstrassCurve.Affine.Point.add_of_Y_ne hY]
                  refine represents_thirdPoint ?_ _
                  rw [WeierstrassCurve.Affine.slope_of_Y_ne rfl hY, bnCurve_negY, asZMod_tangentSlope, asZMod_reduce,
                    div_eq_mul_inv]
                  push_cast
                  rw [asZMod_toInt]
                  simp only [bnCurve]
                  ring_nf
                · cases h
          · rename_i hx
            cases h
            have hX : asZMod x1 ≠ asZMod x2 := fun e => hx (asZMod_inj.1 e)
            rw [WeierstrassCurve.Affine.Point.add_of_X_ne hX]
            refine represents_thirdPoint ?_ _
            rw [WeierstrassCurve.Affine.slope_of_X_ne hX, asZMod_chordSlope, ← div_eq_mul_inv, ← neg_sub,
              ← neg_sub (asZMod x1), neg_div_neg_eq]

end Sys2Proof.Machine
end

