-- ==== Sys2Proof/Laws/PerInstr.lean ====
section
/-! SUPPORT. Facts about every command as syntax, one lemma per constructor: the encoding leaves RSV = w[31:20] zero and its
fields stay inside their places (spec/30_encoding.md R100, R101, R113). -/

namespace Sys2Proof.Laws.ReservedZero

/-- The encoded word is below 2^20, so every bit of RSV is 0. -/
def Statement (i : Instr) : Prop := (encode i).toNat < 2 ^ 20

theorem word_lt (op a b c : Nat) (ho : op < 2 ^ 8) (ha : a < 2 ^ 4) (hb : b < 2 ^ 4) (hc : c < 2 ^ 4) :
    (wordOf op a b c).toNat < 2 ^ 20 := by
  have shl : ∀ (n k : Nat), n < 2 ^ 4 → k ≤ 16 → (BitVec.ofNat 32 n <<< k).toNat < 2 ^ (4 + k) := by
    intro n k hn hk
    rw [BitVec.toNat_shiftLeft, BitVec.toNat_ofNat, Nat.shiftLeft_eq, Nat.mod_eq_of_lt (hn.trans (by norm_num))]
    refine (Nat.mod_le _ _).trans_lt ?_
    rw [pow_add]
    exact Nat.mul_lt_mul_of_pos_right hn (by positivity)
  have up : ∀ (n k : Nat), n < 2 ^ k → k ≤ 20 → n < 2 ^ 20 := fun n k h hk =>
    h.trans_le (Nat.pow_le_pow_right (by norm_num) hk)
  simp only [wordOf, BitVec.toNat_or]
  refine Nat.or_lt_two_pow (Nat.or_lt_two_pow (Nat.or_lt_two_pow ?_ ?_) ?_) ?_
  · rw [BitVec.toNat_ofNat, Nat.mod_eq_of_lt (ho.trans (by norm_num))]
    exact up _ 8 ho (by norm_num)
  · exact up _ _ (shl a 8 ha (by norm_num)) (by norm_num)
  · exact up _ _ (shl b 12 hb (by norm_num)) (by norm_num)
  · exact up _ _ (shl c 16 hc (by norm_num)) (by norm_num)

theorem fadd (rd rs1 rs2 : FReg) : Statement (.fadd rd rs1 rs2) :=
  word_lt _ _ _ _ (by norm_num) rd.isLt rs1.isLt rs2.isLt

theorem fsub (rd rs1 rs2 : FReg) : Statement (.fsub rd rs1 rs2) :=
  word_lt _ _ _ _ (by norm_num) rd.isLt rs1.isLt rs2.isLt

theorem fmul (rd rs1 rs2 : FReg) : Statement (.fmul rd rs1 rs2) :=
  word_lt _ _ _ _ (by norm_num) rd.isLt rs1.isLt rs2.isLt

theorem finv (rd rs : FReg) : Statement (.finv rd rs) :=
  word_lt _ _ _ _ (by norm_num) rd.isLt rs.isLt (by norm_num)

theorem fld (rd : FReg) (slot : Fin 4) : Statement (.fld rd slot) :=
  word_lt _ _ _ _ (by norm_num) rd.isLt (by norm_num) (by have := slot.isLt; omega)

theorem fst (rs : FReg) (slot : Fin 2) : Statement (.fst rs slot) :=
  word_lt _ _ _ _ (by norm_num) (by norm_num) rs.isLt (by have := slot.isLt; omega)

theorem pchk (rs1 rs2 : FReg) : Statement (.pchk rs1 rs2) :=
  word_lt _ _ _ _ (by norm_num) (by norm_num) rs1.isLt rs2.isLt

theorem pdec (pd : PReg) (rs1 rs2 : FReg) : Statement (.pdec pd rs1 rs2) :=
  word_lt _ _ _ _ (by norm_num) (by have := pd.isLt; omega) rs1.isLt rs2.isLt

theorem padd (pd ps1 ps2 : PReg) : Statement (.padd pd ps1 ps2) :=
  word_lt _ _ _ _ (by norm_num) (by have := pd.isLt; omega) (by have := ps1.isLt; omega) (by have := ps2.isLt; omega)

theorem penc (rd : FReg) (ps : PReg) : Statement (.penc rd ps) :=
  word_lt _ _ _ _ (by norm_num) rd.isLt (by have := ps.isLt; omega) (by norm_num)

theorem pld (pd : PReg) (slot : Fin 2) : Statement (.pld pd slot) :=
  word_lt _ _ _ _ (by norm_num) (by have := pd.isLt; omega) (by norm_num) (by have := slot.isLt; omega)

theorem pst (ps : PReg) : Statement (.pst ps) :=
  word_lt _ _ _ _ (by norm_num) (by norm_num) (by have := ps.isLt; omega) (by norm_num)

theorem add : Statement .add :=
  word_lt _ _ _ _ (by norm_num) (by norm_num) (by norm_num) (by norm_num)

end Sys2Proof.Laws.ReservedZero
end

