-- ==== Sys2Proof/Tests/Slice0.lean ====
section
/-! SUPPORT. Tests and witnesses. Every expected value of a test is a vector of spec/95_test_vectors.md, named in its comment.
A `witness_` theorem shows that the hypotheses of the obligation it names are met together by a concrete state and operands. -/

namespace Sys2Proof.Tests

-- One theorem at a time: many kernel evaluations side by side take too many threads.
set_option Elab.async false

open Sys2Proof Sys2Proof.Machine Sys2Proof.Slice0

/-! ### Helpers -/

/-- The next state of an outcome. -/
def next? (o : StepResult) : Option State :=
  match o with
  | .next t => some t
  | .fault _ => none
  | .refused _ => none

/-- What a test asserts of the next state; false where there is none. -/
def nextIs (o : StepResult) (f : State → Bool) : Bool := (next? o).any f

theorem exists_next {o : StepResult} {f : State → Bool} (h : nextIs o f = true) : ∃ t, o = .next t ∧ f t = true := by
  cases o with
  | next t => exact ⟨t, rfl, h⟩
  | fault r => cases h
  | refused r => cases h

theorem has_next {o : StepResult} (h : nextIs o (fun _ => true) = true) : ∃ t, o = .next t :=
  (exists_next h).imp fun _ ht => ht.1

/-- The command word is accepted and the engine moves. -/
def run (s : State) (w : Word) : StepResult := step { s.accept w with schedule := [] }

/-- A field element from its number. -/
def el (n : Nat) : Fp := reduce n

/-- F[a] and F[c] set, all else as after reset. -/
def twoF (r1 r2 : FReg) (a c : Nat) : State := (State.reset.writeF r1 (el a)).writeF r2 (el c)

/-- IN from `off` holds the 32-byte big-endian number v. -/
def withIn (s : State) (off v : Nat) : State := { s with mem := Memory.writeBytes s.mem off (toBE 32 v) }

/-- The big-endian number in OUT[off : off+32]. -/
def outNum (t : State) (off : Nat) : Nat := (List.range 32).foldl (fun n k => n * 256 + (t.outByte (off + k)).toNat) 0

/-- STATUS as a number. -/
def statusOf (t : State) : Nat := t.status.toNat

/-- The number in F[r], if it is valid. -/
def fNum (t : State) (r : FReg) : Option Nat :=
  match t.fCell r with
  | .valid v => some v.val
  | .invalid => none

/-- The coordinates in P[r]: `some none` is INF. -/
def pNum (t : State) (r : PReg) : Option (Option (Nat × Nat)) :=
  match t.pCell r with
  | .valid .inf => some none
  | .valid (.aff x y) => some (some (x.val, y.val))
  | .invalid => none

/-- Points of the Conventions: G = (1, 2), 2G, 3G. -/
def g1 : Point := .aff (el 1) (el 2)
def x2G : Nat := 0x030644e72e131a029b85045b68181585d97816a916871ca8d3c208c16d87cfd3
def y2G : Nat := 0x15ed738c0e0a7c92e7845f96b2ae9c0a68a6a449e3538fc7ff3ebf7a5a18a2c4
def x3G : Nat := 0x0769bf9ac56bea3ff40232bcb1b6bd159315d84715b8e679f2d355961915abf0
def y3G : Nat := 0x2ab799bee0489429554fdb7c8d086475319e63b40b9c5b57cdf1ff3dd9fe2261
def g2 : Point := .aff (el x2G) (el y2G)

/-- The fixture points of V-SRC-1. -/
def fx1 : Nat := 0x18b18acfb4c2c30276db5411368e7185b311dd124691610c5d3b74034e093dc9
def fy1 : Nat := 0x063c909c4720840cb5134cb9f59fa749755796819658d32efc0d288198f37266
def fx2 : Nat := 0x07c2b7f58a84bd6145f00c9c2bc0bb1a187f20ff2c92963a88019e7c6a014eed
def fy2 : Nat := 0x06614e20c147e940f2d70da3f74c9a17df361706a4485c742bd6788478fa17d7

/-- The modulus as the Conventions write it. -/
def pLit : Nat := 0x30644e72e131a029b85045b68181585d97816a916871ca8d3c208c16d87cfd47

/-- IN holds two points, INLEN is given. -/
def addInput (xa ya xb yb : Nat) (len : Word) : State :=
  { withIn (withIn (withIn (withIn State.reset 0 xa) 32 ya) 64 xb) 96 yb with inlen := len }

/-- A command is in flight. -/
def busyState : State := State.reset.accept 0x118

/-! ### WellFormed and the assembler -/

/-- The only check of WellFormed: PENC to an odd register (R103). -/
theorem test_wf_refuses_odd_penc : Instr.wf (.penc 3 0) = false ∧ Instr.wf (.penc 15 3) = false := by decide

theorem test_wf_takes_even_penc : Instr.wf (.penc 0 0) = true ∧ Instr.wf (.penc 14 3) = true := by decide

/-- R111's refusals, and the operand kinds. -/
theorem test_asm_refuses :
    assemble .penc [.f 3, .p 0] = none ∧ assemble .fld [.f 0, .slot 4] = none ∧ assemble .padd [.p 4, .p 0, .p 1] = none ∧
    assemble .fadd [.f 16, .f 0, .f 0] = none ∧ assemble .fst [.f 0, .slot 2] = none ∧ assemble .add [.f 0] = none := by
  decide

/-- V-ENC-53 to V-ENC-55: the pseudo-commands' words. -/
theorem test_pseudo_words :
    (assemble .fsqr [.f 1, .f 0]).map encode = some 0x00000103 ∧
    (assemble .fclr [.f 10, .f 0]).map encode = some 0x00000A02 ∧
    (assemble .pdbl [.p 0, .p 0]).map encode = some 0x00000012 ∧
    (assemble .fdbl [.f 1, .f 5]).map encode = some 0x00055101 := by decide

/-- Lines of R111 to R113, V-ENC-49 and V-ENC-54 as text: mnemonics in either case, R111's refusals. -/
theorem test_asm_lines :
    (assembleLine "FMUL f2, f0, f1".toList).map encode = some 0x00010203 ∧
    (assembleLine "penc f12, p3".toList).map encode = some 0x00003C13 ∧
    (assembleLine "FLD f5, 3".toList).map encode = some 0x00030508 ∧
    (assembleLine "Fclr f10, f0".toList).map encode = some 0x00000A02 ∧
    (assembleLine "ADD".toList).map encode = some 0x00000020 ∧
    assembleLine "PENC f3, p0".toList = none ∧ assembleLine "FLD f0, 4".toList = none ∧
    assembleLine "PADD p4, p0, p1".toList = none := by decide +kernel

/-! ### Decoding: words written out bit by bit from R106 -/

/-- RSV, C, B, A, OP of R100 as the map's rows give them. -/
theorem test_decode_field_unit :
    decodeTableWord 32 0b000000000000_0010_0001_0000_00000001 = some (.fadd 0 1 2) ∧
    decodeTableWord 32 0b000000000000_0010_0001_0000_00000010 = some (.fsub 0 1 2) ∧
    decodeTableWord 32 0b000000000000_0001_0000_0010_00000011 = some (.fmul 2 0 1) ∧
    decodeTableWord 32 0b000000000000_0000_0011_0011_00000100 = some (.finv 3 3) ∧
    decodeTableWord 32 0b000000000000_0011_0000_0101_00001000 = some (.fld 5 3) ∧
    decodeTableWord 32 0b000000000000_0001_0100_0000_00001001 = some (.fst 4 1) := by decide

theorem test_decode_point_unit :
    decodeTableWord 32 0b000000000000_0111_0110_0000_00010000 = some (.pchk 6 7) ∧
    decodeTableWord 32 0b000000000000_1011_0000_0011_00010001 = some (.pdec 3 0 11) ∧
    decodeTableWord 32 0b000000000000_0001_0000_0010_00010010 = some (.padd 2 0 1) ∧
    decodeTableWord 32 0b000000000000_0000_0011_1100_00010011 = some (.penc 12 3) := by decide

theorem test_decode_codec_and_add :
    decodeTableWord 32 0b000000000000_0001_0000_0001_00011000 = some (.pld 1 1) ∧
    decodeTableWord 32 0b000000000000_0000_0010_0000_00011001 = some (.pst 2) ∧
    decodeTableWord 32 0b000000000000_0000_0000_0000_00100000 = some .add := by decide

/-- Each constructor's encoding is the word of V-ENC-40 to V-ENC-52. -/
theorem test_encode :
    [encode (.fadd 0 1 2), encode (.fsub 0 1 2), encode (.fmul 2 0 1), encode (.finv 3 3), encode (.fld 5 3),
      encode (.fst 4 1), encode (.pchk 6 7), encode (.pdec 3 0 11), encode (.padd 2 0 1), encode (.penc 12 3),
      encode (.pld 1 1), encode (.pst 2), encode .add] =
    [0x00021001, 0x00021002, 0x00010203, 0x00003304, 0x00030508, 0x00014009, 0x00076010, 0x000B0311, 0x00010212,
      0x00003C13, 0x00010118, 0x00002019, 0x00000020] := by decide

/-- The illegal words of V-ENC-1 to V-ENC-33. -/
theorem test_illegal_words :
    [0x00000000, 0x00000005, 0x00000006, 0x00000007, 0x0000000A, 0x000000FF, 0x00000021, 0x00100001, 0x80000001,
      0x00040008, 0x00020009, 0x00000409, 0x00000110, 0x00000412, 0x00004012, 0x00040012, 0x00000313, 0x00004013,
      0x00010013, 0x00020018, 0x00004019, 0x00000119, 0x00000120, 0x00001020, 0x00080020, 0x00010004,
      0x00F0FF01].all (fun w => decodeTableWord 32 w == none) = true := by decide +kernel

/-- The names of the two kinds of illegal word. -/
theorem test_illegal_names :
    decode 0 = .error .reservedOpcode ∧ decode 0x00000120 = .error .mustBeZeroBitSet := by decide

/-! ### One step per instruction -/

/-- V-FADD-3: the largest sum. -/
theorem test_fadd_wraps :
    nextIs (run (twoF 1 2 (pLit - 1) (pLit - 1)) 0x00021001)
      (fun t => fNum t 0 == some (pLit - 2) && statusOf t == 0x2) = true := by decide +kernel

/-- V-FADD-6: the destination is both sources. -/
theorem test_fadd_in_place :
    nextIs (run (twoF 1 1 5 5) 0x00011101) (fun t => fNum t 1 == some 10) = true := by decide +kernel

/-- V-FSUB-2: the underflow wraps. -/
theorem test_fsub_wraps :
    nextIs (run (twoF 1 2 0 1) 0x00021002) (fun t => fNum t 0 == some (pLit - 1) && statusOf t == 0x2) = true := by
  decide +kernel

/-- V-FSUB-7: which operand is subtracted. -/
theorem test_fsub_order :
    nextIs (run (twoF 1 2 fy1 fx1) 0x00021002)
      (fun t => fNum t 0 == some 0x1def543f738f6133f6883e5f40928e2159c72400b8393cafdaf24095236731e4) = true := by
  decide +kernel

/-- V-FMUL-6: R mod p of R150. -/
theorem test_fmul_reduces :
    nextIs (run (twoF 1 2 (2 ^ 128) (2 ^ 128)) 0x00021003)
      (fun t => fNum t 0 == some 0x0e0a77c19a07df2f666ea36f7879462c0a78eb28f5c70b3dd35d438dc58f0d9d) = true := by
  decide +kernel

/-- V-FINV-2. -/
theorem test_finv_two :
    nextIs (run (twoF 1 1 2 2) 0x00001004)
      (fun t => fNum t 0 == some 0x183227397098d014dc2822db40c0ac2ecbc0b548b438e5469e10460b6c3e7ea4) = true := by
  decide +kernel

/-- V-FINV-6: zero has no inverse. -/
theorem test_finv_zero :
    nextIs (run (twoF 1 1 0 0) 0x00001004) (fun t => fNum t 0 == none && statusOf t == 0x402) = true := by decide +kernel

/-- V-FLD-3: the largest element, slot 2. -/
theorem test_fld_largest :
    nextIs (run (withIn State.reset 64 (pLit - 1)) 0x00020508)
      (fun t => fNum t 5 == some (pLit - 1) && statusOf t == 0x2) = true := by decide +kernel

/-- V-FLD-4: p itself is out of range, slot 3. -/
theorem test_fld_out_of_range :
    nextIs (run (withIn State.reset 96 pLit) 0x00030508) (fun t => fNum t 5 == none && statusOf t == 0x202) = true := by
  decide +kernel

/-- V-FST-1: slot 1, big-endian, slot 0 unchanged. -/
theorem test_fst_slot_one :
    nextIs (run (twoF 4 4 0x0102 0x0102) 0x00014009)
      (fun t => t.outByte 62 == 1 && t.outByte 63 == 2 && outNum t 32 == 0x0102 && outNum t 0 == 0) = true := by
  decide +kernel

/-- V-FST-3: an Invalid source. -/
theorem test_fst_uninit :
    nextIs (run State.reset 0x00004009) (fun t => outNum t 0 == 0 && statusOf t == 0x602) = true := by decide +kernel

/-- V-PCHK-2: (1, p-2) is on the curve. -/
theorem test_pchk_on :
    nextIs (run (twoF 0 1 1 (pLit - 2)) 0x00010010) (fun t => statusOf t == 0xA) = true := by decide +kernel

/-- V-PCHK-7: the pair (1, 3) clears a FLAG that is set. -/
theorem test_pchk_off :
    nextIs (run ((twoF 0 1 1 3).writeFlag true) 0x00010010) (fun t => statusOf t == 0x2) = true := by decide +kernel

/-- V-PDEC-2: (0, 0) is INF. -/
theorem test_pdec_inf :
    nextIs (run (twoF 0 1 0 0) 0x00010211) (fun t => pNum t 2 == some none && statusOf t == 0x2) = true := by
  decide +kernel

/-- V-PDEC-3: (0, 1) is not on the curve. -/
theorem test_pdec_off :
    nextIs (run (twoF 0 1 0 1) 0x00010211) (fun t => pNum t 2 == none && statusOf t == 0x302) = true := by decide +kernel

/-- V-PADD-9: doubling, in place. -/
theorem test_padd_doubles :
    nextIs (run (State.reset.writeP 0 g1) 0x00000012) (fun t => pNum t 0 == some (some (x2G, y2G))) = true := by
  decide +kernel

/-- V-PADD-6: the chord, G + 2G = 3G. -/
theorem test_padd_chord :
    nextIs (run ((State.reset.writeP 0 g1).writeP 1 g2) 0x00010212)
      (fun t => pNum t 2 == some (some (x3G, y3G)) && statusOf t == 0x2) = true := by decide +kernel

/-- V-PENC-1 and V-HOST-15: F14 and F15, REGVALID. -/
theorem test_penc_pair :
    nextIs (run (State.reset.writeP 3 g1) 0x00003E13)
      (fun t => fNum t 14 == some 1 && fNum t 15 == some 2 && t.read32 0xCC == 0x0008C000) = true := by decide +kernel

/-- Program 4, step 4: PENC with odd rd is illegal. -/
theorem test_penc_odd :
    nextIs (run (State.reset.writeP 0 g1) 0x00000313) (fun t => statusOf t == 0x502 && t.regValid == 0x00010000) = true := by
  decide +kernel

/-- V-PLD-2: 64 zero bytes are INF. -/
theorem test_pld_inf :
    nextIs (run State.reset 0x00010118) (fun t => pNum t 1 == some none && statusOf t == 0x2) = true := by decide +kernel

/-- V-PLD-7: (1, p + 2) is out of range although its residue is on the curve. -/
theorem test_pld_out_of_range :
    nextIs (run (withIn (withIn State.reset 0 1) 32 (pLit + 2)) 0x00000118)
      (fun t => pNum t 1 == none && statusOf t == 0x202) = true := by decide +kernel

/-- V-PST-1. -/
theorem test_pst :
    nextIs (run (State.reset.writeP 2 g2) 0x00002019) (fun t => outNum t 0 == x2G && outNum t 32 == y2G) = true := by
  decide +kernel

/-- V-PST-2: INF over bytes that are not zero. -/
theorem test_pst_inf :
    nextIs (run ((State.reset.writeP 2 .inf).memWrite 0 (List.replicate 64 0x11)) 0x00002019)
      (fun t => outNum t 0 == 0 && outNum t 32 == 0) = true := by decide +kernel

/-- V-SRC-1: the source's one worked example. -/
theorem test_add_fixture :
    nextIs (run (addInput fx1 fy1 fx2 fy2 128) 0x00000020)
      (fun t => outNum t 0 == 0x2243525c5efd4b9c3d3c45ac0ca3fe4dd85e830a4ce6b65fa1eeaee202839703 &&
        outNum t 32 == 0x301d1d33be6da8e509df21cc35964723180eed7532537db9ae5e7d48f195c915 && statusOf t == 0x2) = true := by
  decide +kernel

/-- V-ADD-15 and V-ADD-19: A's error masks B's, the length masks both. -/
theorem test_add_error_order :
    nextIs (run (addInput 1 3 pLit fy2 128) 0x00000020) (fun t => statusOf t == 0x302) = true ∧
    nextIs (run (addInput 1 3 fx2 fy2 127) 0x00000020) (fun t => statusOf t == 0x102) = true := by decide +kernel

/-! ### The port -/

/-- V-HOST-1: lanes of a 32-bit write. -/
theorem test_host_lanes :
    nextIs (State.reset.writeAt 0x00 32 0xcf8ab118)
      (fun t => t.inByte 0 == 0x18 && t.inByte 1 == 0xb1 && t.inByte 2 == 0x8a && t.inByte 3 == 0xcf) = true := by
  decide +kernel

/-- V-HOST-2: lanes of a 32-bit read. -/
theorem test_host_read_lanes :
    nextIs ((State.reset.memWrite 0 [0x22, 0x43, 0x52, 0x5c]).readAt 0x80 32) (fun t => t.lastRead == some 0x5c524322) =
      true := by decide +kernel

/-- V-HOST-3 and V-HOST-4: byte writes, idle and busy. -/
theorem test_host_byte_writes :
    nextIs (State.reset.writeAt 0x05 8 0xAB) (fun t => t.inByte 5 == 0xAB && !t.ovr) = true ∧
    nextIs (busyState.writeAt 0x05 8 0xAB) (fun t => t.inByte 5 == 0 && t.ovr) = true := by decide +kernel

/-- V-HOST-8 to V-HOST-10: bus errors. -/
theorem test_host_bus_errors :
    State.reset.readAt 0xC4 8 = .fault .busError ∧ State.reset.readAt 0x02 32 = .fault .busError ∧
      State.reset.readAt 0x00 16 = .fault .busError := ⟨rfl, rfl, rfl⟩

/-- V-HOST-11 and V-HOST-12: acceptance, then an overrun. -/
theorem test_host_acceptance_and_overrun :
    nextIs (State.reset.writeAt 0xC0 32 0x118) (fun t => t.cmd == 0x118 && statusOf t == 0x1) = true ∧
    nextIs (busyState.writeAt 0xC0 32 0x20) (fun t => t.cmd == 0x118 && statusOf t == 0x5) = true := by decide +kernel

/-! ### Witnesses: encoding -/

theorem witness_DecodeOfEncodeIsIdentity : Instr.wf (.penc 14 3) = true := by decide

theorem witness_EncodeOfDecodeIsIdentity : decode 0x00003E13 = .ok (.penc 14 3) := by decide

theorem witness_AtMostOneRowMatches :
    (⟨.add, 0x00000020, 0xFFFFFFFF⟩ : OpcodeRow) ∈ opcodeMap ∧ (0x20 : Word) &&& 0xFFFFFFFF = 0x20 := by decide

theorem witness_ReservedEncodingsIllegal :
    (0x21 : Word).toNat % 256 ∉ [0x01, 0x02, 0x03, 0x04, 0x08, 0x09, 0x10, 0x11, 0x12, 0x13, 0x18, 0x19, 0x20] ∧
    (⟨.penc, 0x00000013, 0xFFFFC1FF⟩ : OpcodeRow) ∈ opcodeMap ∧ (0x313 : Word).toNat % 256 = (0x13 : Word).toNat % 256 ∧
      (0x313 : Word) &&& 0xFFFFC1FF ≠ 0x13 := by decide

/-- Both sides of each bound's boundary: FST and PLD take slots 0 and 1 (R105), FLD 0 to 3, PENC an even register. -/
theorem witness_AssemblerNeverWraps :
    assemble .fst [.f 15, .slot 1] = some (.fst 15 1) ∧ assemble .fst [.f 15, .slot 2] = none ∧
      assemble .pld [.p 3, .slot 1] = some (.pld 3 1) ∧ assemble .pld [.p 3, .slot 2] = none ∧
      assemble .fld [.f 0, .slot 3] = some (.fld 0 3) ∧ assemble .penc [.f 14, .p 3] = some (.penc 14 3) ∧
      assemble .pdbl [.p 3, .p 0] = some (.padd 3 0 0) ∧
      assembleLine "penc f14, p3".toList = some (.penc 14 3) := by decide +kernel

theorem witness_AssemblerNeverWraps_inRange :
    asmInRange .fst [.f 15, .slot 1] ∧ ¬asmInRange .fst [.f 15, .slot 2] ∧ asmInRange .penc [.f 14, .p 3] :=
  ⟨⟨.cons (show 15 < 16 by decide) (.cons (show 1 < 2 by decide) .nil), fun h => by cases h⟩,
    fun ⟨h, _⟩ => by cases h with | cons _ h => cases h with | cons h _ => exact absurd h (show ¬2 < 2 by decide),
    ⟨.cons (show 14 < 16 by decide) (.cons (show 3 < 4 by decide) .nil), fun _ => ⟨14, _, rfl, by decide⟩⟩⟩

/-- A mnemonic in mixed case, the largest operands, and a command with none. -/
theorem witness_AssemblyLineReadsBack :
    asmInRange .penc [.f 14, .p 3] ∧ "pEnC".toList.map capital = asmName .penc ∧ asmInRange .add [] ∧
      "add".toList.map capital = asmName .add ∧ Instr.wf (.penc 14 3) = true :=
  ⟨witness_AssemblerNeverWraps_inRange.2.2, by decide, ⟨.nil, fun h => by cases h⟩, by decide, by decide⟩

/-! ### Witnesses: steps, acceptance, completion -/

/-- A state with the given events to come. -/
def planned (s : State) (events : List Event) : State := { s with schedule := events }

theorem witness_StepRunsDecodedCommand :
    busyState.inflight = some 0x118 ∧ decode 0x118 = .ok (.pld 1 0) ∧ busyState.schedule = [] ∧
      (planned busyState [.engine]).inflight = some 0x118 ∧ (planned busyState [.engine]).schedule = [.engine] := by
  decide +kernel

theorem witness_StepPerformsHostAccess :
    (planned State.reset [.access (.read (Config.base + 0xFF) 8)]).schedule = .access (.read (Config.base + 0xFF) 8) :: [] ∧
    (planned State.reset [.access (.write (Config.base + 0) 32 1)]).schedule = .access (.write (Config.base + 0) 32 1) :: [] ∧
    Config.base + 256 ≤ Config.base + 256 ∧
    (planned State.reset [.accessDuringReset (.read 0 8)]).schedule = .accessDuringReset (.read 0 8) :: [] :=
  ⟨rfl, rfl, by omega, rfl⟩

theorem witness_IdleEngineKeepsState :
    State.reset.inflight = none ∧ State.reset.schedule = [] ∧ (planned State.reset [.engine]).inflight = none ∧
      (planned State.reset [.engine]).schedule = [.engine] := ⟨rfl, rfl, rfl, rfl⟩

theorem witness_AcceptanceEffect : State.reset.busy = false := rfl

theorem witness_IllegalCommandEndsWithCode5 :
    decode 0x313 = .error .mustBeZeroBitSet ∧ State.reset.busy = false ∧
      (State.reset.accept 0x313).inflight = some 0x313 ∧ (State.reset.accept 0x313).schedule = [] ∧
      (planned (State.reset.accept 0x313) [.engine]).inflight = some 0x313 ∧
      (planned (State.reset.accept 0x313) [.engine]).schedule = [.engine] := by decide +kernel

theorem witness_CompletionFrame : ∃ t, exec (.pld 1 0) busyState = .next t := has_next (by decide +kernel)

theorem witness_OverrunDropsWrites_dropped :
    busyState.busy = true ∧ (0x7C % 4 = 0 ∧ 0x7C < 0x80) ∧ 0x7F < 0x80 := by decide +kernel

theorem witness_OverrunDropsWrites_completion : ∃ t, busyState.overrun.engineTurn = .next t :=
  has_next (by decide +kernel)

/-- OVR set: an acceptance clears it, a store to IN does not. -/
theorem witness_OverrunDropsWrites_kept :
    State.reset.overrun.ovr = true ∧ (∃ t, State.reset.overrun.writeAt 0xC0 32 1 = .next t ∧ !t.ovr) ∧
      ∃ t, State.reset.overrun.writeAt 0x7C 32 1 = .next t ∧ t.ovr :=
  ⟨rfl, exists_next (by decide +kernel), exists_next (by decide +kernel)⟩

theorem witness_OverrunDropsWrites_read : ∃ t, busyState.readAt 0xFF 8 = .next t := has_next (by decide +kernel)

theorem witness_OverrunDropsWrites_readOnly :
    (∃ t, busyState.writeAt 0xBF 8 1 = .next t) ∧ (∃ t, busyState.writeAt 0xC4 32 1 = .next t) ∧
      (∃ t, busyState.writeAt 0xCC 32 1 = .next t) ∧ ∃ t, busyState.writeAt 0xFC 32 1 = .next t :=
  ⟨has_next (by decide +kernel), has_next (by decide +kernel), has_next (by decide +kernel), has_next (by decide +kernel)⟩

theorem hostAccess_write (s : State) (off width : Nat) (data : Word) (h : off < 256) :
    s.hostAccess (.write (Config.base + off) width data) = s.writeAt off width data := by
  simp only [State.hostAccess, offsetOf_base h]

/-- An access while the command is in flight, and a command in flight that halts at the guard of R165. -/
theorem witness_BusyHostCannotChangeResult :
    busyState.busy = true ∧ busyState.hostAccess (.write (Config.base + 0x7C) 32 1) = .next busyState.overrun ∧
      (∃ t, busyState.engineTurn = .next t) ∧
      (((State.reset.writeP 0 (.aff (el 5) (el 0))).writeP 1 (.aff (el 5) (el 1))).accept 0x00010212).engineTurn =
        .fault .divisionByZeroGuard :=
  ⟨rfl, by rw [hostAccess_write _ _ _ _ (by decide)]; rfl, has_next (by decide +kernel), by
    have h : ∀ o : StepResult, (match o with | .fault r => decide (r = .divisionByZeroGuard) | _ => false) = true →
        o = .fault .divisionByZeroGuard := by
      intro o ho
      cases o with
      | next t => cases ho
      | fault r => simpa using ho
      | refused r => cases ho
    exact h _ (by decide +kernel)⟩

/-! ### Witnesses: the port and the control registers -/

/-- Boundary offsets and widths of both clauses of PortRefusals. -/
theorem witness_PortRefusals :
    ((0xBF < 0xC0 ∨ 0xD0 ≤ 0xBF) ∧ (0xD0 < 0xC0 ∨ 0xD0 ≤ 0xD0) ∧ 0xFC % 4 = 0 ∧ 0xFF < 256) ∧
      (0xFE % 4 ≠ 0 ∧ (0xC0 ≤ 0xC0 ∧ 0xC0 < 0xD0) ∧ (0xC0 ≤ 0xCF ∧ 0xCF < 0xD0) ∧ (16 ≠ 8 ∧ 16 ≠ 32) ∧
        256 < 0xFD + 32 / 8) := by decide

theorem witness_ReadOnlyAndReservedAccess :
    (∃ t, State.reset.writeAt 0x80 8 1 = .next t) ∧ (∃ t, State.reset.writeAt 0xC4 32 1 = .next t) ∧
      (∃ t, State.reset.writeAt 0xCC 32 1 = .next t) ∧ (∃ t, State.reset.writeAt 0xD0 8 1 = .next t) ∧
      (∃ t, State.reset.readAt 0xFF 8 = .next t) ∧ ∃ t, State.reset.readAt 0 32 = .next t :=
  ⟨has_next (by decide +kernel), has_next (by decide +kernel), has_next (by decide +kernel), has_next (by decide +kernel),
    has_next (by decide +kernel), has_next (by decide +kernel)⟩

theorem witness_LittleEndianLanes :
    (0xBC % 4 = 0 ∧ 0xBC < 0xC0) ∧ (0xD0 % 4 = 0 ∧ 0xD0 ≤ 0xD0 ∧ 0xD0 < 256) ∧ (0xFC % 4 = 0 ∧ 0xD0 ≤ 0xFC ∧ 0xFC < 256) ∧
      (0x7C % 4 = 0 ∧ 0x7C < 0x80) ∧ State.reset.busy = false ∧ busyState.busy = true := by decide +kernel

theorem witness_ByteAccesses : 0xBF < 0xC0 ∧ 0x7F < 0x80 ∧ State.reset.busy = false ∧ busyState.busy = true := by
  decide +kernel

theorem witness_StatusLayout :
    (∃ t, State.reset.writeAt 0xC4 32 1 = .next t) ∧ busyState.Inv ∧ busyState.busy = true :=
  ⟨has_next (by decide +kernel),
    ⟨by decide +kernel, fun r q h => by simp [busyState, State.reset_pCell] at h, fun w h => by cases h; exact ⟨rfl, rfl, rfl⟩⟩,
    rfl⟩

theorem witness_RegValidLayout :
    (∃ t, State.reset.writeAt 0xCC 32 1 = .next t) ∧ 20 ≤ 20 ∧
      ∃ t, State.reset.hostAccess (.write (Config.base + 0xCC) 32 1) = .next t :=
  ⟨has_next (by decide +kernel), by decide, by rw [hostAccess_write _ _ _ _ (by decide)]; exact has_next (by decide +kernel)⟩

theorem witness_CmdRegister :
    State.reset.busy = false ∧ (∃ t, busyState.engineTurn = .next t) ∧
      (∃ t, State.reset.hostAccess (.write (Config.base + 0xC0) 32 1) = .next t) ∧ busyState.busy = true :=
  ⟨rfl, has_next (by decide +kernel), by rw [hostAccess_write _ _ _ _ (by decide)]; exact has_next (by decide +kernel), rfl⟩

theorem witness_InlenRegister :
    State.reset.busy = false ∧ (Instr.pld 1 0 ≠ .add ∧ ∃ t, exec (.pld 1 0) busyState = .next t) ∧
      (addInput fx1 fy1 fx2 fy2 127).inlen ≠ 128 ∧ (addInput fx1 fy1 fx2 fy2 129).inlen ≠ 128 ∧
      (0x7F < 0x80 ∧ (∃ t, State.reset.readAt 0x7F 8 = .next t) ∧ ∃ t, State.reset.writeAt 0x7F 8 1 = .next t) ∧
      busyState.busy = true :=
  ⟨rfl, ⟨by decide, has_next (by decide +kernel)⟩, by decide +kernel, by decide +kernel,
    ⟨by decide, has_next (by decide +kernel), has_next (by decide +kernel)⟩, rfl⟩

theorem witness_StatusAfterAcceptance :
    (State.reset.writeFlag true).busy = false ∧ ∃ t, (State.reset.writeFlag true).writeAt 0xC0 32 1 = .next t :=
  ⟨rfl, has_next (by decide +kernel)⟩

/-- A command in flight; a write that is dropped and sets OVR, as an access and as the next step; the completion. -/
theorem witness_StatusAfterAcceptance_busy :
    busyState.busy = true ∧ busyState.done = false ∧ busyState.code = .ok ∧
      (∃ t, busyState.hostAccess (.write (Config.base + 0xC0) 32 1) = .next t ∧ t.ovr = true) ∧
      (∃ t, step (planned busyState [.access (.write (Config.base + 0xC0) 32 1)]) = .next t ∧ t.ovr = true) ∧
      ∃ t, busyState.engineTurn = .next t := by
  refine ⟨rfl, rfl, rfl, ?_, ?_, has_next (by decide +kernel)⟩
  · rw [hostAccess_write _ _ _ _ (by decide)]; exact exists_next (by decide +kernel)
  · rw [step_cons (rest := []) rfl, State.takeEvent, hostAccess_write _ _ _ _ (by decide)]
    exact exists_next (by decide +kernel)

/-! ### Witnesses: reset -/

theorem witness_ResetEvent :
    (planned busyState [.reset]).schedule = .reset :: [] ∧
      (∃ t, step (twoF 1 2 0 (pLit - 1)) = .next t) ∧ (∀ rest, (twoF 1 2 0 (pLit - 1)).schedule ≠ .reset :: rest) ∧
      (twoF 1 2 0 (pLit - 1)).fCell 1 = .valid (el 0) ∧ (State.reset.writeP 3 g1).pCell 3 = .valid g1 ∧
      ∃ t, step (State.reset.writeP 3 g1) = .next t :=
  ⟨rfl, ⟨_, rfl⟩, fun _ h => (by cases h), by decide +kernel, by decide +kernel, ⟨_, rfl⟩⟩

theorem witness_ResetForgetsEverything :
    (planned busyState [.reset]).schedule = .reset :: [] ∧ (planned (twoF 1 2 3 4) [.reset]).schedule = .reset :: [] :=
  ⟨rfl, rfl⟩

/-! ### Witnesses: rules about every command -/

/-- An Invalid F source, an Invalid P source. -/
theorem witness_UninitRegisterErrors_invalid :
    Instr.wf (.fadd 0 1 2) = true ∧ (2 : FReg) ∈ fSources (.fadd 0 1 2) ∧ (twoF 1 1 5 5).fCell 2 = .invalid ∧
      Instr.wf (.padd 2 0 1) = true ∧ (1 : PReg) ∈ pSources (.padd 2 0 1) ∧
      (State.reset.writeP 0 g1).pCell 1 = .invalid := by decide +kernel

/-- Valid sources and a command that completes with code 0. -/
theorem witness_UninitRegisterErrors_valid :
    (∀ r ∈ fSources (.fadd 0 1 2), (twoF 1 2 5 5).fCell r ≠ .invalid) ∧
      (∀ r ∈ pSources (.fadd 0 1 2), (twoF 1 2 5 5).pCell r ≠ .invalid) ∧
      ∃ t, exec (.fadd 0 1 2) (twoF 1 2 5 5) = .next t ∧ decide (t.code = .ok) = true :=
  ⟨by decide +kernel, by decide +kernel, exists_next (by decide +kernel)⟩

theorem witness_ErrorsWriteNothing :
    (∃ t, exec .add busyState = .next t ∧ decide (t.code ≠ .ok) = true) ∧
      (State.reset.accept 0x313).inflight = some 0x313 ∧
      ∃ t, (State.reset.accept 0x313).engineTurn = .next t ∧ decide (t.code ≠ .ok) = true :=
  ⟨exists_next (by decide +kernel), rfl, exists_next (by decide +kernel)⟩

theorem witness_FieldRegisterFrame :
    (∃ t, exec (.penc 14 3) (State.reset.writeP 3 g1) = .next t) ∧ (0 : FReg) ∉ fDests (.penc 14 3) :=
  ⟨has_next (by decide +kernel), by decide⟩

theorem witness_PointRegisterFrame :
    (∃ t, exec (.pld 1 0) State.reset = .next t) ∧ (0 : PReg) ∉ pDests (.pld 1 0) := ⟨has_next (by decide +kernel), by decide⟩

/-- Another command, a PCHK that fails, and a PCHK on valid sources. -/
theorem witness_OnlyPchkWritesFlag :
    ((∃ t, exec (.pld 1 0) State.reset = .next t) ∧ ∀ r1 r2, Instr.pld 1 0 ≠ .pchk r1 r2) ∧
      (∃ t, exec (.pchk 0 1) State.reset = .next t ∧ decide (t.code ≠ .ok) = true) ∧
      ((twoF 0 1 1 2).fCell 0 = .valid (el 1) ∧ (twoF 0 1 1 2).fCell 1 = .valid (el 2)) ∧
      ∃ t, State.reset.hostAccess (.write (Config.base + 0xC0) 32 1) = .next t :=
  ⟨⟨has_next (by decide +kernel), fun _ _ h => by cases h⟩, exists_next (by decide +kernel),
    ⟨by decide +kernel, by decide +kernel⟩,
    by rw [hostAccess_write _ _ _ _ (by decide)]; exact has_next (by decide +kernel)⟩

/-- A command that stores a slot, and the boundary bytes outside it. -/
theorem witness_MemoryFrame :
    (∃ t, exec (.fst 4 1) (twoF 4 4 5 5) = .next t) ∧ 0x9F < (storeRange (.fst 4 1)).1 ∧ (storeRange (.fst 4 1)).2 ≤ 0xC0 :=
  ⟨has_next (by decide +kernel), by decide, by decide⟩

/-! ### Witnesses: the field unit -/

/-- Valid sources, and Invalid ones. -/
theorem witness_FaddResult :
    (twoF 1 2 (pLit - 1) 1).fCell 1 = .valid (el (pLit - 1)) ∧ (twoF 1 2 (pLit - 1) 1).fCell 2 = .valid (el 1) ∧
      (State.reset.fCell 1 = .invalid ∨ State.reset.fCell 2 = .invalid) := by decide +kernel

theorem witness_FsubResult :
    (twoF 1 2 0 1).fCell 1 = .valid (el 0) ∧ (twoF 1 2 0 1).fCell 2 = .valid (el 1) ∧
      (State.reset.fCell 1 = .invalid ∨ State.reset.fCell 2 = .invalid) := by decide +kernel

theorem witness_FmulResult :
    (twoF 1 2 (pLit - 1) 2).fCell 1 = .valid (el (pLit - 1)) ∧ (twoF 1 2 (pLit - 1) 2).fCell 2 = .valid (el 2) ∧
      (State.reset.fCell 1 = .invalid ∨ State.reset.fCell 2 = .invalid) := by decide +kernel

theorem witness_FinvResult :
    ((twoF 1 2 1 0).fCell 1 = .valid (el 1) ∧ (el 1).val ≠ 0) ∧ ((twoF 1 2 1 0).fCell 2 = .valid (el 0) ∧ (el 0).val = 0) ∧
      State.reset.fCell 3 = .invalid := by decide +kernel

/-- The largest element, and p, in slot 3. -/
theorem witness_FldResult :
    elemAt (withIn State.reset 96 (pLit - 1)) (32 * (3 : Fin 4).val) < Config.p ∧
      Config.p ≤ elemAt (withIn State.reset 96 pLit) (32 * (3 : Fin 4).val) := by decide +kernel

theorem witness_FstResult : (twoF 4 4 (pLit - 1) (pLit - 1)).fCell 4 = .valid (el (pLit - 1)) ∧ State.reset.fCell 4 = .invalid := by
  decide +kernel

/-! ### Witnesses: the point unit, the codec and ADD -/

theorem witness_PchkResult :
    ((twoF 0 1 1 2).fCell 0 = .valid (el 1) ∧ (twoF 0 1 1 2).fCell 1 = .valid (el 2) ∧ curveEq (el 1).val (el 2).val) ∧
      ((twoF 0 1 0 1).fCell 0 = .valid (el 0) ∧ (twoF 0 1 0 1).fCell 1 = .valid (el 1) ∧ ¬curveEq (el 0).val (el 1).val) ∧
      (State.reset.fCell 0 = .invalid ∨ State.reset.fCell 1 = .invalid) := by
  unfold curveEq; decide +kernel

theorem witness_PdecResult :
    ((twoF 0 1 0 0).fCell 0 = .valid (el 0) ∧ (twoF 0 1 0 0).fCell 1 = .valid (el 0) ∧ (el 0).val = 0) ∧
      ((twoF 0 1 1 2).fCell 0 = .valid (el 1) ∧ (twoF 0 1 1 2).fCell 1 = .valid (el 2) ∧
        ¬((el 1).val = 0 ∧ (el 2).val = 0) ∧ curveEq (el 1).val (el 2).val) ∧
      ((twoF 0 1 0 1).fCell 0 = .valid (el 0) ∧ (twoF 0 1 0 1).fCell 1 = .valid (el 1) ∧
        ¬((el 0).val = 0 ∧ (el 1).val = 0) ∧ ¬curveEq (el 0).val (el 1).val) ∧
      (State.reset.fCell 0 = .invalid ∨ State.reset.fCell 1 = .invalid) := by
  unfold curveEq; decide +kernel

/-- Two valid points, among them equal ones (the doubling) and INF. -/
theorem witness_PaddResult :
    ((State.reset.writeP 0 g1).writeP 1 g2).pCell 0 = .valid g1 ∧ ((State.reset.writeP 0 g1).writeP 1 g2).pCell 1 = .valid g2 ∧
      (State.reset.writeP 0 .inf).pCell 0 = .valid .inf ∧ g1.wf = true ∧ g2.wf = true ∧ Point.wf .inf = true ∧
      (State.reset.pCell 0 = .invalid ∨ State.reset.pCell 1 = .invalid) := by decide +kernel

theorem witness_PencResult :
    (14 : FReg).val % 2 = 0 ∧ (el 0).val = 0 ∧ (State.reset.writeP 3 .inf).pCell 3 = .valid .inf ∧
      (State.reset.writeP 3 g1).pCell 3 = .valid (.aff (el 1) (el 2)) ∧ State.reset.pCell 3 = .invalid ∧
      (15 : FReg).val % 2 = 1 := by decide +kernel

/-- IN holds (1, 2) in point slot 1. -/
theorem holds_g1 : holdsPoint (addInput 0 pLit 1 2 128) 64 g1 :=
  .inr ⟨el 1, el 2, by decide +kernel, by decide +kernel, by decide +kernel,
    (by unfold curveEq; decide +kernel), rfl⟩

theorem holds_inf : holdsPoint State.reset 0 .inf := .inl ⟨by decide +kernel, by decide +kernel, rfl⟩

/-- Slot 1 holds G; slot 0 holds a coordinate equal to p, the first or the second; (0, 1) is off the curve; zeros are INF. -/
theorem witness_PldResult :
    holdsPoint (addInput 0 pLit 1 2 128) (64 * (1 : Fin 2).val) g1 ∧ holdsPoint State.reset (64 * (0 : Fin 2).val) .inf ∧
      outOfRangeAt (addInput 0 pLit 1 2 128) (64 * (0 : Fin 2).val) ∧
      outOfRangeAt (addInput pLit 3 1 2 128) (64 * (0 : Fin 2).val) ∧
      offCurveAt (addInput 0 1 0 0 128) (64 * (0 : Fin 2).val) := by
  refine ⟨holds_g1, holds_inf, ?_, ?_, ?_⟩
  · unfold outOfRangeAt; decide +kernel
  · unfold outOfRangeAt; decide +kernel
  · unfold offCurveAt curveEq; decide +kernel

theorem witness_PstResult : (State.reset.writeP 2 g2).pCell 2 = .valid g2 ∧ State.reset.pCell 2 = .invalid := by
  decide +kernel

theorem witness_CodecIsBijective :
    g2.wf = true ∧ Point.wf .inf = true ∧ (encodePoint g2).length = 64 ∧ decodePoint (encodePoint g2) = .ok g2 := by
  refine ⟨by decide +kernel, rfl, by decide +kernel, ?_⟩
  have h : ∀ r : Except Exit Point, (match r with | .ok q => decide (q = g2) | .error _ => false) = true → r = .ok g2 := by
    intro r hr
    cases r with
    | ok q => exact congrArg _ (by simpa using hr)
    | error e => cases hr
  exact h _ (by decide +kernel)

theorem witness_AddResult :
    (addInput 0 0 1 2 128).inlen = 128 ∧ holdsPoint (addInput 0 0 1 2 128) 0 .inf ∧
      holdsPoint (addInput 0 0 1 2 128) 64 g1 :=
  ⟨rfl, .inl ⟨by decide +kernel, by decide +kernel, rfl⟩, .inr ⟨el 1, el 2, by decide +kernel, by decide +kernel,
    by decide +kernel, (by unfold curveEq; decide +kernel), rfl⟩⟩

/-- One state per clause: a wrong length, A out of range, A off the curve, B out of range, B off the curve. -/
theorem witness_AddErrorOrder :
    (addInput 1 3 1 2 127).inlen ≠ 128 ∧
      ((addInput pLit 0 1 2 128).inlen = 128 ∧ outOfRangeAt (addInput pLit 0 1 2 128) 0) ∧
      ((addInput 0 1 pLit 2 128).inlen = 128 ∧ offCurveAt (addInput 0 1 pLit 2 128) 0) ∧
      ((addInput 0 0 1 pLit 128).inlen = 128 ∧ outOfRangeAt (addInput 0 0 1 pLit 128) 64) ∧
      ((addInput 0 0 0 1 128).inlen = 128 ∧ offCurveAt (addInput 0 0 0 1 128) 64) := by
  unfold outOfRangeAt offCurveAt curveEq; decide +kernel

/-- A is INF in the last two states of `witness_AddErrorOrder`. -/
theorem witness_AddErrorOrder_A :
    holdsPoint (addInput 0 0 1 pLit 128) 0 .inf ∧ holdsPoint (addInput 0 0 0 1 128) 0 .inf :=
  ⟨.inl ⟨by decide +kernel, by decide +kernel, rfl⟩, .inl ⟨by decide +kernel, by decide +kernel, rfl⟩⟩

theorem witness_AddUsesNoRegister : ∃ t, exec .add (addInput fx1 fy1 fx2 fy2 128) = .next t := has_next (by decide +kernel)

/-! ### Witnesses: the curve, invariants and runs -/

theorem witness_CurveFacts : (el 0).val = 0 ∧ (el 1).val = 1 ∧ (el 2).val = 2 := by decide +kernel

/-- The guard's pair, and the pair the spec gives no step. -/
theorem witness_PaddHaltsOnlyOffCurve :
    (((el 0).val + (el 1).val) % Config.p ≠ 0 ∧ (el 0).val ≠ (el 1).val ∧ (el 0).val = 0) ∧
      (((el 1).val + (el 2).val) % Config.p ≠ 0 ∧ (el 1).val ≠ (el 2).val ∧ (el 1).val ≠ 0) ∧
      ((State.reset.writeP 0 (.aff (el 5) (el 0))).writeP 1 (.aff (el 5) (el 1))).pCell 0 = .valid (.aff (el 5) (el 0)) ∧
      ((State.reset.writeP 0 (.aff (el 5) (el 0))).writeP 1 (.aff (el 5) (el 1))).pCell 1 = .valid (.aff (el 5) (el 1)) ∧
      ((State.reset.writeP 0 (.aff (el 5) (el 1))).writeP 1 (.aff (el 5) (el 2))).pCell 0 = .valid (.aff (el 5) (el 1)) ∧
      ((State.reset.writeP 0 (.aff (el 5) (el 1))).writeP 1 (.aff (el 5) (el 2))).pCell 1 = .valid (.aff (el 5) (el 2)) := by
  decide +kernel

/-- Some PADD halts. -/
theorem witness_PaddHaltsOnlyOffCurve_fault :
    ∃ f, exec (.padd 2 0 1) ((State.reset.writeP 0 (.aff (el 5) (el 1))).writeP 1 (.aff (el 5) (el 2))) = .fault f := by
  have h : ∀ o : StepResult, (match o with | .fault _ => true | _ => false) = true → ∃ f, o = .fault f := by
    intro o ho
    cases o with
    | next t => cases ho
    | fault r => exact ⟨r, rfl⟩
    | refused r => cases ho
  exact h _ (by decide +kernel)

theorem witness_PointAddGroupLaws : g1.wf = true ∧ g2.wf = true := by decide +kernel

theorem witness_PointAddAssociative : g1.wf = true ∧ g2.wf = true ∧ Point.wf .inf = true := by decide +kernel

/-- The invariant holds with a command in flight, and the step completes it. -/
theorem witness_StepKeepsInv : busyState.Inv ∧ ∃ t, step busyState = .next t :=
  ⟨witness_StatusLayout.2.1, has_next (by decide +kernel)⟩

theorem witness_EveryCommandCompletes : (State.reset.writeP 0 g1).pointsValid := by
  have h : ∀ r : PReg, (match (State.reset.writeP 0 g1).pCell r with | .valid q => q.wf | .invalid => true) = true := by
    decide +kernel
  intro r q hq
  have := h r
  rw [hq] at this
  exact this

/-- A host write of CMD, the engine's turn, a reset. -/
theorem witness_EveryScheduleDrains :
    (planned busyState [.access (.write (Config.base + 0xFC) 32 1), .engine, .reset]).Inv ∧
      (planned busyState [.access (.write (Config.base + 0xFC) 32 1), .engine, .reset]).scheduleServed = true := by
  refine ⟨⟨witness_StatusLayout.2.1.1, witness_StatusLayout.2.1.2, witness_StatusLayout.2.1.3⟩, ?_⟩
  simp only [State.scheduleServed, planned, List.all_cons, List.all_nil, Event.served, Access.taken,
    offsetOf_base (show 0xFC < 256 by decide)]
  rfl

end Sys2Proof.Tests
end

section
/-! Memory frame of the commands (spec/00_scope.md R13, spec/20_memory.md R70): the bytes outside a command's store range. -/

namespace Sys2Proof.Slice0

open Sys2Proof Sys2Proof.Machine

/-- An element stored at a slot's offset stays in that slot's bytes of OUT (R105, R135). -/
theorem memoryKept_memWrite_elem (s : State) (slot : Nat) (v : Fp) :
    memoryKeptOutside s (s.memWrite (elemOffset slot) (toBE32 v)) (0x80 + 32 * slot) (0x80 + 32 * slot + 32) := fun _ ha =>
  Memory.read_writeBytes_outside _ _ _ _ (by rwa [length_toBE32])

/-- The writes of a successful command stay in its store range; a command that only writes registers or FLAG keeps the memory
itself. -/
theorem memoryKept_of_effect {i : Instr} {s u : State} (h : Effect i s u) :
    memoryKeptOutside s u (storeRange i).1 (storeRange i).2 := by
  cases i with
  | fadd => obtain ⟨a, c, -, -, rfl⟩ := h; exact fun _ _ => rfl
  | fsub => obtain ⟨a, c, -, -, rfl⟩ := h; exact fun _ _ => rfl
  | fmul => obtain ⟨a, c, -, -, rfl⟩ := h; exact fun _ _ => rfl
  | finv => obtain ⟨a, -, -, rfl⟩ := h; exact fun _ _ => rfl
  | fld => obtain ⟨v, -, rfl⟩ := h; exact fun _ _ => rfl
  | fst rs slot => obtain ⟨v, -, rfl⟩ := h; exact memoryKept_memWrite_elem s slot v
  | pchk => obtain ⟨x, y, -, -, rfl⟩ := h; exact fun _ _ => rfl
  | pdec => obtain ⟨x, y, q, -, -, -, rfl⟩ := h; exact fun _ _ => rfl
  | padd => obtain ⟨p1, p2, q, -, -, -, rfl⟩ := h; exact fun _ _ => rfl
  | penc => obtain ⟨q, -, -, rfl⟩ := h; exact fun _ _ => rfl
  | pld => obtain ⟨q, -, rfl⟩ := h; exact fun _ _ => rfl
  | pst => obtain ⟨q, -, rfl⟩ := h; exact memoryKept_memWrite s q
  | add => obtain ⟨a, b, c, -, -, -, -, rfl⟩ := h; exact memoryKept_memWrite s c

/-- Settles O34: a command that completes applied its writes, which stay in its store range, or reported an error and wrote
nothing. -/
theorem memoryFrame : Obligations.MemoryFrame := by
  intro i s t h
  rcases exec_next h with ⟨u, hu, rfl⟩ | ⟨e, rfl⟩
  · exact (memoryKept_complete s u .ok _ _).2 (memoryKept_of_effect hu)
  · exact fun a _ => congrArg (Memory.read · a) (s.raiseError_mem e)

end Sys2Proof.Slice0
end

section
/-! What a completed command may have written, said once: a successful command makes one of five kinds of write, each into a
destination of its own (spec/10_state.md R33, R35, R37, R44). The frames of the F registers, the P registers and FLAG follow. -/

namespace Sys2Proof.Machine

open Sys2Proof.Slice0

/-- The kinds of write a successful command i makes to s, before the status update of completion: an F destination, PENC's pair,
a P destination (with a valid point, when the P sources hold valid ones), bytes of OUT, or PCHK's FLAG. -/
inductive Writes (i : Instr) (s : State) : State → Prop where
  | field (r : FReg) (v : Fp) (hr : r ∈ fDests i) : Writes i s (s.writeF r v)
  | pair (r1 r2 : FReg) (v1 v2 : Fp) (h1 : r1 ∈ fDests i) (h2 : r2 ∈ fDests i) :
      Writes i s ((s.writeF r1 v1).writeF r2 v2)
  | point (r : PReg) (q : Point) (hr : r ∈ pDests i) (hq : s.pointsValid → q.wf = true) : Writes i s (s.writeP r q)
  | out (off : Nat) (bytes : List Byte) (hlen : off + bytes.length ≤ Config.outBytes) : Writes i s (s.memWrite off bytes)
  | flag (r1 r2 : FReg) (v : Bool) (hi : i = .pchk r1 r2) : Writes i s (s.writeFlag v)

/-- Every successful command makes one of these writes. -/
theorem Effect.writes {i : Instr} {s u : State} (h : Effect i s u) : Writes i s u := by
  cases i with
  | fadd rd => obtain ⟨a, c, -, -, rfl⟩ := h; exact .field rd _ (List.mem_singleton_self rd)
  | fsub rd => obtain ⟨a, c, -, -, rfl⟩ := h; exact .field rd _ (List.mem_singleton_self rd)
  | fmul rd => obtain ⟨a, c, -, -, rfl⟩ := h; exact .field rd _ (List.mem_singleton_self rd)
  | finv rd => obtain ⟨a, -, -, rfl⟩ := h; exact .field rd _ (List.mem_singleton_self rd)
  | fld rd => obtain ⟨v, -, rfl⟩ := h; exact .field rd v (List.mem_singleton_self rd)
  | fst rs slot =>
    obtain ⟨v, -, rfl⟩ := h
    refine .out _ _ ?_
    rw [length_toBE32]
    show 32 * slot.val + 32 ≤ 64
    omega
  | pchk r1 r2 => obtain ⟨x, y, -, -, rfl⟩ := h; exact .flag r1 r2 _ rfl
  | pdec pd =>
    obtain ⟨x, y, q, -, -, hq, rfl⟩ := h
    exact .point pd q (List.mem_singleton_self pd) fun _ => pointDecode_wf hq
  | padd pd ps1 ps2 =>
    obtain ⟨p1, p2, q, h1, h2, hq, rfl⟩ := h
    refine .point pd q (List.mem_singleton_self pd) fun hv => ?_
    obtain ⟨q', hq', hw⟩ := pointAdd_wf (hv ps1 p1 h1) (hv ps2 p2 h2)
    cases hq.symm.trans hq'
    exact hw
  | penc rd =>
    obtain ⟨q, -, -, rfl⟩ := h
    exact .pair rd _ _ _ (by simp [fDests]) (by simp [fDests, pairSecond_eq])
  | pld pd =>
    obtain ⟨q, hq, rfl⟩ := h
    exact .point pd q (List.mem_singleton_self pd) fun _ => decodePoint_wf hq
  | pst => obtain ⟨q, -, rfl⟩ := h; exact .out 0 _ (by rw [length_encodePoint])
  | add => obtain ⟨a, b, c, -, -, -, -, rfl⟩ := h; exact .out 0 _ (by rw [length_encodePoint])

variable {i : Instr} {s u : State}

/-- Only destinations of i among the F registers are written. -/
theorem Writes.fCell {r : FReg} (h : Writes i s u) (hr : r ∉ fDests i) : u.fCell r = s.fCell r := by
  have ne {r' : FReg} (h' : r' ∈ fDests i) : r ≠ r' := (ne_of_mem_of_not_mem h' hr).symm
  cases h with
  | field r' v h' => rw [State.writeF_fCell, if_neg (ne h')]
  | pair r1 r2 v1 v2 h1 h2 => rw [State.writeF_fCell, if_neg (ne h2), State.writeF_fCell, if_neg (ne h1)]
  | point | out | flag => rfl

/-- Only destinations of i among the P registers are written. -/
theorem Writes.pCell {r : PReg} (h : Writes i s u) (hr : r ∉ pDests i) : u.pCell r = s.pCell r := by
  cases h with
  | point r' q h' => rw [State.writeP_pCell, if_neg (ne_of_mem_of_not_mem h' hr).symm]
  | field | pair | out | flag => rfl

/-- FLAG is written by PCHK alone. -/
theorem Writes.flag_eq (h : Writes i s u) (hi : ∀ r1 r2, i ≠ .pchk r1 r2) : u.flag = s.flag := by
  cases h with
  | flag r1 r2 v hi' => exact absurd hi' (hi r1 r2)
  | field | pair | point | out => rfl

/-- Storing to OUT and writing registers keep the canonical form of memory. -/
theorem Writes.memWf (h : Writes i s u) (hm : Memory.wf s.mem = true) : Memory.wf u.mem = true := by
  cases h with
  | out off bytes hlen =>
    have hlen : off + bytes.length ≤ 64 := hlen
    exact Memory.wf_writeBytes s.mem (0x80 + off) bytes (by omega) hm
  | field | pair | point | flag => exact hm

/-- A P register that holds a valid point, written with a valid point, holds a valid point. -/
theorem State.pointsValid_writeP {r : PReg} {q : Point} (h : s.pointsValid) (hq : q.wf = true) :
    (s.writeP r q).pointsValid := by
  intro k q' hk
  rw [State.writeP_pCell] at hk
  split at hk
  · cases hk; exact hq
  · exact h k q' hk

/-- Every command's writes keep the P registers valid (R35). -/
theorem Writes.pointsValid (h : Writes i s u) (hv : s.pointsValid) : u.pointsValid := by
  cases h with
  | point r q hr hq => exact State.pointsValid_writeP hv (hq hv)
  | field | pair | out | flag => exact hv

end Sys2Proof.Machine

namespace Sys2Proof.Slice0

open Sys2Proof Sys2Proof.Machine

/-- Settles O31: a command that completes made its writes, which reach its F destinations alone, or reported an error. -/
theorem fieldRegisterFrame : Obligations.FieldRegisterFrame := by
  intro i s t r h hr
  rcases exec_next h with ⟨u, hu, rfl⟩ | ⟨e, rfl⟩
  · exact hu.writes.fCell hr
  · exact s.raiseError_fCell e r

/-- Settles O32: a command that completes made its writes, which reach its P destination alone, or reported an error. -/
theorem pointRegisterFrame : Obligations.PointRegisterFrame := by
  intro i s t r h hr
  rcases exec_next h with ⟨u, hu, rfl⟩ | ⟨e, rfl⟩
  · exact hu.writes.pCell hr
  · exact s.raiseError_pCell e r

end Sys2Proof.Slice0
end

section
/-! The invariant of the engine (spec/10_state.md R35, R38, R39, R43): it holds after reset and every step keeps it, agent by
agent. -/

namespace Sys2Proof.Machine

variable {s t : State}

/-- With no command in flight the life cycle asks nothing. -/
theorem State.lifeCycle_of_idle (h : s.inflight = none) : s.lifeCycle := fun _ hw => by
  rw [h] at hw; cases hw

/-- Reset gives the invariant in any state (R270). -/
theorem State.resetEvent_inv (s : State) : s.resetEvent.Inv where
  memWf := Memory.wf_reset
  pointsValid := fun r q h => by rw [State.resetEvent_pCell] at h; cases h
  lifeCycle := State.lifeCycle_of_idle rfl

/-- An error keeps the invariant: it writes the status alone, and nothing is in flight any more. -/
theorem State.Inv.raiseError (h : s.Inv) (e : ErrorKind) : (s.raiseError e).Inv :=
  ⟨h.memWf, h.pointsValid, State.lifeCycle_of_idle rfl⟩

/-- A completed command keeps the invariant. -/
theorem State.Inv.exec {i : Instr} (h : s.Inv) (he : exec i s = .next t) : t.Inv := by
  rcases exec_next he with ⟨u, hu, rfl⟩ | ⟨e, rfl⟩
  · exact ⟨hu.writes.memWf h.memWf, hu.writes.pointsValid h.pointsValid, State.lifeCycle_of_idle rfl⟩
  · exact h.raiseError e

/-- The engine's turn keeps the invariant. -/
theorem State.Inv.engineTurn (h : s.Inv) (he : s.engineTurn = .next t) : t.Inv := by
  rcases s.engineTurn_cases with ⟨-, e⟩ | ⟨w, i, -, -, e⟩ | ⟨w, -, e⟩
  · cases e.symm.trans he; exact h
  · exact h.exec (e.symm.trans he)
  · cases e.symm.trans he; exact h.raiseError _

/-- A host access keeps the invariant: an acceptance starts the life cycle, every other access leaves it as it is. -/
theorem HostEffect.inv (he : HostEffect s t) (h : s.Inv) : t.Inv := by
  cases he with
  | writeIn off bytes hoff hb => exact ⟨Memory.wf_writeBytes s.mem off bytes (by omega) h.memWf, h.pointsValid, h.lifeCycle⟩
  | accept w hb => exact ⟨h.memWf, h.pointsValid, fun _ hw => by cases hw; exact ⟨rfl, rfl, rfl⟩⟩
  | read | inlen | overrun => exact ⟨h.memWf, h.pointsValid, h.lifeCycle⟩
  | none => exact h

/-- Every event of the schedule keeps the invariant. -/
theorem State.Inv.takeEvent {e : Event} (h : s.Inv) (he : s.takeEvent e = .next t) : t.Inv := by
  cases e with
  | access a => exact (State.hostAccess_next he).inv h
  | engine => exact h.engineTurn he
  | reset => cases he; exact s.resetEvent_inv
  | accessDuringReset a => cases he

end Sys2Proof.Machine

namespace Sys2Proof.Slice0

open Sys2Proof Sys2Proof.Machine

/-- Settles O55: the state after reset is what a reset event leaves of it. -/
theorem invAtReset : Obligations.InvAtReset := State.reset.resetEvent_inv

/-- Settles O56: a step is the engine's turn or the next event of the schedule, which the invariant does not see; each keeps the
invariant. -/
theorem stepKeepsInv : Obligations.StepKeepsInv := by
  intro s t h hs
  rcases hsched : s.schedule with _ | ⟨e, rest⟩
  · rw [step_nil hsched] at hs
    exact h.engineTurn hs
  · rw [step_cons hsched] at hs
    have h' : { s with schedule := rest }.Inv := ⟨h.memWf, h.pointsValid, h.lifeCycle⟩
    exact h'.takeEvent hs

end Sys2Proof.Slice0
end

section
/-! Acceptance, completion and overrun (spec/10_state.md R43, R44, R45), and the step that runs a command (R107, R281). -/

namespace Sys2Proof.Machine

variable {s t : State}

/-- What every completed command does to BUSY and DONE, and the control state it leaves alone. -/
theorem exec_control {i : Instr} (h : exec i s = .next t) :
    t.busy = false ∧ t.done = true ∧ t.inlen = s.inlen ∧ t.cmd = s.cmd ∧ t.ovr = s.ovr ∧ t.schedule = s.schedule ∧
      t.lastRead = s.lastRead := by
  rcases exec_next h with ⟨u, hu, rfl⟩ | ⟨e, rfl⟩
  · obtain ⟨hlen, hcmd, hovr, hsched, hread⟩ := hu.control
    exact ⟨rfl, rfl, hlen, hcmd, hovr, hsched, hread⟩
  · exact ⟨rfl, rfl, rfl, rfl, rfl, rfl, rfl⟩

/-- No completed command changes IN. -/
theorem exec_inByte {i : Instr} (h : exec i s = .next t) {k : Nat} (hk : k < 128) : t.inByte k = s.inByte k := by
  rcases exec_next h with ⟨u, hu, rfl⟩ | ⟨e, rfl⟩
  · exact hu.inByte hk
  · rfl

/-- The engine's turn, whatever is in flight, keeps CMD and OVR. -/
theorem State.engineTurn_cmd_ovr (h : s.engineTurn = .next t) : t.cmd = s.cmd ∧ t.ovr = s.ovr := by
  rcases s.engineTurn_cases with ⟨-, e⟩ | ⟨w, i, -, -, e⟩ | ⟨w, -, e⟩
  · cases e.symm.trans h; exact ⟨rfl, rfl⟩
  · obtain ⟨-, -, -, hcmd, hovr, -, -⟩ := exec_control (e.symm.trans h)
    exact ⟨hcmd, hovr⟩
  · cases e.symm.trans h; exact ⟨rfl, rfl⟩

theorem State.writeIn_busy (off : Nat) (bytes : List Byte) (h : s.busy = true) : s.writeIn off bytes = s.overrun := if_pos h

theorem State.writeCmd_busy (w : Word) (h : s.busy = true) : s.writeCmd w = s.overrun := if_pos h

theorem State.writeInlen_busy (w : Word) (h : s.busy = true) : s.writeInlen w = s.overrun := if_pos h

theorem State.writeCmd_idle (w : Word) (h : s.busy = false) : s.writeCmd w = s.accept w := by
  rw [State.writeCmd, h]; rfl

theorem State.writeInlen_idle (w : Word) (h : s.busy = false) : s.writeInlen w = { s with inlen := w } := by
  rw [State.writeInlen, h]; rfl

/-- A 32-bit write at 0xC0 is a write of CMD (R70). -/
theorem State.writeAt_cmd (s : State) (w : Word) : s.writeAt 0xC0 32 w = .next (s.writeCmd w) := rfl

/-- A 32-bit write at 0xC8 is a write of INLEN (R70). -/
theorem State.writeAt_inlen (s : State) (w : Word) : s.writeAt 0xC8 32 w = .next (s.writeInlen w) := rfl

/-- While BUSY a write of IN, CMD or INLEN that the port takes is an overrun (R45). -/
theorem State.portWrite_busy {off width : Nat} (data : Word) (hb : s.busy = true) (hp : portTakes off width = true)
    (h : off < 0x80 ∨ off = 0xC0 ∨ off = 0xC8) : s.portWrite off width data = s.overrun := by
  rcases s.portWrite_cases data hp with ⟨-, e⟩ | ⟨-, -, e⟩ | ⟨-, -, e⟩ | ⟨hro, -⟩
  · rw [e, State.writeIn_busy _ _ hb]
  · rw [e, State.writeCmd_busy _ hb]
  · rw [e, State.writeInlen_busy _ hb]
  · omega

/-- OVR once set is cleared by an acceptance alone, which is a write at 0xC0 while BUSY = 0 (R45). -/
theorem State.portWrite_ovr {off width : Nat} (data : Word) (ho : s.ovr = true) (hp : portTakes off width = true) :
    (s.portWrite off width data).ovr = true ∨ (s.busy = false ∧ off = 0xC0) := by
  rcases s.portWrite_cases data hp with ⟨-, e⟩ | ⟨-, hoff, e⟩ | ⟨-, -, e⟩ | ⟨-, e⟩
  · left
    rw [e, State.writeIn]
    split
    · rfl
    · exact ho
  · cases hb : s.busy with
    | true => left; rw [e, State.writeCmd_busy _ hb]; rfl
    | false => exact .inr ⟨rfl, hoff⟩
  · left
    rw [e, State.writeInlen]
    split
    · rfl
    · exact ho
  · left
    rw [e]
    exact ho

end Sys2Proof.Machine

namespace Sys2Proof.Slice0

open Sys2Proof Sys2Proof.Machine

/-- Settles O14: a completed command's writes reach neither the control state nor IN. -/
theorem completionFrame : Obligations.CompletionFrame := by
  intro i s t h
  obtain ⟨hbusy, hdone, hlen, hcmd, hovr, hsched, hread⟩ := exec_control h
  exact ⟨hbusy, hdone, hlen, hcmd, hovr, hsched, hread, fun _ hk => exec_inByte h hk⟩

/-- Settles O15: each clause is a case of what a port write, a port read or the engine's turn can do. -/
theorem overrunDropsWrites : Obligations.OverrunDropsWrites := by
  refine ⟨fun s off width data hb h => ?_, fun s t h => (State.engineTurn_cmd_ovr h).2, fun s t off width data ho h => ?_,
    fun s t off width h => ?_, fun s t off width data hro h => ?_⟩
  · have hp : portTakes off width = true := (portTakes_iff off width).2 (by omega)
    rw [State.writeAt_taken _ _ hp, State.portWrite_busy data hb hp (by omega)]
    rfl
  · obtain ⟨hp, rfl⟩ := State.writeAt_next h
    exact State.portWrite_ovr data ho hp
  · obtain ⟨-, rfl⟩ := State.readAt_next h
    rfl
  · obtain ⟨-, rfl⟩ := State.writeAt_next h
    exact s.portWrite_readOnly width data (by omega)

/-- Settles O9: the step is the engine's turn, which runs the decoded command. -/
theorem stepRunsDecodedCommand : Obligations.StepRunsDecodedCommand := by
  intro s w i hw hd
  refine ⟨fun hs => ?_, fun rest hs => ?_⟩
  · rw [step_nil hs, State.engineTurn_legal hw hd]
  · rw [step_cons hs]
    exact State.engineTurn_legal (s := { s with schedule := rest }) hw hd

/-- Settles O12: a write of CMD while BUSY = 0 is the acceptance. -/
theorem acceptanceEffect : Obligations.AcceptanceEffect := by
  intro s w hb
  rw [State.writeAt_cmd, State.writeCmd_idle w hb]
  rfl

end Sys2Proof.Slice0
end

section
/-! The control registers (spec/10_state.md R37 to R41): STATUS, REGVALID, CMD, INLEN and FLAG as the host and the commands see
them. -/

namespace Sys2Proof.Machine

variable {s t : State}

/-- No host access changes a register (R33, R35). -/
theorem HostEffect.regs (h : HostEffect s t) : t.fregs = s.fregs ∧ t.pregs = s.pregs := by
  cases h <;> exact ⟨rfl, rfl⟩

/-- No host access changes FLAG (R37). -/
theorem HostEffect.flag (h : HostEffect s t) : t.flag = s.flag := by
  cases h <;> rfl

/-- A host access keeps CMD, or it accepts the word that CMD then holds. -/
theorem HostEffect.cmd (h : HostEffect s t) : t.cmd = s.cmd ∨ (s.busy = false ∧ t.inflight = some t.cmd) := by
  cases h with
  | accept w hb => exact .inr ⟨hb, rfl⟩
  | read | writeIn | inlen | overrun | none => exact .inl rfl

/-! ### STATUS -/

/-- The number of two words put together. -/
theorem toNat_append_eq_add {m n : Nat} (x : BitVec m) (y : BitVec n) : (x ++ y).toNat = x.toNat * 2 ^ n + y.toNat := by
  rw [BitVec.toNat_append, ← Nat.shiftLeft_add_eq_or_of_lt y.isLt, Nat.shiftLeft_eq]

/-- STATUS as the sum of its fields (R39). -/
theorem State.status_toNat (s : State) : s.status.toNat =
    s.busy.toNat + 2 * s.done.toNat + 4 * s.ovr.toNat + 8 * s.flag.toNat + 2 ^ 8 * s.code.toByte.toNat := by
  simp only [State.status, toNat_append_eq_add, BitVec.toNat_ofBool]
  have h0 : (0 : BitVec 16).toNat = 0 ∧ (0 : BitVec 4).toNat = 0 := ⟨rfl, rfl⟩
  omega

/-- STATUS bit 3 is FLAG (R37). -/
theorem State.status_getLsbD_three (s : State) : s.status.getLsbD 3 = s.flag := by
  simp only [State.status, BitVec.getLsbD_append]
  simp

/-! ### REGVALID -/

theorem Cell.isValid_iff {α : Type} (c : Cell α) : c.isValid = true ↔ ∃ v, c = .valid v := by
  cases c <;> simp [Cell.isValid]

theorem State.length_validBits (s : State) : s.validBits.length = 20 := by simp [State.validBits]

/-- Bits 0 to 15 of the valid bits are the F registers'. -/
theorem State.validBits_fCell (s : State) (r : FReg) : s.validBits.getD r.val false = (s.fCell r).isValid := by
  rw [State.validBits, List.getD_append _ _ _ _ (by simp)]
  simp [State.fCell]

/-- Bits 16 to 19 of the valid bits are the P registers'. -/
theorem State.validBits_pCell (s : State) (r : PReg) : s.validBits.getD (16 + r.val) false = (s.pCell r).isValid := by
  rw [State.validBits, List.getD_append_right _ _ _ _ (by simp)]
  simp [State.pCell]

/-- REGVALID bit k is entry k of the valid bits, and 0 beyond them (R41). -/
theorem State.regValid_getLsbD (s : State) (k : Nat) : s.regValid.getLsbD k = s.validBits.getD k false := by
  rw [State.regValid, BitVec.getLsbD_ofNat, testBit_bitsToNat]
  by_cases hk : k < 32
  · simp [hk]
  · rw [List.getD_eq_default _ _ (by rw [State.length_validBits]; omega), Bool.and_false]

/-- REGVALID is computed from the registers alone. -/
theorem State.regValid_congr (hf : t.fregs = s.fregs) (hp : t.pregs = s.pregs) : t.regValid = s.regValid := by
  rw [State.regValid, State.regValid, State.validBits, State.validBits, hf, hp]

/-! ### PCHK and ADD -/

/-- PCHK on valid sources (R160). -/
theorem exec_pchk_valid {r1 r2 : FReg} {x y : Fp} (h1 : s.fCell r1 = .valid x) (h2 : s.fCell r2 = .valid y) :
    exec (.pchk r1 r2) s = .next ((s.writeFlag (onCurve x y)).complete .ok) := by
  show execPchk r1 r2 s = _
  rw [execPchk, State.readPairF_valid h1 h2]
  rfl

/-- ADD with another length than 128 (R210). -/
theorem exec_add_inlen_ne (h : s.inlen ≠ 128) : exec .add s = .next (s.raiseError .invalidInputLength) := by
  have hb : (s.inlen == BitVec.ofNat 32 Config.inBytes) = false := beq_eq_false_iff_ne.2 h
  show execAdd s = _
  rw [execAdd, hb]
  rfl

end Sys2Proof.Machine

namespace Sys2Proof.Slice0

open Sys2Proof Sys2Proof.Machine

/-! ### Changes no command but one can see -/

/-- Only INLEN changed. -/
def withInlen (v : Word) (s : State) : State := { s with inlen := v }

/-- Only FLAG changed. -/
def withFlag (v : Bool) (s : State) : State := { s with flag := v }

/-- No command but ADD sees INLEN. -/
theorem transparent_withInlen {i : Instr} (hi : i ≠ .add) (v : Word) (s : State) : Transparent (withInlen v) i s where
  readF _ _ := rfl
  readP _ _ := rfl
  memRead _ _ _ := rfl
  inlen h := absurd h hi
  writeF _ _ _ _ := rfl
  writeP _ _ _ _ := rfl
  memWrite _ _ _ := rfl
  writeFlag _ _ _ := rfl
  complete _ _ := rfl

/-- No command sees FLAG, and PCHK alone writes it. -/
theorem transparent_withFlag {i : Instr} (hi : ∀ r1 r2, i ≠ .pchk r1 r2) (v : Bool) (s : State) :
    Transparent (withFlag v) i s where
  readF _ _ := rfl
  readP _ _ := rfl
  memRead _ _ _ := rfl
  inlen _ := rfl
  writeF _ _ _ _ := rfl
  writeP _ _ _ _ := rfl
  memWrite _ _ _ := rfl
  writeFlag := fun ⟨r1, r2, h⟩ => absurd h (hi r1 r2)
  complete _ _ := rfl

/-- A transparent change of the state is carried through a command that completes. -/
theorem exec_next_of_transparent {g : State → State} {i : Instr} {s t : State} (hg : Transparent g i s)
    (h : exec i s = .next t) : exec i (g s) = .next (g t) := by
  rw [exec_transparent hg, h, mapNext_next]

/-- A read of IN does not see INLEN. -/
theorem portRead_withInlen {off : Nat} (h : off < 0x80) (width : Nat) (v : Word) (s : State) :
    (withInlen v s).portRead off width = s.portRead off width := by
  rw [State.portRead, State.portRead, State.read32, State.read32, regionOf_in h]
  rfl

/-- A write of IN does not see INLEN. -/
theorem portWrite_withInlen {off : Nat} (h : off < 0x80) (width : Nat) (data v : Word) (s : State) :
    (withInlen v s).portWrite off width data = withInlen v (s.portWrite off width data) := by
  rw [State.portWrite, State.portWrite, regionOf_in h]
  show (withInlen v s).writeIn off _ = withInlen v (s.writeIn off _)
  rw [State.writeIn, State.writeIn, show (withInlen v s).busy = s.busy from rfl]
  split <;> rfl

/-! ### The registers -/

/-- Settles O21: STATUS is the sum of its fields, and the legal combinations are the life cycle of the invariant. -/
theorem statusLayout : Obligations.StatusLayout := by
  refine ⟨State.status_toNat, fun s => rfl, fun s t data h => ?_, rfl, fun s hinv hb => ?_⟩
  · obtain ⟨-, rfl⟩ := State.writeAt_next h
    rfl
  · obtain ⟨w, hw⟩ := s.busy_iff.1 hb
    obtain ⟨-, hdone, hcode⟩ := hinv.lifeCycle w hw
    exact ⟨hdone, by rw [hcode]; rfl⟩

/-- Settles O22: REGVALID's bits are the valid bits of the registers, which no host access changes. -/
theorem regValidLayout : Obligations.RegValidLayout := by
  refine ⟨fun s r => ?_, fun s r => ?_, fun s k hk => ?_, fun s => rfl, fun s t data h => ?_, fun s t a h => ?_, by decide⟩
  · rw [State.regValid_getLsbD, State.validBits_fCell, Cell.isValid_iff]
  · rw [State.regValid_getLsbD, State.validBits_pCell, Cell.isValid_iff]
  · rw [State.regValid_getLsbD, List.getD_eq_default _ _ (by rw [State.length_validBits]; exact hk)]
  · obtain ⟨-, rfl⟩ := State.writeAt_next h
    rfl
  · obtain ⟨hf, hp⟩ := (State.hostAccess_next h).regs
    exact State.regValid_congr hf hp

/-- Settles O23: CMD is written by an acceptance alone. -/
theorem cmdRegister : Obligations.CmdRegister := by
  refine ⟨fun s w hb => ⟨s.accept w, ?_, rfl, rfl, rfl⟩, fun s t h => (State.engineTurn_cmd_ovr h).1,
    fun s t a h => (State.hostAccess_next h).cmd, rfl, fun s w hb => ?_⟩
  · rw [State.writeAt_cmd, State.writeCmd_idle w hb]
  · rw [State.writeAt_cmd, State.writeCmd_busy w hb]
    rfl

/-- Settles O24: INLEN is a register of its own; a change of it is seen by ADD alone, and not by the accesses of IN. -/
theorem inlenRegister : Obligations.InlenRegister := by
  refine ⟨fun s v hb => ⟨_, ?_, rfl, rfl⟩, fun i s t v hi h => exec_next_of_transparent (transparent_withInlen hi v s) h,
    fun s h => exec_add_inlen_ne h, fun s t v off width hoff h => ?_, fun s t v data off width hoff h => ?_,
    fun s v hb => ?_, rfl⟩
  · rw [State.writeAt_inlen, State.writeInlen_idle v hb]
  · obtain ⟨hp, rfl⟩ := State.readAt_next h
    show (withInlen v s).readAt off width = _
    rw [State.readAt_taken _ hp, portRead_withInlen hoff]
    rfl
  · obtain ⟨hp, rfl⟩ := State.writeAt_next h
    show (withInlen v s).writeAt off width data = _
    rw [State.writeAt_taken _ _ hp, portWrite_withInlen hoff]
    rfl
  · rw [State.writeAt_inlen, State.writeInlen_busy v hb]
    rfl

/-- FLAG is kept by every command but a PCHK that ends with code 0 (R37). -/
theorem exec_flag {i : Instr} {s t : State} (h : exec i s = .next t) (hi : (∀ r1 r2, i ≠ .pchk r1 r2) ∨ t.code ≠ .ok) :
    t.flag = s.flag := by
  rcases exec_next h with ⟨u, hu, rfl⟩ | ⟨e, rfl⟩
  · exact hu.writes.flag_eq (hi.resolve_right fun hc => hc rfl)
  · rfl

/-- Settles O33: FLAG is PCHK's destination alone, and a change of it is carried through every other command. -/
theorem onlyPchkWritesFlag : Obligations.OnlyPchkWritesFlag := by
  refine ⟨fun i s t h hi => exec_flag h hi, fun r1 r2 s x y h1 h2 => ⟨_, exec_pchk_valid h1 h2, onCurve_curveEq x y⟩,
    fun i s t fl hi h => exec_next_of_transparent (transparent_withFlag hi fl s) h,
    fun s t a h => (State.hostAccess_next h).flag, State.status_getLsbD_three, rfl⟩

/-- Settles O26: every field of the reset state has R55's value. -/
theorem resetState : Obligations.ResetState :=
  ⟨fun _ _ => rfl, fun _ _ => rfl, rfl, rfl, rfl, rfl, rfl, rfl, rfl, rfl, by decide, State.reset_fCell, State.reset_pCell, rfl⟩

end Sys2Proof.Slice0
end

section
/-! The port while a command is in flight (spec/10_state.md R45, spec/20_memory.md R77, R79): a host access can change OVR and the
word last read, and nothing else; no command sees either. -/

namespace Sys2Proof.Machine

/-- The completion of an in-flight command, legal or illegal, ends with BUSY = 0 and DONE = 1 (R44). -/
theorem State.engineTurn_ends {s t : State} (hb : s.busy = true) (h : s.engineTurn = .next t) :
    t.busy = false ∧ t.done = true := by
  obtain ⟨w, hw⟩ := s.busy_iff.1 hb
  rcases s.engineTurn_cases with ⟨hnone, -⟩ | ⟨w, i, -, -, e⟩ | ⟨w, -, e⟩
  · cases hw.symm.trans hnone
  · obtain ⟨hbusy, hdone, -⟩ := exec_control (e.symm.trans h)
    exact ⟨hbusy, hdone⟩
  · cases e.symm.trans h; exact ⟨rfl, rfl⟩

/-- STATUS between acceptance and completion (R39, R43): BUSY, and the bits of OVR and FLAG. -/
theorem State.status_inFlight {s : State} (hb : s.busy = true) (hd : s.done = false) (hc : s.code = .ok) :
    s.status.toNat = 1 + 4 * s.ovr.toNat + 8 * s.flag.toNat := by
  rw [State.status_toNat, hb, hd, hc]
  rfl

end Sys2Proof.Machine

namespace Sys2Proof.Slice0

open Sys2Proof Sys2Proof.Machine

/-- Only OVR and the word last read changed. -/
def withOvrRead (o : Bool) (v : Option Word) (s : State) : State := { s with ovr := o, lastRead := v }

/-- All that a host access can do while BUSY = 1: return a word, or set OVR. -/
theorem hostEffect_busy {s t : State} (h : HostEffect s t) (hb : s.busy = true) :
    t = withOvrRead t.ovr t.lastRead s ∧ (s.ovr = true → t.ovr = true) := by
  cases h with
  | read | none => exact ⟨rfl, id⟩
  | overrun => exact ⟨rfl, fun _ => rfl⟩
  | writeIn _ _ _ hidle | accept _ hidle | inlen _ hidle => exact absurd hb (Bool.eq_false_iff.1 hidle)

/-- No command sees OVR or the word last read. -/
theorem transparent_withOvrRead (i : Instr) (o : Bool) (v : Option Word) (s : State) :
    Transparent (withOvrRead o v) i s where
  readF _ _ := rfl
  readP _ _ := rfl
  memRead _ _ _ := rfl
  inlen _ := rfl
  writeF _ _ _ _ := rfl
  writeP _ _ _ _ := rfl
  memWrite _ _ _ := rfl
  writeFlag _ _ _ := rfl
  complete _ _ := rfl

/-- The engine's turn carries a change of OVR and of the word last read through, whatever is in flight. -/
theorem engineTurn_withOvrRead (o : Bool) (v : Option Word) (s : State) :
    (withOvrRead o v s).engineTurn = mapNext (withOvrRead o v) s.engineTurn := by
  rcases hw : s.inflight with _ | w
  · rw [State.engineTurn_idle hw, State.engineTurn_idle (s := withOvrRead o v s) hw, mapNext_next]
  rcases hd : decode w with e | i
  · rw [State.engineTurn_illegal hw hd, State.engineTurn_illegal (s := withOvrRead o v s) hw hd]
    rfl
  · rw [State.engineTurn_legal hw hd, State.engineTurn_legal (s := withOvrRead o v s) hw hd,
      exec_transparent (transparent_withOvrRead i o v s)]

/-- Settles O16: while BUSY = 1 an access changes OVR and the word last read alone, and the engine's turn carries that change
through. -/
theorem busyHostCannotChangeResult : Obligations.BusyHostCannotChangeResult := by
  intro s s' a hb h
  obtain ⟨hs', -⟩ := hostEffect_busy (State.hostAccess_next h) hb
  generalize s'.ovr = o, s'.lastRead = v at hs'
  subst hs'
  refine ⟨hb, ⟨fun _ _ => rfl, rfl, rfl, rfl⟩, ⟨fun _ _ => rfl, rfl, rfl, rfl⟩, fun t ht => ?_, fun f hf => ?_⟩
  · refine ⟨withOvrRead o v t, ?_, rfl, ⟨fun _ _ => rfl, rfl, rfl, rfl⟩, (State.engineTurn_ends hb ht).1⟩
    rw [engineTurn_withOvrRead, ht, mapNext_next]
  · rw [engineTurn_withOvrRead, hf, mapNext_fault]

/-- What STATUS shows after a host access between acceptance and completion (R45, R77). -/
theorem hostEffect_inFlight {s t : State} (h : HostEffect s t) (hb : s.busy = true) (hd : s.done = false)
    (hc : s.code = .ok) :
    t.busy = true ∧ t.done = false ∧ t.code = .ok ∧ t.flag = s.flag ∧ t.inflight = s.inflight ∧
      (s.ovr = true → t.ovr = true) ∧ t.status.toNat = 1 + 4 * t.ovr.toNat + 8 * s.flag.toNat := by
  obtain ⟨ht, hovr⟩ := hostEffect_busy h hb
  generalize t.ovr = o, t.lastRead = v at ht hovr
  subst ht
  exact ⟨hb, hd, hc, rfl, rfl, hovr, State.status_inFlight (s := withOvrRead o v s) hb hd hc⟩

/-- Settles O25: the acceptance starts the life cycle, an access by the port or as a step keeps it, the completion ends it. -/
theorem statusAfterAcceptance : Obligations.StatusAfterAcceptance := by
  refine ⟨fun s t w hb h => ?_, fun s t a hb hd hc h => hostEffect_inFlight (State.hostAccess_next h) hb hd hc,
    fun s t a rest hs hb hd hc h => ?_, fun s hb hd hc => ⟨s.status, rfl, State.status_inFlight hb hd hc⟩,
    fun s t hb h => State.engineTurn_ends hb h⟩
  · rw [State.writeAt_cmd, State.writeCmd_idle w hb] at h
    cases h
    exact ⟨rfl, rfl, rfl, State.status_inFlight (s := s.accept w) rfl rfl rfl⟩
  · rw [step_cons hs] at h
    exact hostEffect_inFlight (s := { s with schedule := rest }) (State.hostAccess_next h) hb hd hc

end Sys2Proof.Slice0
end

section
/-! The port's regions, widths, lanes and refusals (spec/20_memory.md R70 to R74), and the step that performs a host access
(R76, spec/70_reset_and_hazards.md R271). -/

namespace Sys2Proof.Machine

variable {s : State} {off : Nat}

/-! ### Widths and refusals -/

/-- The port takes every 8-bit access of IN and OUT (R72). -/
theorem portTakes_byte (h : off < 0xC0) : portTakes off 8 = true := (portTakes_iff off 8).2 (by omega)

/-- The port takes every aligned 32-bit access of the window (R72). -/
theorem portTakes_aligned (halign : off % 4 = 0) (h : off < 256) : portTakes off 32 = true :=
  (portTakes_iff off 32).2 (by omega)

/-- An access that the port does not take is a bus error (R74). -/
theorem State.readAt_refused {width : Nat} (h : ¬portTakes off width = true) : s.readAt off width = .fault .busError :=
  if_neg h

/-- As `State.readAt_refused`, for a write. -/
theorem State.writeAt_refused {width : Nat} (data : Word) (h : ¬portTakes off width = true) :
    s.writeAt off width data = .fault .busError := if_neg h

/-! ### What a read returns -/

theorem regionOf_out (h1 : 0x80 ≤ off) (h2 : off < 0xC0) : regionOf off = .outBuf := by
  rw [regionOf, if_neg (by omega), if_pos h2]

theorem State.windowByte_buffer (h : off < 0xC0) : s.windowByte off = Memory.read s.mem off := if_pos h

theorem State.windowByte_reserved (h : 0xD0 ≤ off) : s.windowByte off = 0 := if_neg (by omega)

/-- A 32-bit read of IN, OUT or the reserved range returns the four lanes (R73). -/
theorem State.portRead_lanes (h : off < 0xC0 ∨ 0xD0 ≤ off) : s.portRead off 32 = s.lanes off := by
  have hreg : regionOf off = .inBuf ∨ regionOf off = .outBuf ∨ regionOf off = .reserved := by
    by_cases h1 : off < 0x80
    · exact .inl (regionOf_in h1)
    by_cases h2 : off < 0xC0
    · exact .inr (.inl (regionOf_out (by omega) h2))
    · exact .inr (.inr (regionOf_reserved (by omega)))
  show s.read32 off = s.lanes off
  rcases hreg with e | e | e <;> rw [State.read32, e]

/-- The lanes of the reserved range are 0 (R71). -/
theorem State.lanes_reserved (h : 0xD0 ≤ off) : s.lanes off = 0 := by
  rw [State.lanes, windowByte_reserved h, windowByte_reserved (by omega), windowByte_reserved (by omega),
    windowByte_reserved (by omega)]
  rfl

/-- A read of the reserved range returns 0, at either width (R71). -/
theorem State.portRead_reserved {width : Nat} (h : 0xD0 ≤ off) (hp : portTakes off width = true) :
    s.portRead off width = 0 := by
  rcases (portTakes_iff off width).1 hp with ⟨rfl, -, -⟩ | ⟨rfl, -⟩
  · rw [State.portRead_lanes (.inr h), State.lanes_reserved h]
  · show (s.windowByte off).setWidth 32 = 0
    rw [State.windowByte_reserved h]
    rfl

/-- An 8-bit read of IN or OUT returns the byte at the offset (R70). -/
theorem State.portRead_byte (h : off < 0xC0) : (s.portRead off 8).toNat = (Memory.read s.mem off).toNat := by
  show ((s.windowByte off).setWidth 32).toNat = _
  rw [State.windowByte_buffer h, BitVec.toNat_setWidth_of_le (by decide)]

/-! ### What a write of IN stores -/

theorem State.writeIn_idle (bytes : List Byte) (h : s.busy = false) :
    s.writeIn off bytes = { s with mem := Memory.writeBytes s.mem off bytes } := by
  rw [State.writeIn, h]; rfl

/-- A write of IN while BUSY = 0 stores the bytes the bus word carries. -/
theorem State.portWrite_in_idle (width : Nat) (data : Word) (h : off < 0x80) (hb : s.busy = false) :
    s.portWrite off width data = { s with mem := Memory.writeBytes s.mem off (writtenBytes width data) } := by
  rw [State.portWrite, regionOf_in h]
  exact State.writeIn_idle _ hb

/-- Lane k of a bus word that is written (R73). -/
theorem laneBytes_getElem (data : Word) (k : Nat) (h : k < (laneBytes data).length) :
    (laneBytes data)[k] = data.extractLsb' (8 * k) 8 := by
  have hk : k < 4 := h
  interval_cases k <;> rfl

/-! ### Steps -/

theorem State.hostAccess_read_base (s : State) (width : Nat) (h : off < 256) :
    s.hostAccess (.read (Config.base + off) width) = s.readAt off width := by
  simp only [State.hostAccess, offsetOf_base h]

theorem State.hostAccess_write_base (s : State) (width : Nat) (data : Word) (h : off < 256) :
    s.hostAccess (.write (Config.base + off) width data) = s.writeAt off width data := by
  simp only [State.hostAccess, offsetOf_base h]

theorem State.hostAccess_read_outside (s : State) {addr : Nat} (width : Nat)
    (h : addr < Config.base ∨ Config.base + 256 ≤ addr) : s.hostAccess (.read addr width) = .next s := by
  simp only [State.hostAccess, offsetOf_outside h]

theorem State.hostAccess_write_outside (s : State) {addr : Nat} (width : Nat) (data : Word)
    (h : addr < Config.base ∨ Config.base + 256 ≤ addr) : s.hostAccess (.write addr width data) = .next s := by
  simp only [State.hostAccess, offsetOf_outside h]

end Sys2Proof.Machine

namespace Sys2Proof.Slice0

open Sys2Proof Sys2Proof.Machine

/-- Settles O17: what the port takes is performed and what it does not take is a bus error. -/
theorem portRefusals : Obligations.PortRefusals := by
  intro s off width data hoff
  refine ⟨fun h => ?_, fun h => ?_⟩
  · have hp : portTakes off width = true := (portTakes_iff off width).2 (by omega)
    exact ⟨⟨_, s.readAt_taken hp⟩, ⟨_, s.writeAt_taken data hp⟩⟩
  · have hp : ¬portTakes off width = true := fun hp => by
      have := (portTakes_iff off width).1 hp
      omega
    exact ⟨State.readAt_refused hp, State.writeAt_refused data hp⟩

/-- Settles O18: a write there is none of the port's effects, and a read returns a word and changes nothing else. -/
theorem readOnlyAndReservedAccess : Obligations.ReadOnlyAndReservedAccess := by
  refine ⟨fun s t off width data hro h => ?_, fun s t off width hoff h => ?_, fun s t off width h => ?_⟩
  · obtain ⟨-, rfl⟩ := State.writeAt_next h
    exact s.portWrite_readOnly width data (by omega)
  · obtain ⟨hp, rfl⟩ := State.readAt_next h
    exact congrArg some (State.portRead_reserved hoff hp)
  · obtain ⟨-, rfl⟩ := State.readAt_next h
    rfl

/-- A byte of IN or OUT, or the 0 of the reserved range, in its lane of an aligned read (R73). -/
theorem lanes_extract (s : State) {off k : Nat} (halign : off % 4 = 0) (h : off < 0xC0 ∨ 0xD0 ≤ off) (hk : k < 4) :
    (s.lanes off).extractLsb' (8 * k) 8 = if off < 0xC0 then Memory.read s.mem (off + k) else 0 := by
  rw [s.lanes_byte off k hk]
  split
  · exact State.windowByte_buffer (by omega)
  · exact State.windowByte_reserved (by omega)

/-- Settles O19: a read returns the lanes, a write of IN stores them, and a control register's offset is the register. -/
theorem littleEndianLanes : Obligations.LittleEndianLanes := by
  refine ⟨fun s off halign h => ?_, fun s off data halign hoff hb => ?_, fun s off data halign hoff hb => ?_,
    fun s => ⟨rfl, rfl, rfl, rfl⟩, fun s w hb => ⟨⟨s.accept w, ?_, rfl⟩, ?_⟩⟩
  · have hp := portTakes_aligned halign (by omega)
    refine ⟨s.lanes off, ?_, fun k hk => lanes_extract s halign (by omega) hk⟩
    rw [s.readAt_taken hp, State.portRead_lanes (by omega)]
  · have hp := portTakes_aligned halign (by omega)
    refine ⟨{ s with mem := Memory.writeBytes s.mem off (laneBytes data) }, ?_, rfl, fun k hk => ?_, fun a ha => ?_⟩
    · rw [s.writeAt_taken data hp, State.portWrite_in_idle 32 data hoff hb]
      rfl
    · have hlen : (laneBytes data).length = 4 := rfl
      rw [Memory.read_writeBytes, dif_pos (by omega), laneBytes_getElem, Nat.add_sub_cancel_left]
    · exact Memory.read_writeBytes_outside s.mem off a _ ha
  · have hp := portTakes_aligned halign (by omega)
    rw [s.writeAt_taken data hp, State.portWrite_busy data hb hp (.inl hoff)]
    rfl
  · rw [State.writeAt_cmd, State.writeCmd_idle w hb]
  · rw [State.writeAt_inlen, State.writeInlen_idle w hb]

/-- Settles O20: a byte read is the byte of memory, and a byte write stores one byte or is an overrun. -/
theorem byteAccesses : Obligations.ByteAccesses := by
  refine ⟨fun s off h => ?_, fun s off data h => ?_⟩
  · exact ⟨_, s.readAt_taken (portTakes_byte h), State.portRead_byte h⟩
  · have hp : portTakes off 8 = true := portTakes_byte (by omega)
    refine ⟨_, s.writeAt_taken data hp, fun hb => State.portWrite_busy data hb hp (.inl h), fun hb => ?_⟩
    rw [State.portWrite_in_idle 8 data h hb]
    refine ⟨rfl, ?_, fun a ha => Memory.read_writeBytes_outside s.mem off a _ ha⟩
    show (Memory.read (Memory.write s.mem off (data.extractLsb' 0 8)) off).toNat = _
    rw [Memory.read_write, if_pos rfl, BitVec.extractLsb'_toNat, Nat.shiftRight_zero]

/-- Settles O10: the step takes the event off the schedule and performs the access at its offset. -/
theorem stepPerformsHostAccess : Obligations.StepPerformsHostAccess := by
  intro s rest
  refine ⟨fun off width hoff hs => ?_, fun off width data hoff hs => ?_,
    fun addr width data haddr => ⟨fun hs => ?_, fun hs => ?_⟩, fun a hs => ?_⟩ <;> rw [step_cons hs]
  · exact State.hostAccess_read_base _ width hoff
  · exact State.hostAccess_write_base _ width data hoff
  · exact State.hostAccess_read_outside _ width haddr
  · exact State.hostAccess_write_outside _ width data haddr
  · rfl

end Sys2Proof.Slice0
end

section
/-! Command words by their fields (spec/30_encoding.md R100, R106, R107, R113): which words match a row of the opcode map, that
the row is one, and that decoding and encoding are inverse to each other on the well-formed commands. -/

namespace Sys2Proof

/-! ### A word and its fields -/

/-- w[31:20], the reserved field (R100). -/
def rsvField (w : Word) : Nat := (w.extractLsb' 20 12).toNat

@[simp] theorem opField_lt (w : Word) : opField w < 256 := (w.extractLsb' 0 8).isLt
@[simp] theorem fieldA_lt (w : Word) : fieldA w < 16 := (w.extractLsb' 8 4).isLt
@[simp] theorem fieldB_lt (w : Word) : fieldB w < 16 := (w.extractLsb' 12 4).isLt
@[simp] theorem fieldC_lt (w : Word) : fieldC w < 16 := (w.extractLsb' 16 4).isLt

/-- A run of bits of a word, as arithmetic on the word's number. -/
theorem toNat_extractLsb' (w : Word) (k n : Nat) : (w.extractLsb' k n).toNat = w.toNat / 2 ^ k % 2 ^ n := by
  rw [BitVec.extractLsb'_toNat, Nat.shiftRight_eq_div_pow]

/-- A word is the weighted sum of its five fields (R100). -/
theorem toNat_eq_fields (w : Word) :
    w.toNat = opField w + 2 ^ 8 * fieldA w + 2 ^ 12 * fieldB w + 2 ^ 16 * fieldC w + 2 ^ 20 * rsvField w := by
  simp only [opField, fieldA, fieldB, fieldC, rsvField, toNat_extractLsb']
  have := w.isLt
  omega

/-- Words with the same fields are the same word. -/
theorem word_ext {v w : Word} (hop : opField v = opField w) (ha : fieldA v = fieldA w) (hb : fieldB v = fieldB w)
    (hc : fieldC v = fieldC w) (hrsv : rsvField v = rsvField w) : v = w :=
  BitVec.eq_of_toNat_eq (by rw [toNat_eq_fields v, toNat_eq_fields w, hop, ha, hb, hc, hrsv])

/-- A field of a word under a mask is the field under the mask's field. -/
theorem toNat_extractLsb'_and (v w : Word) (k n : Nat) :
    ((v &&& w).extractLsb' k n).toNat = (v.extractLsb' k n).toNat &&& (w.extractLsb' k n).toNat := by
  rw [BitVec.extractLsb'_and, BitVec.toNat_and]

/-! ### Rows of the opcode map -/

/-- What every row says of OP and RSV: both are wholly under the mask, OP is the row's and RSV is 0 (R101, R106). -/
theorem row_fixed_fields : ∀ r ∈ opcodeMap,
    opField r.mask = 2 ^ 8 - 1 ∧ rsvField r.mask = 2 ^ 12 - 1 ∧ rsvField r.pattern = 0 ∧
      fieldA r.pattern = 0 ∧ fieldB r.pattern = 0 ∧ fieldC r.pattern = 0 := by decide

/-- A word matches a row when RSV is 0, OP is the row's, and the bits of A, B and C under the mask are 0 (R101, R106). -/
theorem match_iff_fields {r : OpcodeRow} (hr : r ∈ opcodeMap) (w : Word) :
    w &&& r.mask = r.pattern ↔
      rsvField w = 0 ∧ opField w = opField r.pattern ∧ fieldA w &&& fieldA r.mask = 0 ∧
        fieldB w &&& fieldB r.mask = 0 ∧ fieldC w &&& fieldC r.mask = 0 := by
  obtain ⟨hop, hrsv, hrsv0, ha, hb, hc⟩ := row_fixed_fields r hr
  have op_and : opField (w &&& r.mask) = opField w := by
    rw [opField, toNat_extractLsb'_and]
    exact (congrArg _ hop).trans (Nat.and_two_pow_sub_one_of_lt_two_pow (opField_lt w))
  have rsv_and : rsvField (w &&& r.mask) = rsvField w := by
    rw [rsvField, toNat_extractLsb'_and]
    exact (congrArg _ hrsv).trans (Nat.and_two_pow_sub_one_of_lt_two_pow (w.extractLsb' 20 12).isLt)
  have a_and : fieldA (w &&& r.mask) = fieldA w &&& fieldA r.mask := toNat_extractLsb'_and _ _ _ _
  have b_and : fieldB (w &&& r.mask) = fieldB w &&& fieldB r.mask := toNat_extractLsb'_and _ _ _ _
  have c_and : fieldC (w &&& r.mask) = fieldC w &&& fieldC r.mask := toNat_extractLsb'_and _ _ _ _
  rw [← op_and, ← rsv_and, ← a_and, ← b_and, ← c_and]
  constructor
  · rintro h
    rw [h]
    exact ⟨hrsv0, rfl, ha, hb, hc⟩
  · rintro ⟨h0, h1, h2, h3, h4⟩
    exact word_ext h1 (h2.trans ha.symm) (h3.trans hb.symm) (h4.trans hc.symm) (h0.trans hrsv0.symm)

/-- No two rows share an OP byte (R106). -/
theorem row_eq_of_low_byte : ∀ r1 ∈ opcodeMap, ∀ r2 ∈ opcodeMap,
    r1.pattern.toNat % 256 = r2.pattern.toNat % 256 → r1 = r2 := by decide

/-- A row that a word matches is the row of the word's OP byte. -/
theorem row_eq_of_match {w : Word} {r r' : OpcodeRow} (hr : r ∈ opcodeMap) (hm : w &&& r.mask = r.pattern)
    (hr' : r' ∈ opcodeMap) (h : w.toNat % 256 = r'.pattern.toNat % 256) : r = r' :=
  row_eq_of_low_byte r hr r' hr' ((low_byte_of_match hr hm).symm.trans h)

/-- The OP bytes of the rows are the 13 of R106. -/
theorem row_low_byte_mem : ∀ r ∈ opcodeMap,
    r.pattern.toNat % 256 ∈ [0x01, 0x02, 0x03, 0x04, 0x08, 0x09, 0x10, 0x11, 0x12, 0x13, 0x18, 0x19, 0x20] := by decide

/-- A word that matches a row decodes to the row's command (R107): no other row stands in the way. -/
theorem decode_of_match {w : Word} {r : OpcodeRow} (hr : r ∈ opcodeMap) (h : w &&& r.mask = r.pattern) :
    decode w = .ok (operandsOf r.op w) := by
  have hfind : opcodeMap.find? (fun r => r.holds w) = some r := by
    cases hf : opcodeMap.find? (fun r => r.holds w) with
    | none => exact absurd (by simpa [OpcodeRow.holds] using h) (List.find?_eq_none.1 hf r hr)
    | some r' =>
      have h' : w &&& r'.mask = r'.pattern := by simpa [OpcodeRow.holds] using List.find?_some hf
      have hr' := List.mem_of_find?_eq_some hf
      rw [row_eq_of_match hr' h' hr (low_byte_of_match hr h)]
  rw [decode, hfind]

/-- A word that matches no row is illegal (R107). -/
theorem decode_error_of_no_match {w : Word} (h : ∀ r ∈ opcodeMap, w &&& r.mask ≠ r.pattern) : ∃ e, decode w = .error e := by
  cases hd : decode w with
  | error e => exact ⟨e, rfl⟩
  | ok i =>
    obtain ⟨r, hr, hm, -⟩ := decode_ok hd
    exact absurd hm (h r hr)

/-! ### The fields of a command -/

/-- The values a command has in OP, A, B and C (R106, R113). -/
structure CommandFields where
  op : Nat
  a : Nat
  b : Nat
  c : Nat

/-- The fields of each command, unused ones 0 (R106). -/
def Instr.fields : Instr → CommandFields
  | .fadd rd rs1 rs2 => ⟨0x01, rd, rs1, rs2⟩
  | .fsub rd rs1 rs2 => ⟨0x02, rd, rs1, rs2⟩
  | .fmul rd rs1 rs2 => ⟨0x03, rd, rs1, rs2⟩
  | .finv rd rs => ⟨0x04, rd, rs, 0⟩
  | .fld rd slot => ⟨0x08, rd, 0, slot⟩
  | .fst rs slot => ⟨0x09, 0, rs, slot⟩
  | .pchk rs1 rs2 => ⟨0x10, 0, rs1, rs2⟩
  | .pdec pd rs1 rs2 => ⟨0x11, pd, rs1, rs2⟩
  | .padd pd ps1 ps2 => ⟨0x12, pd, ps1, ps2⟩
  | .penc rd ps => ⟨0x13, rd, ps, 0⟩
  | .pld pd slot => ⟨0x18, pd, 0, slot⟩
  | .pst ps => ⟨0x19, 0, ps, 0⟩
  | .add => ⟨0x20, 0, 0, 0⟩

/-- The encoding is the word of the command's fields. -/
theorem encode_eq_wordOf (i : Instr) : encode i = wordOf i.fields.op i.fields.a i.fields.b i.fields.c := by
  cases i <;> rfl

/-- Every field value fits its field (R100). -/
theorem Instr.fields_lt (i : Instr) : i.fields.op < 256 ∧ i.fields.a < 16 ∧ i.fields.b < 16 ∧ i.fields.c < 16 := by
  cases i <;> simp only [Instr.fields] <;> omega

/-- The encoding is the weighted sum of the command's fields (R113). -/
theorem encode_toNat (i : Instr) :
    (encode i).toNat = i.fields.op + 2 ^ 8 * i.fields.a + 2 ^ 12 * i.fields.b + 2 ^ 16 * i.fields.c := by
  obtain ⟨hop, ha, hb, hc⟩ := i.fields_lt
  rw [encode_eq_wordOf, wordOf_toNat hop ha hb hc]

/-- A command is encoded as a word exactly when RSV is 0 there and the word's fields are the command's (R101, R113). -/
theorem encode_eq_iff (i : Instr) (w : Word) :
    encode i = w ↔
      rsvField w = 0 ∧ opField w = i.fields.op ∧ fieldA w = i.fields.a ∧ fieldB w = i.fields.b ∧ fieldC w = i.fields.c := by
  rw [← BitVec.toNat_inj, encode_toNat, toNat_eq_fields w]
  have := i.fields_lt
  have := opField_lt w
  have := fieldA_lt w
  have := fieldB_lt w
  have := fieldC_lt w
  omega

/-! ### Operands and the masks of their fields -/

@[simp] theorem fRegOf_val (x : Nat) : (fRegOf x).val = x % 16 := rfl
@[simp] theorem pRegOf_val (x : Nat) : (pRegOf x).val = x % 4 := rfl

theorem fRegOf_of_val (r : FReg) : fRegOf r.val = r := Fin.ofNat_val_eq_self r
theorem pRegOf_of_val (r : PReg) : pRegOf r.val = r := Fin.ofNat_val_eq_self r

@[simp] theorem opField_ofNat (n : Nat) : opField (BitVec.ofNat 32 n) = n % 2 ^ 8 := by
  rw [opField, toNat_extractLsb', BitVec.toNat_ofNat]; omega
@[simp] theorem fieldA_ofNat (n : Nat) : fieldA (BitVec.ofNat 32 n) = n / 2 ^ 8 % 2 ^ 4 := by
  rw [fieldA, toNat_extractLsb', BitVec.toNat_ofNat]; omega
@[simp] theorem fieldB_ofNat (n : Nat) : fieldB (BitVec.ofNat 32 n) = n / 2 ^ 12 % 2 ^ 4 := by
  rw [fieldB, toNat_extractLsb', BitVec.toNat_ofNat]; omega
@[simp] theorem fieldC_ofNat (n : Nat) : fieldC (BitVec.ofNat 32 n) = n / 2 ^ 16 % 2 ^ 4 := by
  rw [fieldC, toNat_extractLsb', BitVec.toNat_ofNat]; omega

/-- Mask 0xC leaves the numbers of the P registers and of FLD's slots (R104, R105). -/
theorem and_twelve_eq_zero_iff {x : Nat} (h : x < 16) : x &&& 12 = 0 ↔ x = x % 4 := by interval_cases x <;> decide

/-- Mask 0xE leaves the slots of FST and PLD (R105). -/
theorem and_fourteen_eq_zero_iff {x : Nat} (h : x < 16) : x &&& 14 = 0 ↔ x = x % 2 := by interval_cases x <;> decide

/-- Mask 0xF leaves an unused field 0 (R101). -/
theorem and_fifteen_eq_zero_iff {x : Nat} (h : x < 16) : x &&& 15 = 0 ↔ x = 0 := by interval_cases x <;> decide

/-- Mask 1 leaves PENC's even destinations (R103). -/
theorem even_fRegOf {x : Nat} (h : x < 16) : FReg.even (fRegOf x) = true ↔ x &&& 1 = 0 := by interval_cases x <;> decide

/-- A word matches a row exactly when the row's reading of it is a well-formed command and is encoded as it (R106, R113): field by
field, the mask leaves the operand's values. -/
theorem match_iff_encode {r : OpcodeRow} (hr : r ∈ opcodeMap) (w : Word) :
    w &&& r.mask = r.pattern ↔ (operandsOf r.op w).wf = true ∧ encode (operandsOf r.op w) = w := by
  rw [match_iff_fields hr, encode_eq_iff]
  simp only [opcodeMap, List.cons_append, List.nil_append, List.mem_cons, List.not_mem_nil, or_false] at hr
  rcases hr with rfl | rfl | rfl | rfl | rfl | rfl | rfl | rfl | rfl | rfl | rfl | rfl | rfl
  all_goals
    simp [operandsOf, Instr.fields, Instr.wf, and_twelve_eq_zero_iff, and_fourteen_eq_zero_iff, and_fifteen_eq_zero_iff,
      even_fRegOf, Nat.mod_eq_of_lt, and_left_comm]

/-! ### Decoding and encoding -/

/-- The row a command belongs to. -/
def Instr.opcode : Instr → Opcode
  | .fadd _ _ _ => .fadd
  | .fsub _ _ _ => .fsub
  | .fmul _ _ _ => .fmul
  | .finv _ _ => .finv
  | .fld _ _ => .fld
  | .fst _ _ => .fst
  | .pchk _ _ => .pchk
  | .pdec _ _ _ => .pdec
  | .padd _ _ _ => .padd
  | .penc _ _ => .penc
  | .pld _ _ => .pld
  | .pst _ => .pst
  | .add => .add

/-- Every opcode has its row in the opcode map. -/
theorem exists_row (op : Opcode) : ∃ r ∈ opcodeMap, r.op = op := by cases op <;> decide

/-- The operands read back from a command's word are the command's own. -/
theorem operandsOf_encode (i : Instr) : operandsOf i.opcode (encode i) = i := by
  obtain ⟨-, -, ha, hb, hc⟩ := (encode_eq_iff i (encode i)).1 rfl
  cases i <;> simp_all [operandsOf, Instr.opcode, Instr.fields, fRegOf_of_val, pRegOf_of_val]

/-- Decoding the word of a well-formed command gives it back: its word matches its row. -/
theorem decode_encode {i : Instr} (h : i.wf = true) : decode (encode i) = .ok i := by
  obtain ⟨r, hr, hop⟩ := exists_row i.opcode
  have hread : operandsOf r.op (encode i) = i := by rw [hop, operandsOf_encode]
  rw [decode_of_match hr ((match_iff_encode hr _).2 (by rw [hread]; exact ⟨h, rfl⟩)), hread]

/-- A word decodes to a command exactly when the command is well-formed and the word is its encoding. -/
theorem decode_eq_ok_iff (w : Word) (i : Instr) : decode w = .ok i ↔ i.wf = true ∧ encode i = w := by
  constructor
  · intro h
    obtain ⟨r, hr, hm, rfl⟩ := decode_ok h
    exact (match_iff_encode hr w).1 hm
  · rintro ⟨h, rfl⟩
    exact decode_encode h

end Sys2Proof

namespace Sys2Proof.Slice0

open Sys2Proof Sys2Proof.Machine

/-- Settles O3: the word of a command matches the command's row, and the row reads its operands back. -/
theorem decodeOfEncodeIsIdentity : Obligations.DecodeOfEncodeIsIdentity := fun _ h => decode_encode h

/-- Settles O4: a word that decodes matches a row, and a row's mask leaves the operands' values alone. -/
theorem encodeOfDecodeIsIdentity : Obligations.EncodeOfDecodeIsIdentity := fun w i h => (decode_eq_ok_iff w i).1 h

/-- Settles O5: OP is wholly under every mask, and no two rows share it. -/
theorem atMostOneRowMatches : Obligations.AtMostOneRowMatches := by
  intro w r1 r2 h1 h2 hm1 hm2
  exact row_eq_of_match h1 hm1 h2 (low_byte_of_match h2 hm2)

/-- Settles O2: the number of a command's word is the sum of its fields. -/
theorem encodingIsFieldSum : Obligations.EncodingIsFieldSum := by
  refine ⟨fun rd rs1 rs2 => ?_, fun r k4 k2 => ?_, fun pd ps1 ps2 r1 r2 k2 => ?_, by decide⟩ <;>
    simp only [encode_toNat, Instr.fields, Nat.mul_zero, Nat.add_zero, and_self]

/-- Settles O7: a match fixes OP to a byte of the map, and that byte's row is the only one that can match. -/
theorem reservedEncodingsIllegal : Obligations.ReservedEncodingsIllegal := by
  refine ⟨fun w hw => decode_error_of_no_match fun r hr hm => hw ?_, ⟨_, rfl⟩, ⟨_, rfl⟩,
    fun w r hr hop hne => decode_error_of_no_match fun r' hr' hm => hne ?_⟩
  · rw [low_byte_of_match hr hm]
    exact row_low_byte_mem r hr
  · rwa [← row_eq_of_match hr' hm hr hop]

/-- Settles O1: each word is written out, and the decoder evaluates to its command. -/
theorem specWordsDecode : Obligations.SpecWordsDecode := by
  unfold Obligations.SpecWordsDecode
  decide

end Sys2Proof.Slice0
end

section
/-! Illegal words (spec/30_encoding.md R110), and how many words are legal (R106). -/

namespace Sys2Proof.Slice0

open Sys2Proof Sys2Proof.Machine

/-- Settles O13: the acceptance does not look at the word, and the engine's turn on an illegal word reports code 5. -/
theorem illegalCommandEndsWithCode5 : Obligations.IllegalCommandEndsWithCode5 := by
  intro s w e hd
  refine ⟨acceptanceEffect s w, fun hw hs => ?_, fun rest hw hs => ?_⟩
  · rw [step_nil hs, State.engineTurn_illegal hw hd]
    rfl
  · rw [step_cons hs]
    exact State.engineTurn_illegal (s := { s with schedule := rest }) hw hd

end Sys2Proof.Slice0

namespace Sys2Proof

/-- The commands as the disjoint union of their forms, each with its operands. -/
def formsEquiv := proxy_equiv% Instr

/-- A sum over all commands, form by form. -/
theorem sum_instr [Fintype Instr] (f : Instr → Nat) :
    ∑ i, f i =
      (∑ rd, ∑ rs1, ∑ rs2, f (.fadd rd rs1 rs2)) + ((∑ rd, ∑ rs1, ∑ rs2, f (.fsub rd rs1 rs2)) +
      ((∑ rd, ∑ rs1, ∑ rs2, f (.fmul rd rs1 rs2)) + ((∑ rd, ∑ rs, f (.finv rd rs)) + ((∑ rd, ∑ slot, f (.fld rd slot)) +
      ((∑ rs, ∑ slot, f (.fst rs slot)) + ((∑ rs1, ∑ rs2, f (.pchk rs1 rs2)) +
      ((∑ pd, ∑ rs1, ∑ rs2, f (.pdec pd rs1 rs2)) + ((∑ pd, ∑ ps1, ∑ ps2, f (.padd pd ps1 ps2)) +
      ((∑ rd, ∑ ps, f (.penc rd ps)) + ((∑ pd, ∑ slot, f (.pld pd slot)) + ((∑ ps, f (.pst ps)) + f .add))))))))))) := by
  rw [← formsEquiv.sum_comp]
  simp only [Fintype.sum_sum_type, Fintype.sum_sigma, Fintype.sum_unique]
  rfl

/-- The well-formed commands number 3 * 16 * 16 * 16 for FADD, FSUB and FMUL, and so on; PENC has 8 even destinations (R103). -/
theorem card_wf : Nat.card { i : Instr // i.wf = true } = 14029 := by
  have : Fintype Instr := Fintype.ofEquiv _ formsEquiv
  have hpenc : (∑ rd, ∑ ps, (Bool.toNat ∘ Instr.wf) (.penc rd ps)) = 8 * 4 := by decide
  calc Nat.card { i : Instr // i.wf = true }
    _ = ∑ i, (Bool.toNat ∘ Instr.wf) i := by
      rw [Nat.card_eq_fintype_card, Fintype.card_subtype, Finset.card_filter]
      exact Finset.sum_congr rfl fun i _ => by rw [Function.comp_apply]; cases i.wf <;> rfl
    _ = 14029 := by
      rw [sum_instr, hpenc]
      simp only [Function.comp_apply, Instr.wf, Bool.toNat_true, Finset.sum_const, Finset.card_univ, Fintype.card_fin,
        smul_eq_mul]

end Sys2Proof

namespace Sys2Proof.Slice0

open Sys2Proof Sys2Proof.Machine

/-- Settles O6: the words that decode are the encodings of the well-formed commands, one word for each. -/
theorem legalWordCount : Obligations.LegalWordCount := by
  have himage : { w : Word | ∃ i, decode w = .ok i } = encode '' { i | i.wf = true } := by
    ext w
    simp only [Set.mem_ofPred_eq, Set.mem_image, decode_eq_ok_iff]
  have hinj : Set.InjOn encode { i | i.wf = true } := fun i hi j hj h => by
    have := (decode_encode hi).symm.trans ((congrArg decode h).trans (decode_encode hj))
    cases this
    rfl
  rw [Obligations.LegalWordCount, himage, hinj.ncard_image]
  exact card_wf

end Sys2Proof.Slice0
end

section
/-! The assembler (spec/30_encoding.md R111, R112): which operands it takes, and that the command it gives has the operands
written. -/

namespace Sys2Proof.Slice0

open Sys2Proof Sys2Proof.Machine

/-! ### A command and its operands -/

/-- A command's own form assembles to it. -/
theorem assemble_asmForm {i : Instr} (h : i.wf = true) : assemble (asmForm i).1 (asmForm i).2 = some i := by
  have hf : ∀ r : FReg, asmF (.f r) = some r := fun r => (asmF_eq_some _ r).2 rfl
  have hp : ∀ r : PReg, asmP (.p r) = some r := fun r => (asmP_eq_some _ r).2 rfl
  have hs : ∀ (k : Nat) (n : Fin k), asmSlot k (.slot n) = some n := fun k n => (asmSlot_eq_some k _ n).2 rfl
  cases i with
  | penc rd ps =>
    have heven : FReg.even rd = true := h
    simp [asmForm, assemble, hf, hp, heven]
  | _ => simp [asmForm, assemble, hf, hp, hs]

/-- An operand read twice is read once. -/
theorem bind_bind_same {α β : Type} (o : Option α) (f : α → α → Option β) :
    (o.bind fun x => o.bind (f x)) = o.bind fun x => f x x := by
  cases o <;> rfl

/-- A pseudo-command assembles as its expansion (R112). -/
theorem assemble_asmExpand (m : AsmMnemonic) (ops : List AsmOperand) :
    assemble (asmExpand m ops).1 (asmExpand m ops).2 = assemble m ops := by
  unfold asmExpand
  split
  case h_5 => rfl
  all_goals
    simp only [assemble, Option.bind_eq_bind, bind_bind_same]
    rfl

/-- What the assembler gives is a well-formed command with the operands written. -/
theorem asmForm_of_assemble {m : AsmMnemonic} {ops : List AsmOperand} {i : Instr} (h : assemble m ops = some i) :
    asmForm i = asmExpand m ops ∧ i.wf = true := by
  unfold assemble at h
  split at h <;>
    simp only [Option.bind_eq_bind, Option.pure_def, Option.bind_eq_some_iff, Option.ite_none_right_eq_some, Option.some.injEq,
      asmF_eq_some, asmP_eq_some, asmSlot_eq_some, reduceCtorEq] at h
  case h_1 | h_2 | h_3 | h_8 | h_9 =>
    obtain ⟨r1, rfl, r2, rfl, r3, rfl, rfl⟩ := h
    exact ⟨rfl, rfl⟩
  case h_4 | h_5 | h_6 | h_7 | h_11 | h_14 | h_15 | h_16 | h_17 =>
    obtain ⟨r1, rfl, r2, rfl, rfl⟩ := h
    exact ⟨rfl, rfl⟩
  case h_10 =>
    obtain ⟨rd, rfl, heven, ps, rfl, rfl⟩ := h
    exact ⟨rfl, heven⟩
  case h_12 =>
    obtain ⟨ps, rfl, rfl⟩ := h
    exact ⟨rfl, rfl⟩
  case h_13 =>
    subst h
    exact ⟨rfl, rfl⟩

/-- The assembler gives exactly the well-formed command that has the operands written (R111, R112). -/
theorem assemble_eq_some_iff (m : AsmMnemonic) (ops : List AsmOperand) (i : Instr) :
    assemble m ops = some i ↔ asmForm i = asmExpand m ops ∧ i.wf = true := by
  refine ⟨asmForm_of_assemble, ?_⟩
  rintro ⟨hform, h⟩
  rw [← assemble_asmExpand, ← hform, assemble_asmForm h]

/-! ### Operands in range -/

theorem asmBelow_f (o : AsmOperand) (k : Nat) : asmBelow o (.f k) ↔ ∃ r : Fin k, o = .f r := by
  cases o <;> simp [asmBelow, Fin.exists_iff]

theorem asmBelow_p (o : AsmOperand) (k : Nat) : asmBelow o (.p k) ↔ ∃ r : Fin k, o = .p r := by
  cases o <;> simp [asmBelow, Fin.exists_iff]

theorem asmBelow_slot (o : AsmOperand) (k : Nat) : asmBelow o (.slot k) ↔ ∃ r : Fin k, o = .slot r := by
  cases o <;> simp [asmBelow, Fin.exists_iff]

/-- The operands of a well-formed command are in range. -/
theorem asmInRange_asmForm {i : Instr} (h : i.wf = true) : asmInRange (asmForm i).1 (asmForm i).2 := by
  cases i <;> simp_all [asmForm, asmInRange, asmBounds, asmBelow_f, asmBelow_p, asmBelow_slot, Instr.wf, FReg.even]

/-- A pseudo-command whose expansion's operands are in range has its own in range (R112). -/
theorem asmInRange_of_asmExpand {m : AsmMnemonic} {ops : List AsmOperand}
    (h : asmInRange (asmExpand m ops).1 (asmExpand m ops).2) : asmInRange m ops := by
  unfold asmExpand at h
  split at h <;> simp_all [asmInRange, asmBounds, asmBelow]

/-- Operands in range are the operands of some well-formed command. -/
theorem exists_asmForm {m : AsmMnemonic} {ops : List AsmOperand} (h : asmInRange m ops) :
    ∃ i : Instr, asmForm i = asmExpand m ops ∧ i.wf = true := by
  obtain ⟨hbounds, heven⟩ := h
  cases m
  all_goals
    simp [asmBounds, List.forall₂_cons_right_iff, asmBelow_f, asmBelow_p, asmBelow_slot, -Fin.exists_fin_two] at hbounds
  case fadd => obtain ⟨rd, rs1, rs2, rfl⟩ := hbounds; exact ⟨.fadd rd rs1 rs2, rfl, rfl⟩
  case fsub => obtain ⟨rd, rs1, rs2, rfl⟩ := hbounds; exact ⟨.fsub rd rs1 rs2, rfl, rfl⟩
  case fmul => obtain ⟨rd, rs1, rs2, rfl⟩ := hbounds; exact ⟨.fmul rd rs1 rs2, rfl, rfl⟩
  case finv => obtain ⟨rd, rs, rfl⟩ := hbounds; exact ⟨.finv rd rs, rfl, rfl⟩
  case fld => obtain ⟨rd, slot, rfl⟩ := hbounds; exact ⟨.fld rd slot, rfl, rfl⟩
  case fst => obtain ⟨rs, slot, rfl⟩ := hbounds; exact ⟨.fst rs slot, rfl, rfl⟩
  case pchk => obtain ⟨rs1, rs2, rfl⟩ := hbounds; exact ⟨.pchk rs1 rs2, rfl, rfl⟩
  case pdec => obtain ⟨pd, rs1, rs2, rfl⟩ := hbounds; exact ⟨.pdec pd rs1 rs2, rfl, rfl⟩
  case padd => obtain ⟨pd, ps1, ps2, rfl⟩ := hbounds; exact ⟨.padd pd ps1 ps2, rfl, rfl⟩
  case penc =>
    obtain ⟨rd, ps, rfl⟩ := hbounds
    obtain ⟨n, rest, hops, hn⟩ := heven rfl
    cases hops
    exact ⟨.penc rd ps, rfl, beq_iff_eq.2 hn⟩
  case pld => obtain ⟨pd, slot, rfl⟩ := hbounds; exact ⟨.pld pd slot, rfl, rfl⟩
  case pst => obtain ⟨ps, rfl⟩ := hbounds; exact ⟨.pst ps, rfl, rfl⟩
  case add => subst hbounds; exact ⟨.add, rfl, rfl⟩
  case fsqr => obtain ⟨rd, rs, rfl⟩ := hbounds; exact ⟨.fsqr rd rs, rfl, rfl⟩
  case fdbl => obtain ⟨rd, rs, rfl⟩ := hbounds; exact ⟨.fdbl rd rs, rfl, rfl⟩
  case fclr => obtain ⟨rd, rs, rfl⟩ := hbounds; exact ⟨.fclr rd rs, rfl, rfl⟩
  case pdbl => obtain ⟨pd, ps, rfl⟩ := hbounds; exact ⟨.pdbl pd ps, rfl, rfl⟩

/-- The assembler takes exactly the operands in range (R111). -/
theorem assembles_iff_asmInRange (m : AsmMnemonic) (ops : List AsmOperand) :
    (∃ i, assemble m ops = some i) ↔ asmInRange m ops := by
  simp only [assemble_eq_some_iff]
  refine ⟨?_, exists_asmForm⟩
  rintro ⟨i, hform, h⟩
  exact asmInRange_of_asmExpand (hform ▸ asmInRange_asmForm h)

end Sys2Proof.Slice0
end

section
/-! The text of a line (spec/30_encoding.md R111; log entry 13): decimal numbers, operands, the list of operands and the whole
line, each read back from what R111 writes. -/

namespace Sys2Proof.Slice0

open Sys2Proof Sys2Proof.Machine

/-! ### Decimal numbers -/

theorem digitOf_ofNat {d : Nat} (h : d < 10) : digitOf (Char.ofNat (48 + d)) = some d := by interval_cases d <;> decide

/-- A decimal number of at most two digits is read back. -/
theorem readNumber_decimalText {n : Nat} (h : n < 100) : readNumber (decimalText n) = some n := by
  unfold decimalText
  split
  next h10 => simp [readNumber, readDigits, digitOf_ofNat h10]
  next => simp [readNumber, readDigits, digitOf_ofNat (show n / 10 < 10 by omega), digitOf_ofNat (show n % 10 < 10 by omega),
      Nat.div_add_mod']

/-- The text of a number is digits only. -/
theorem digitOf_of_mem_decimalText {n : Nat} (h : n < 100) {c : Char} (hc : c ∈ decimalText n) : digitOf c ≠ none := by
  have hdigit : ∀ d, d < 10 → digitOf (Char.ofNat (48 + d)) ≠ none := fun d hd => by
    rw [digitOf_ofNat hd]
    exact Option.some_ne_none d
  unfold decimalText at hc
  split at hc <;> simp only [List.mem_cons, List.not_mem_nil, or_false] at hc
  next h10 => exact hc ▸ hdigit n h10
  next =>
    obtain rfl | rfl := hc
    · exact hdigit _ (by omega)
    · exact hdigit _ (by omega)

theorem decimalText_ne_nil (n : Nat) : decimalText n ≠ [] := by
  unfold decimalText
  split <;> simp

/-! ### One operand -/

/-- The number of an operand or of an operand's bound. -/
def operandNumber : AsmOperand → Nat
  | .f n => n
  | .p n => n
  | .slot n => n

/-- An operand is read back from its text. -/
theorem readOperand_operandText {o : AsmOperand} (h : operandNumber o < 100) : readOperand (operandText o) = some o := by
  have hread : readNumber (decimalText (operandNumber o)) = some (operandNumber o) := readNumber_decimalText h
  cases o with
  | f n => exact congrArg (Option.map AsmOperand.f) hread
  | p n => exact congrArg (Option.map AsmOperand.p) hread
  | slot n =>
    obtain ⟨c, rest, hd⟩ := List.exists_cons_of_ne_nil (decimalText_ne_nil n)
    have hc : digitOf c ≠ none := digitOf_of_mem_decimalText h (hd ▸ List.mem_cons_self)
    have hf : c ≠ 'f' := by rintro rfl; exact hc rfl
    have hp : c ≠ 'p' := by rintro rfl; exact hc rfl
    rw [operandNumber, hd] at hread
    simp [operandText, hd, readOperand, hf, hp, hread]

/-- An operand's text holds no comma and no blank. -/
theorem operandText_chars {o : AsmOperand} (h : operandNumber o < 100) {c : Char} (hc : c ∈ operandText o) :
    c ≠ ',' ∧ isBlank c = false := by
  have hdigit : ∀ n, n < 100 → c ∈ decimalText n → c ≠ ',' ∧ isBlank c = false := by
    intro n hn hc
    have hd := digitOf_of_mem_decimalText hn hc
    refine ⟨by rintro rfl; exact hd rfl, Bool.eq_false_iff.2 fun hb => hd ?_⟩
    simp only [isBlank, Bool.or_eq_true, beq_iff_eq] at hb
    obtain rfl | rfl := hb <;> rfl
  cases o with
  | f n | p n =>
    obtain rfl | hc := List.mem_cons.1 hc
    · decide
    · exact hdigit n h hc
  | slot n => exact hdigit n h hc

theorem operandText_ne_nil (o : AsmOperand) : operandText o ≠ [] := by
  cases o with
  | f n => exact List.cons_ne_nil _ _
  | p n => exact List.cons_ne_nil _ _
  | slot n => exact decimalText_ne_nil n

/-! ### The operands of a line -/

theorem operandsText_cons_cons (o o' : AsmOperand) (rest : List AsmOperand) :
    operandsText (o :: o' :: rest) = operandText o ++ ',' :: ' ' :: operandsText (o' :: rest) := by
  simp [operandsText]

theorem operandsText_ne_nil (o : AsmOperand) (rest : List AsmOperand) : operandsText (o :: rest) ≠ [] := by
  cases rest with
  | nil => exact operandText_ne_nil o
  | cons o' rest => simp [operandsText_cons_cons]

theorem blank_operandText_no_comma {o : AsmOperand} (h : operandNumber o < 100) : ∀ c ∈ ' ' :: operandText o, c ≠ ',' := by
  intro c hc
  obtain rfl | hc := List.mem_cons.1 hc
  · decide
  · exact (operandText_chars h hc).1

/-- The parts between the commas of an operand text are the operands' texts, each after its blank. -/
theorem splitCommas_operandsText (o : AsmOperand) (rest : List AsmOperand) (h : ∀ x ∈ o :: rest, operandNumber x < 100) :
    splitCommas (' ' :: operandsText (o :: rest)) = (o :: rest).map fun x => ' ' :: operandText x := by
  induction rest generalizing o with
  | nil => exact splitCommas_of_forall (blank_operandText_no_comma (h o List.mem_cons_self))
  | cons o' rest ih =>
    rw [operandsText_cons_cons, ← List.cons_append,
      splitCommas_append_comma (blank_operandText_no_comma (h o List.mem_cons_self)),
      ih o' fun x hx => h x (List.mem_cons_of_mem _ hx)]
    rfl

/-- The parts of an operand text are read as the operands. -/
theorem mapM_readOperand (ops : List AsmOperand) (h : ∀ x ∈ ops, operandNumber x < 100) :
    ((ops.map fun x => ' ' :: operandText x).mapM fun part => readOperand (trimBlanks part)) = some ops := by
  induction ops with
  | nil => rfl
  | cons o rest ih =>
    have ho := h o List.mem_cons_self
    have htrim : trimBlanks (operandText o) = operandText o :=
      trimBlanks_of_forall fun c hc => (operandText_chars ho hc).2
    simp [List.mapM_cons, trimBlanks_blank_cons, htrim, readOperand_operandText ho,
      ih fun x hx => h x (List.mem_cons_of_mem _ hx)]

/-- The operands' text does not begin with a blank. -/
theorem operandsText_head {o : AsmOperand} {rest : List AsmOperand} (h : ∀ x ∈ o :: rest, operandNumber x < 100) :
    ∀ c ∈ (operandsText (o :: rest)).head?, isBlank c = false := by
  intro c hc
  refine (operandText_chars (h o List.mem_cons_self) (List.mem_of_mem_head? ?_)).2
  cases rest with
  | nil => exact hc
  | cons o' rest =>
    rwa [operandsText_cons_cons, List.head?_append_of_ne_nil _ (operandText_ne_nil o)] at hc

/-- The operands' text does not end with a blank. -/
theorem operandsText_last {o : AsmOperand} {rest : List AsmOperand} (h : ∀ x ∈ o :: rest, operandNumber x < 100) :
    ∀ c ∈ (operandsText (o :: rest)).getLast?, isBlank c = false := by
  induction rest generalizing o with
  | nil => exact fun c hc => (operandText_chars (h o List.mem_cons_self) (List.mem_of_getLast? hc)).2
  | cons o' rest ih =>
    intro c hc
    rw [operandsText_cons_cons, List.getLast?_append_cons, List.getLast?_cons_of_ne_nil (List.cons_ne_nil _ _),
      List.getLast?_cons_of_ne_nil (operandsText_ne_nil o' rest)] at hc
    exact ih (fun x hx => h x (List.mem_cons_of_mem _ hx)) c hc

/-- The operands of a line are read back, the blank before them included. -/
theorem readOperands_operandsText {o : AsmOperand} {rest : List AsmOperand} (h : ∀ x ∈ o :: rest, operandNumber x < 100) :
    readOperands (' ' :: operandsText (o :: rest)) = some (o :: rest) := by
  have hne : (trimBlanks (' ' :: operandsText (o :: rest))).isEmpty = false := by
    rw [trimBlanks_blank_cons, trimBlanks_eq_self (operandsText_head h) (operandsText_last h), List.isEmpty_eq_false_iff]
    exact operandsText_ne_nil o rest
  rw [readOperands, hne, splitCommas_operandsText o rest h, mapM_readOperand _ h]
  rfl

/-! ### The mnemonic -/

/-- The letters of a mnemonic are not blanks. -/
theorem asmName_no_blank (m : AsmMnemonic) : asmName m ≠ [] ∧ ∀ c ∈ asmName m, isBlank c = false := by
  have hany : asmName m ≠ [] ∧ (asmName m).any isBlank = false := by
    cases m <;> exact ⟨List.cons_ne_nil _ _, rfl⟩
  simpa using hany

/-- A mnemonic in letters of either case is read, is some text, and holds no blank. -/
theorem mnemonic_text {m : AsmMnemonic} {name : List Char} (h : name.map capital = asmName m) :
    readMnemonic name = some m ∧ name ≠ [] ∧ ∀ c ∈ name, isBlank c = false := by
  obtain ⟨hne, hblank⟩ := asmName_no_blank m
  refine ⟨?_, ?_, fun c hc => ?_⟩
  · rw [← readMnemonic_map_capital, h]
    cases m <;> rfl
  · rintro rfl
    exact hne h.symm
  · rw [Bool.eq_false_iff]
    intro hb
    have hmem : c ∈ asmName m := h ▸ capital_of_isBlank hb ▸ List.mem_map_of_mem hc
    exact absurd hb (Bool.eq_false_iff.1 (hblank c hmem))

/-! ### The line -/

/-- Operands in range have numbers of at most two digits. -/
theorem operandNumber_of_asmInRange {m : AsmMnemonic} {ops : List AsmOperand} (h : asmInRange m ops) :
    ∀ o ∈ ops, operandNumber o < 100 := by
  have hlt : ∀ {o b : AsmOperand}, asmBelow o b → operandNumber o < operandNumber b := by
    intro o b hb
    unfold asmBelow at hb
    split at hb
    case h_4 => exact hb.elim
    all_goals exact hb
  have hbound : ∀ b ∈ asmBounds m, operandNumber b ≤ 100 := by cases m <;> decide
  intro o ho
  obtain ⟨k, hk, rfl⟩ := List.getElem_of_mem ho
  obtain ⟨hlen, hget⟩ := List.forall₂_iff_get.1 h.1
  exact (hlt (hget k hk (hlen ▸ hk))).trans_le (hbound _ (List.get_mem _ _))

/-- The mnemonic of a line is its text up to the first blank, and the operands are the rest (R111). -/
theorem readLine_of_parts {line name t : List Char} {m : AsmMnemonic} {ops : List AsmOperand}
    (hline : trimBlanks line = name ++ t) (hname : ∀ c ∈ name, isBlank c = false) (ht : ∀ c ∈ t.head?, isBlank c = true)
    (hm : readMnemonic name = some m) (hops : readOperands t = some ops) : readLine line = some (m, ops) := by
  have hletters : ∀ c ∈ name, (!isBlank c) = true := fun c hc => by rw [hname c hc]; rfl
  have hrest : t.takeWhile (fun c => !isBlank c) = [] ∧ t.dropWhile (fun c => !isBlank c) = t := by
    cases t with
    | nil => exact ⟨rfl, rfl⟩
    | cons c t => simp [ht c rfl]
  simp [readLine, hline, List.takeWhile_append_of_pos hletters, List.dropWhile_append_of_pos hletters, hrest, hm, hops]

/-- A line as R111 writes it is read back. -/
theorem readLine_lineText {m : AsmMnemonic} {ops : List AsmOperand} {name : List Char} (h : asmInRange m ops)
    (hname : name.map capital = asmName m) : readLine (lineText name ops) = some (m, ops) := by
  obtain ⟨hread, hne, hblank⟩ := mnemonic_text hname
  cases ops with
  | nil =>
    refine readLine_of_parts (t := []) ?_ hblank (fun c hc => by cases hc) hread rfl
    rw [lineText, trimBlanks_of_forall hblank, List.append_nil]
  | cons o rest =>
    have hnum := operandNumber_of_asmInRange h
    have hline : lineText name (o :: rest) = name ++ ' ' :: operandsText (o :: rest) := by simp [lineText]
    refine readLine_of_parts ?_ hblank (fun c hc => by cases hc; rfl) hread (readOperands_operandsText hnum)
    rw [hline]
    refine trimBlanks_eq_self (fun c hc => hblank c (List.mem_of_mem_head? ?_)) fun c hc => operandsText_last hnum c ?_
    · rwa [List.head?_append_of_ne_nil _ hne] at hc
    · rwa [List.getLast?_append_cons, List.getLast?_cons_of_ne_nil (operandsText_ne_nil o rest)] at hc

/-- A line that gives a command is read as a mnemonic and operands that assemble to it. -/
theorem assembleLine_eq_some_iff (line : List Char) (i : Instr) :
    assembleLine line = some i ↔ ∃ m ops, readLine line = some (m, ops) ∧ assemble m ops = some i := by
  simp only [assembleLine, Option.bind_eq_some_iff, Prod.exists]

theorem asmName_map_capital (m : AsmMnemonic) : (asmName m).map capital = asmName m := by
  cases m <;> decide

/-- Settles O8: the assembler gives exactly the well-formed command with the operands written, whose word decodes back. -/
theorem assemblerNeverWraps : Obligations.AssemblerNeverWraps := by
  have hgives : ∀ {m ops i}, assemble m ops = some i →
      asmForm i = asmExpand m ops ∧ i.wf = true ∧ decode (encode i) = .ok i := fun h =>
    have ⟨hform, hwf⟩ := asmForm_of_assemble h
    ⟨hform, hwf, decode_encode hwf⟩
  refine ⟨assembles_iff_asmInRange, fun m ops i => hgives, fun d a => ?_, fun line i h => ?_,
    fun name => (readMnemonic_map_capital name).symm, by decide, by decide, by decide⟩
  · exact ⟨(assemble_asmExpand .fsqr [d, a]).symm, (assemble_asmExpand .fdbl [d, a]).symm,
      (assemble_asmExpand .fclr [d, a]).symm, (assemble_asmExpand .pdbl [d, a]).symm⟩
  · obtain ⟨m, ops, hline, h⟩ := (assembleLine_eq_some_iff line i).1 h
    exact ⟨m, ops, hline, (assembles_iff_asmInRange m ops).1 ⟨i, h⟩, hgives h⟩

/-- Settles O59: each part of the line is read back, and a command's own form is in range and assembles to it. -/
theorem assemblyLineReadsBack : Obligations.AssemblyLineReadsBack := by
  refine ⟨fun m ops name => readLine_lineText, fun i h => ?_⟩
  exact (assembleLine_eq_some_iff _ i).2
    ⟨_, _, readLine_lineText (asmInRange_asmForm h) (asmName_map_capital _), assemble_asmForm h⟩

end Sys2Proof.Slice0
end

section
/-! The field unit (spec/40_field.md R130 to R137): what each command's rule gives on every value of its sources, and the result
as integers modulo p, bytes of IN and bytes of OUT. -/

namespace Sys2Proof.Machine

variable {s : State}

/-! ### The rule of each command, source by source -/

/-- A three-operand field command on valid sources (R130 to R132). -/
theorem State.binaryF_valid (op : Fp → Fp → Fp) (rd : FReg) {rs1 rs2 : FReg} {a c : Fp} (h1 : s.fCell rs1 = .valid a)
    (h2 : s.fCell rs2 = .valid c) : s.binaryF op rd rs1 rs2 = .next ((s.writeF rd (op a c)).complete .ok) := by
  rw [State.binaryF, State.readPairF_valid h1 h2]; rfl

/-- A three-operand field command with an Invalid source (R137, R236). -/
theorem State.binaryF_invalid (op : Fp → Fp → Fp) (rd : FReg) {rs1 rs2 : FReg}
    (h : s.fCell rs1 = .invalid ∨ s.fCell rs2 = .invalid) :
    s.binaryF op rd rs1 rs2 = .next (s.raiseError .uninitRegister) := by
  rw [State.binaryF, State.readPairF_invalid h]; rfl

variable {rd rs : FReg} {a : Fp}

theorem execFinv_ne_zero (h : s.fCell rs = .valid a) (ha : a ≠ fzero) :
    execFinv rd rs s = .next ((s.writeF rd (finv a)).complete .ok) := by
  rw [execFinv, State.readF_valid h, ok_bind, bne_iff_ne.2 ha]; rfl

theorem execFinv_zero (h : s.fCell rs = .valid fzero) : execFinv rd rs s = .next (s.raiseError .divisionByZero) := by
  rw [execFinv, State.readF_valid h, ok_bind, bne_self_eq_false]; rfl

theorem execFinv_invalid (h : s.fCell rs = .invalid) : execFinv rd rs s = .next (s.raiseError .uninitRegister) := by
  rw [execFinv, State.readF_invalid h]; rfl

/-- All that FLD can do (R134). -/
theorem execFld_cases (rd : FReg) (slot : Fin 4) (s : State) :
    (∃ v : Fp, v.val = be (s.memRead (32 * slot) 32) ∧ execFld rd slot s = .next ((s.writeF rd v).complete .ok)) ∨
      (Config.p ≤ be (s.memRead (32 * slot) 32) ∧ execFld rd slot s = .next (s.raiseError .outOfRange)) := by
  rw [execFld]
  rcases decodeElem_cases (s.memRead (32 * slot) 32) with ⟨v, hv, e⟩ | ⟨hge, e⟩
  · exact .inl ⟨v, hv, by rw [elemOffset, e]; rfl⟩
  · exact .inr ⟨hge, by rw [elemOffset, e]; rfl⟩

theorem execFst_valid {slot : Fin 2} (h : s.fCell rs = .valid a) :
    execFst rs slot s = .next ((s.memWrite (elemOffset slot) (toBE32 a)).complete .ok) := by
  rw [execFst, State.readF_valid h]; rfl

theorem execFst_invalid {slot : Fin 2} (h : s.fCell rs = .invalid) :
    execFst rs slot s = .next (s.raiseError .uninitRegister) := by
  rw [execFst, State.readF_invalid h]; rfl

end Sys2Proof.Machine

namespace Sys2Proof.Slice0

open Sys2Proof Sys2Proof.Machine

/-! ### The commands -/

/-- The word of a well-formed command's fields decodes to it (R106, R113). -/
theorem hasWord_fields {i : Instr} (h : i.wf = true) : hasWord i i.fields.op i.fields.a i.fields.b i.fields.c := by
  rw [hasWord, ← encode_toNat, BitVec.ofNat_toNat, BitVec.setWidth_eq]
  exact decode_encode h

/-- Settles O35: fadd is the sum reduced once. -/
theorem faddResult : Obligations.FaddResult := fun rd _ _ _ =>
  ⟨hasWord_fields rfl, fun a c h1 h2 => ⟨fadd a c, fadd_val a c, State.binaryF_valid fadd rd h1 h2⟩,
    State.binaryF_invalid fadd rd⟩

/-- Settles O36: fsub is the integer difference reduced once, so p is added exactly when the difference is negative. -/
theorem fsubResult : Obligations.FsubResult := by
  intro rd rs1 rs2 s
  refine ⟨hasWord_fields rfl, fun a c h1 h2 => ⟨fsub a c, reduce_val _, ?_, State.binaryF_valid fsub rd h1 h2⟩,
    State.binaryF_invalid fsub rd⟩
  simp only [fsub_val, ← not_lt, ite_not]

/-- Settles O37: fmul is the product reduced once. -/
theorem fmulResult : Obligations.FmulResult := fun rd _ _ _ =>
  ⟨hasWord_fields rfl, fun a c h1 h2 => ⟨fmul a c, fmul_val a c, State.binaryF_valid fmul rd h1 h2⟩,
    State.binaryF_invalid fmul rd⟩

/-- Settles O38: p is prime, so a power p - 2 of a nonzero element is its inverse, and there is no other. -/
theorem finvResult : Obligations.FinvResult := by
  refine fun rd rs s => ⟨hasWord_fields rfl, fun a h ha => ?_, fun a h ha => ?_, execFinv_invalid⟩
  · have hne : a ≠ fzero := mt val_eq_zero.2 ha
    exact ⟨finv a, fmul_finv hne, fun u => finv_unique, execFinv_ne_zero h hne⟩
  · rw [val_eq_zero.1 ha] at h
    exact execFinv_zero h

/-- Settles O39: FLD decodes the number of the slot's 32 bytes, and the two outcomes of the decoder are split by p. -/
theorem fldResult : Obligations.FldResult := by
  intro rd slot s
  have hcases := execFld_cases rd slot s
  rw [be_memRead] at hcases
  refine ⟨hasWord_fields rfl, fun hlt => ?_, fun hge => ?_⟩
  · exact hcases.resolve_right fun h => absurd h.1 (Nat.not_le.2 hlt)
  · rcases hcases with ⟨v, hv, -⟩ | ⟨-, e⟩
    · exact absurd (hv ▸ v.isLt) (Nat.not_lt.2 hge)
    · exact e

/-- Settles O40: the 32 bytes stored are toBE32 of the register, and a store reaches no byte beside its own. -/
theorem fstResult : Obligations.FstResult := by
  intro rs slot s
  refine ⟨hasWord_fields rfl, fun v h => ⟨_, execFst_valid h, ?_, ?_, rfl⟩, execFst_invalid⟩
  · rw [outElem_complete]
    exact outElem_memWrite s (32 * slot) v (toBE32 v) [] [] (by simp) _ rfl
  · rw [memoryKept_complete]
    exact memoryKept_memWrite_elem s slot v

end Sys2Proof.Slice0
end

section
/-! The point unit (spec/41_point.md R160 to R169): what each command's rule gives on every value of its sources, where PointAdd
halts, the facts about the curve, and the group law. -/

namespace Sys2Proof.Machine

/-! ### The curve -/

/-- An element whose power to (p - 1) / k is not 1 is no k-th power (Fermat); said of 3, the constant of the curve. -/
theorem pow_ne_three {k : Nat} (hk : k ∣ Config.p - 1) (h : Laws.powMod Config.p 254 3 ((Config.p - 1) / k) ≠ 1)
    (z : ZMod Config.p) : z ^ k ≠ 3 := by
  have := fact_prime_p
  intro hz
  have h3 : ((3 : Nat) : ZMod Config.p) ≠ 0 := by rw [Ne, ZMod.natCast_eq_zero_iff]; decide
  have hk0 : k ≠ 0 := by rintro rfl; exact absurd (zero_dvd_iff.1 hk) (by decide)
  have hz0 : z ≠ 0 := by
    rintro rfl
    rw [zero_pow hk0] at hz
    exact h3 (by exact_mod_cast hz.symm)
  have hone : ((3 ^ ((Config.p - 1) / k) : Nat) : ZMod Config.p) = (1 : Nat) := by
    rw [Nat.cast_pow, Nat.cast_ofNat, ← hz, ← pow_mul, Nat.mul_div_cancel' hk, Nat.cast_one]
    exact ZMod.pow_card_sub_one_eq_one hz0
  rw [ZMod.natCast_eq_natCast_iff, Nat.ModEq, Nat.mod_eq_of_lt Laws.prime_p.one_lt] at hone
  rw [Laws.powMod_eq _ _ _ _ ((Nat.div_le_self _ _).trans_lt (by decide))] at h
  exact h hone

/-- 3 is no square modulo p, so no pair with x = 0 is on the curve (R161). -/
theorem onCurve_zero_left (y : Fp) : onCurve fzero y = false := by
  have hsq := pow_ne_three (k := 2) (by decide) (by decide +kernel) (asZMod y)
  rw [← Bool.not_eq_true, onCurve_iff, asZMod_fzero, zero_pow three_ne_zero, zero_add]
  exact hsq

/-- 3 is no cube modulo p, and so neither is -3; no pair with y = 0 is on the curve (R161). -/
theorem onCurve_zero_right (x : Fp) : onCurve x fzero = false := by
  have hcube := pow_ne_three (k := 3) (by decide) (by decide +kernel) (-asZMod x)
  rw [← Bool.not_eq_true, onCurve_iff, asZMod_fzero]
  exact fun h => hcube (by linear_combination h)

/-! ### PointAdd -/

/-- The guard of R165 tests y1 = 0: p is odd. -/
theorem reduce_two_mul_eq_fzero (y : Fp) : reduce (2 * toInt y) = fzero ↔ y = fzero := by
  have := fact_prime_p
  rw [← asZMod_eq_zero, ← asZMod_eq_zero, asZMod_reduce, Int.cast_mul, asZMod_toInt, Int.cast_ofNat, mul_eq_zero,
    or_iff_right two_ne_zero_Z]

/-- PointAdd with equal x and y neither negatives nor equal: the guard for y1 = 0, no step for any other y1 (R164, U3, U12). -/
theorem pointAdd_off_curve {x y1 y2 : Fp} (hsum : fadd y1 y2 ≠ fzero) (hne : y1 ≠ y2) :
    pointAdd (.aff x y1) (.aff x y2) =
      .error (.halt (if y1 = fzero then .divisionByZeroGuard else .equalXOffCurve)) := by
  simp only [pointAdd, if_pos, if_neg hsum, if_neg hne, reduce_two_mul_eq_fzero, halt_eq]
  split <;> rfl

/-- PointAdd ends early on no other points: equal nonzero y pass the guard (R165). -/
theorem pointAdd_error {q1 q2 : Point} {e : Exit} (h : pointAdd q1 q2 = .error e) :
    ∃ x y1 y2, q1 = .aff x y1 ∧ q2 = .aff x y2 ∧ fadd y1 y2 ≠ fzero ∧ y1 ≠ y2 := by
  cases q1 with
  | inf => cases h
  | aff x1 y1 =>
    cases q2 with
    | inf => cases h
    | aff x2 y2 =>
      simp only [pointAdd, reduce_two_mul_eq_fzero] at h
      split_ifs at h with hx hsum hzero hy
      · subst hx
        refine ⟨x1, y1, y2, rfl, rfl, hsum, ?_⟩
        rintro rfl
        exact hsum (by rw [hzero]; rfl)
      · subst hx
        exact ⟨x1, y1, y2, rfl, rfl, hsum, hy⟩

theorem pointAdd_inf_right (q : Point) : pointAdd q .inf = .ok q := by cases q <;> rfl

theorem pointAdd_fneg (x y : Fp) : pointAdd (.aff x y) (.aff x (fneg y)) = .ok .inf := by
  have hsum : fadd y (fneg y) = fzero := by rw [← asZMod_eq_zero, asZMod_fadd, asZMod_fneg, add_neg_cancel]
  simp only [pointAdd, if_pos, hsum]

/-- On valid points PointAdd gives the valid point that stands for the sum in the group (R169). -/
theorem pointAdd_represents [Fact (Nat.Prime Config.p)] {q1 q2 : Point} {P1 P2 : bnCurve.Point} (h1 : q1.wf = true)
    (h2 : q2.wf = true) (r1 : Represents q1 P1) (r2 : Represents q2 P2) :
    ∃ q, pointAdd q1 q2 = .ok q ∧ q.wf = true ∧ Represents q (P1 + P2) := by
  obtain ⟨q, hq, hw⟩ := pointAdd_wf h1 h2
  exact ⟨q, hq, hw, represents_pointAdd r1 r2 hq⟩

/-! ### The rule of each command, source by source -/

variable {s : State} {rs1 rs2 : FReg} {x y : Fp} {pd ps ps1 ps2 : PReg} {q q1 q2 : Point}

/-- PCHK with an Invalid source (R160, R236). -/
theorem execPchk_invalid (h : s.fCell rs1 = .invalid ∨ s.fCell rs2 = .invalid) :
    execPchk rs1 rs2 s = .next (s.raiseError .uninitRegister) := by
  rw [execPchk, State.readPairF_invalid h]; rfl

/-- PDEC on valid sources is PointDecode of the pair (R163). -/
theorem execPdec_valid (pd : PReg) (h1 : s.fCell rs1 = .valid x) (h2 : s.fCell rs2 = .valid y) :
    execPdec pd rs1 rs2 s = s.finish ((pointDecode x y).map (s.writeP pd)) := by
  rw [execPdec, State.readPairF_valid h1 h2, ok_bind]; rfl

/-- PDEC of a pair that decodes (R163). -/
theorem execPdec_ok (pd : PReg) (h1 : s.fCell rs1 = .valid x) (h2 : s.fCell rs2 = .valid y) (hq : pointDecode x y = .ok q) :
    execPdec pd rs1 rs2 s = .next ((s.writeP pd q).complete .ok) := by
  rw [execPdec_valid pd h1 h2, hq]; rfl

/-- PDEC of a pair that does not decode (R163). -/
theorem execPdec_raised (pd : PReg) {e : ErrorKind} (h1 : s.fCell rs1 = .valid x) (h2 : s.fCell rs2 = .valid y)
    (he : pointDecode x y = .error (.raised e)) : execPdec pd rs1 rs2 s = .next (s.raiseError e) := by
  rw [execPdec_valid pd h1 h2, he]; rfl

/-- PDEC with an Invalid source (R163, R236). -/
theorem execPdec_invalid (pd : PReg) (h : s.fCell rs1 = .invalid ∨ s.fCell rs2 = .invalid) :
    execPdec pd rs1 rs2 s = .next (s.raiseError .uninitRegister) := by
  rw [execPdec, State.readPairF_invalid h]; rfl

/-- PADD where PointAdd gives a point (R166). -/
theorem execPadd_ok (pd : PReg) (h1 : s.pCell ps1 = .valid q1) (h2 : s.pCell ps2 = .valid q2) (hq : pointAdd q1 q2 = .ok q) :
    execPadd pd ps1 ps2 s = .next ((s.writeP pd q).complete .ok) := by
  rw [execPadd, State.readP_valid h1, ok_bind, State.readP_valid h2, ok_bind, hq]; rfl

/-- PADD where PointAdd halts (R165). -/
theorem execPadd_halt (pd : PReg) {f : Fault} (h1 : s.pCell ps1 = .valid q1) (h2 : s.pCell ps2 = .valid q2)
    (hf : pointAdd q1 q2 = .error (.halt f)) : execPadd pd ps1 ps2 s = .fault f := by
  rw [execPadd, State.readP_valid h1, ok_bind, State.readP_valid h2, ok_bind, hf]; rfl

/-- PADD with an Invalid source (R166, R236). -/
theorem execPadd_invalid (pd : PReg) (h : s.pCell ps1 = .invalid ∨ s.pCell ps2 = .invalid) :
    execPadd pd ps1 ps2 s = .next (s.raiseError .uninitRegister) := by
  rcases h1 : s.pCell ps1 with _ | q1
  · rw [execPadd, State.readP_invalid h1]; rfl
  · have h2 := h.resolve_left (by simp [h1])
    rw [execPadd, State.readP_valid h1, ok_bind, State.readP_invalid h2]; rfl

/-- PADD faults only where PointAdd halts on the points of its sources. -/
theorem execPadd_fault {f : Fault} (h : execPadd pd ps1 ps2 s = .fault f) :
    ∃ q1 q2, s.pCell ps1 = .valid q1 ∧ s.pCell ps2 = .valid q2 ∧ pointAdd q1 q2 = .error (.halt f) := by
  rcases bind_eq_error (State.finish_fault h) with h1 | ⟨q1, h1, h⟩
  · exact absurd h1 (readP_not_halt s ps1 f)
  rcases bind_eq_error h with h2 | ⟨q2, h2, h⟩
  · exact absurd h2 (readP_not_halt s ps2 f)
  rcases bind_eq_error h with hq | ⟨q, -, h⟩
  · exact ⟨q1, q2, State.readP_eq_ok.1 h1, State.readP_eq_ok.1 h2, hq⟩
  · cases h

/-- PENC with an even destination and a valid source (R167). -/
theorem execPenc_valid {rd : FReg} (he : FReg.even rd = true) (h : s.pCell ps = .valid q) :
    execPenc rd ps s = .next (((s.writeF rd (pointEncode q).1).writeF (rd + 1) (pointEncode q).2).complete .ok) := by
  rw [execPenc, he, require_true, ok_bind, State.readP_valid h, ← Slice0.pairSecond_eq]; rfl

/-- PENC with an even destination and an Invalid source (R167, R236). -/
theorem execPenc_invalid {rd : FReg} (he : FReg.even rd = true) (h : s.pCell ps = .invalid) :
    execPenc rd ps s = .next (s.raiseError .uninitRegister) := by
  rw [execPenc, he, require_true, ok_bind, State.readP_invalid h]; rfl

/-- PENC with an odd destination, whatever its source holds (R103, R167). -/
theorem execPenc_odd {rd : FReg} (he : FReg.even rd = false) :
    execPenc rd ps s = .next (s.raiseError .illegalCommand) := by
  rw [execPenc, he]; rfl

end Sys2Proof.Machine

namespace Sys2Proof

/-- The word of a PENC with an odd destination is illegal (R103): its OP byte leaves PENC's row alone to match, and the row reads
well-formed commands only. -/
theorem decode_penc_odd {rd : FReg} (ps : PReg) (he : FReg.even rd = false) :
    ∃ e, decode (encode (.penc rd ps)) = .error e := by
  have hrow : (⟨.penc, 0x00000013, 0xFFFFC1FF⟩ : OpcodeRow) ∈ opcodeMap := by decide
  have hlow : (encode (.penc rd ps)).toNat % 256 = 0x13 := by
    rw [encode_toNat]; simp only [Instr.fields]; omega
  refine decode_error_of_no_match fun r hr hm => ?_
  obtain rfl := row_eq_of_match hr hm hrow hlow
  have hread : operandsOf .penc (encode (.penc rd ps)) = .penc rd ps := operandsOf_encode (.penc rd ps)
  have hwf : (operandsOf .penc (encode (.penc rd ps))).wf = true := ((match_iff_encode hrow _).1 hm).1
  rw [hread] at hwf
  exact Bool.false_ne_true (he.symm.trans hwf)

end Sys2Proof

namespace Sys2Proof.Slice0

open Sys2Proof Sys2Proof.Machine

/-! ### The commands -/

/-- Settles O41: FLAG is OnCurve's answer, which is the truth of the curve equation. -/
theorem pchkResult : Obligations.PchkResult := by
  refine fun rs1 rs2 s => ⟨hasWord_fields rfl, fun x y h1 h2 => ?_, execPchk_invalid⟩
  rw [exec_pchk_valid h1 h2, ← onCurve_curveEq]
  exact ⟨fun hc => by rw [hc]; rfl, fun hc => by rw [Bool.eq_false_of_not_eq_true hc]; rfl⟩

/-- Settles O42: PDEC is PointDecode, whose three answers are the three cases of the pair. -/
theorem pdecResult : Obligations.PdecResult := by
  refine fun pd rs1 rs2 s => ⟨hasWord_fields rfl, fun x y h1 h2 => ?_, execPdec_invalid pd⟩
  rw [val_eq_zero, val_eq_zero, ← onCurve_curveEq]
  rcases pointDecode_cases x y with ⟨hx, hy, e⟩ | ⟨hz, hc, e⟩ | ⟨hz, hc, e⟩
  · exact ⟨fun _ _ => execPdec_ok pd h1 h2 e, fun hz => absurd ⟨hx, hy⟩ hz, fun hz => absurd ⟨hx, hy⟩ hz⟩
  · exact ⟨fun hx hy => absurd ⟨hx, hy⟩ hz, fun _ _ => execPdec_ok pd h1 h2 e, fun _ hc' => absurd hc hc'⟩
  · exact ⟨fun hx hy => absurd ⟨hx, hy⟩ hz, fun _ hc' => absurd (hc.symm.trans hc') Bool.false_ne_true,
      fun _ _ => execPdec_raised pd h1 h2 e⟩

/-- Settles O43: on valid points PointAdd gives a valid point, and it is the sum of the group law. -/
theorem paddResult : Obligations.PaddResult := by
  refine fun pd ps1 ps2 s => ⟨hasWord_fields rfl, fun q1 q2 h1 h2 w1 w2 => ?_, execPadd_invalid pd⟩
  obtain ⟨q, hq, hw⟩ := pointAdd_wf w1 w2
  exact ⟨q, isSum_of_pointAdd w1 w2 hq, hw, execPadd_ok pd h1 h2 hq⟩

/-- Settles O44: an even rd heads the pair PENC writes, and an odd one makes the command ill-formed, its word illegal. -/
theorem pencResult : Obligations.PencResult := by
  refine fun rd ps s => ⟨fun heven => ?_, fun hodd => ?_⟩
  · have he : FReg.even rd = true := beq_iff_eq.2 heven
    refine ⟨hasWord_fields he, fun zero hz h => ?_, fun x y h => execPenc_valid he h, execPenc_invalid he⟩
    rw [val_eq_zero.1 hz]
    exact execPenc_valid he h
  · have he : FReg.even rd = false := beq_eq_false_iff_ne.2 (by omega)
    have hword : BitVec.ofNat 32 (0x13 + 2 ^ 8 * rd.val + 2 ^ 12 * ps.val) = encode (.penc rd ps) :=
      BitVec.eq_of_toNat_eq (by rw [encode_toNat]; simp only [Instr.fields, BitVec.toNat_ofNat]; omega)
    rw [hword]
    exact ⟨decode_penc_odd ps he, execPenc_odd he⟩

/-! ### The curve and the group law -/

/-- Settles O51: 3 is neither a square nor a cube modulo p, so a point has neither x = 0 nor y = 0. -/
theorem curveFacts : Obligations.CurveFacts := by
  refine ⟨onCurve_zero_left fzero, fun x y hx => ?_, fun x y hy => ?_, fun x y hx hy => ?_⟩
  · rw [val_eq_zero.1 hx]; exact onCurve_zero_left y
  · rw [val_eq_zero.1 hy]; exact onCurve_zero_right x
  · rw [onCurve_curveEq, hx, hy]; rfl

/-- Settles O52: PADD faults exactly where PointAdd halts. -/
theorem paddHaltsOnlyOffCurve : Obligations.PaddHaltsOnlyOffCurve := by
  intro pd ps1 ps2 s
  have hneg : ∀ y1 y2 : Fp, (y1.val + y2.val) % Config.p ≠ 0 ↔ fadd y1 y2 ≠ fzero := fun y1 y2 => by
    rw [← fadd_val, Ne, val_eq_zero]
  refine ⟨fun x y1 y2 h1 h2 hsum hne => ?_, fun f hf => ?_⟩
  · have hhalt := pointAdd_off_curve (x := x) ((hneg y1 y2).1 hsum) (fun e => hne (congrArg Fin.val e))
    have hfault := execPadd_halt pd h1 h2 hhalt
    rw [Ne, val_eq_zero]
    exact ⟨fun hz => by rwa [if_pos hz] at hfault, fun hz => by rwa [if_neg hz] at hfault⟩
  · obtain ⟨q1, q2, h1, h2, hhalt⟩ := execPadd_fault hf
    obtain ⟨x, y1, y2, rfl, rfl, hsum, hne⟩ := pointAdd_error hhalt
    exact ⟨x, y1, y2, h1, h2, (hneg y1 y2).2 hsum, fun e => hne (Fin.ext e)⟩

/-- Settles O53: the sums in both orders stand for the same point of a commutative group. -/
theorem pointAddGroupLaws : Obligations.PointAddGroupLaws := by
  refine ⟨fun q => ⟨pointAdd_inf_right q, rfl⟩, pointAdd_fneg, fun q1 q2 w1 w2 => ?_⟩
  have := fact_prime_p
  obtain ⟨P1, r1⟩ := represents_exists w1
  obtain ⟨P2, r2⟩ := represents_exists w2
  obtain ⟨q, hq, -, hr⟩ := pointAdd_represents w1 w2 r1 r2
  obtain ⟨q', hq', -, hr'⟩ := pointAdd_represents w2 w1 r2 r1
  rw [add_comm] at hr'
  rw [hq, hq', represents_unique hr hr']

/-- Settles O54: the two bracketings stand for the same point of the group. -/
theorem pointAddAssociative : Obligations.PointAddAssociative := by
  intro q1 q2 q3 w1 w2 w3
  have := fact_prime_p
  obtain ⟨P1, r1⟩ := represents_exists w1
  obtain ⟨P2, r2⟩ := represents_exists w2
  obtain ⟨P3, r3⟩ := represents_exists w3
  obtain ⟨q12, h12, w12, r12⟩ := pointAdd_represents w1 w2 r1 r2
  obtain ⟨q23, h23, w23, r23⟩ := pointAdd_represents w2 w3 r2 r3
  obtain ⟨q, hq, -, hr⟩ := pointAdd_represents w12 w3 r12 r3
  obtain ⟨q', hq', -, hr'⟩ := pointAdd_represents w1 w23 r1 r23
  rw [← add_assoc] at hr'
  exact ⟨q12, q23, q, h12, h23, hq, by rw [hq', represents_unique hr hr']⟩

/-- Settles O57: valid points never make PointAdd halt, nothing else stops a command, and what it writes is valid. -/
theorem everyCommandCompletes : Obligations.EveryCommandCompletes := by
  intro i s hv
  obtain ⟨t, ht⟩ := exec_completes i s fun _ ps1 ps2 _ q1 q2 h1 h2 =>
    (pointAdd_wf (hv ps1 q1 h1) (hv ps2 q2 h2)).imp fun _ hq => hq.1
  refine ⟨t, ht, ?_⟩
  rcases exec_next ht with ⟨u, hu, rfl⟩ | ⟨e, rfl⟩
  · exact hu.writes.pointsValid hv
  · exact hv

end Sys2Proof.Slice0
end

section
/-! The point codec (spec/42_codec.md R190 to R194): a valid point and its 64 bytes determine each other, and PLD and PST are the
two directions between a P register and the buffers. -/

namespace Sys2Proof.Machine

/-! ### Points and pairs of coordinates -/

/-- PointDecode undoes PointEncode on valid points (R162, R168): no point on the curve has the coordinates of the sentinel
(R161). -/
theorem pointDecode_pointEncode {q : Point} (hq : q.wf = true) :
    pointDecode (pointEncode q).1 (pointEncode q).2 = .ok q := by
  cases q with
  | inf => rfl
  | aff x y =>
    have hcurve : onCurve x y = true := hq
    have hne : ¬(x = fzero ∧ y = fzero) := by
      rintro ⟨rfl, -⟩
      exact Bool.false_ne_true ((onCurve_zero_left y).symm.trans hcurve)
    rw [pointEncode, pointDecode, if_neg hne, if_pos hcurve]

/-- PointEncode undoes PointDecode on every pair it accepts (R162, R168). -/
theorem pointEncode_of_pointDecode {x y : Fp} {q : Point} (h : pointDecode x y = .ok q) : pointEncode q = (x, y) := by
  rcases pointDecode_cases x y with ⟨rfl, rfl, e⟩ | ⟨-, -, e⟩ | ⟨-, -, e⟩ <;> cases e.symm.trans h <;> rfl

/-! ### Points and bytes -/

/-- DecodePoint of two encoded elements is PointDecode of the elements (R191). -/
theorem decodePoint_toBE32_append (x y : Fp) : decodePoint (toBE32 x ++ toBE32 y) = pointDecode x y := by
  rw [decodePoint, List.take_left' (length_toBE32 x), List.drop_left' (length_toBE32 x), decodeElem_toBE32, ok_bind,
    decodeElem_toBE32, ok_bind]

/-- DecodePoint undoes EncodePoint on valid points (R194). -/
theorem decodePoint_encodePoint {q : Point} (hq : q.wf = true) : decodePoint (encodePoint q) = .ok q := by
  rw [encodePoint, decodePoint_toBE32_append, pointDecode_pointEncode hq]

/-- EncodePoint undoes DecodePoint on the 64 bytes it accepts (R194). -/
theorem encodePoint_of_decodePoint {bytes : List Byte} {q : Point} (hlen : bytes.length = 64)
    (h : decodePoint bytes = .ok q) : encodePoint q = bytes := by
  obtain ⟨x, hx, h⟩ := bind_eq_ok h
  obtain ⟨y, hy, h⟩ := bind_eq_ok h
  have hxb : toBE32 x = bytes.take 32 := toBE32_of_decodeElem (by simp [hlen]) hx
  have hyb : toBE32 y = bytes.drop 32 := toBE32_of_decodeElem (by simp [hlen]) hy
  rw [encodePoint, pointEncode_of_pointDecode h, hxb, hyb, List.take_append_drop]

/-! ### The rule of each command, source by source -/

variable {s : State} {pd ps : PReg} {slot : Fin 2} {q : Point}

/-- PLD of 64 bytes that decode (R190). -/
theorem execPld_ok (h : decodePoint (s.memRead (64 * slot) 64) = .ok q) :
    execPld pd slot s = .next ((s.writeP pd q).complete .ok) := by
  rw [execPld, pointOffset, h]; rfl

/-- PLD of 64 bytes that do not decode (R190). -/
theorem execPld_raised {e : ErrorKind} (h : decodePoint (s.memRead (64 * slot) 64) = .error (.raised e)) :
    execPld pd slot s = .next (s.raiseError e) := by
  rw [execPld, pointOffset, h]; rfl

/-- PST of a valid source (R192). -/
theorem execPst_valid (h : s.pCell ps = .valid q) :
    execPst ps s = .next ((s.memWrite 0 (encodePoint q)).complete .ok) := by
  rw [execPst, State.readP_valid h]; rfl

/-- PST of an Invalid source (R192, R236). -/
theorem execPst_invalid (h : s.pCell ps = .invalid) : execPst ps s = .next (s.raiseError .uninitRegister) := by
  rw [execPst, State.readP_invalid h]; rfl

end Sys2Proof.Machine

namespace Sys2Proof.Slice0

open Sys2Proof Sys2Proof.Machine

/-! ### The commands -/

/-- Settles O45: PLD is DecodePoint of the slot's bytes, whose three answers are the three cases of the 64 bytes. -/
theorem pldResult : Obligations.PldResult := fun _ _ _ =>
  ⟨hasWord_fields rfl, fun _ hq => execPld_ok (decodePoint_of_holds hq),
    fun hrange => execPld_raised (decodePoint_of_outOfRange hrange),
    fun hcurve => execPld_raised (decodePoint_of_offCurve hcurve)⟩

/-- Settles O46: the 64 bytes stored are the encoding of the register's point, and they fill OUT exactly. -/
theorem pstResult : Obligations.PstResult := by
  refine fun ps s => ⟨hasWord_fields rfl, fun q h => ⟨_, execPst_valid h, ?_, ?_, rfl⟩, execPst_invalid⟩
  · rw [outPoint_complete]
    exact outPoint_memWrite s q
  · rw [memoryKept_complete]
    exact memoryKept_memWrite s q

/-! ### The codec -/

/-- Settles O47: elements and their 32 bytes determine each other, and so do points and pairs of coordinates, since no point of the
curve is the sentinel (0, 0). -/
theorem codecIsBijective : Obligations.CodecIsBijective :=
  ⟨fun _ hq => decodePoint_encodePoint hq, fun _ _ hlen h => encodePoint_of_decodePoint hlen h⟩

end Sys2Proof.Slice0
end

section
/-! The add operation (spec/43_add.md R210 to R213): what ADD answers once its length, A and B are decided, that it completes
in every state, and that it sees no register. -/

namespace Sys2Proof.Machine

/-! ### The rule of ADD, stage by stage -/

variable {s : State} {a b c : Point} {e : ErrorKind}

/-- ADD of two encodings that decode (R210). -/
theorem execAdd_ok (hl : s.inlen = 128) (ha : decodePoint (s.memRead 0 64) = .ok a)
    (hb : decodePoint (s.memRead 64 64) = .ok b) (hc : pointAdd a b = .ok c) :
    execAdd s = .next ((s.memWrite 0 (encodePoint c)).complete .ok) := by
  rw [Slice0.execAdd_128 hl, ha, ok_bind, hb, ok_bind, hc]; rfl

/-- An error in A ends ADD before B is decoded (R213). -/
theorem execAdd_raised_first (hl : s.inlen = 128) (ha : decodePoint (s.memRead 0 64) = .error (.raised e)) :
    execAdd s = .next (s.raiseError e) := by
  rw [Slice0.execAdd_128 hl, ha]; rfl

/-- An error in B, with A decoded (R213). -/
theorem execAdd_raised_second (hl : s.inlen = 128) (ha : decodePoint (s.memRead 0 64) = .ok a)
    (hb : decodePoint (s.memRead 64 64) = .error (.raised e)) : execAdd s = .next (s.raiseError e) := by
  rw [Slice0.execAdd_128 hl, ha, ok_bind, hb]; rfl

/-- What DecodePoint answers: a valid point, or an error that is not code 6. -/
theorem decodePoint_ok_or_raised (bytes : List Byte) :
    (∃ q, decodePoint bytes = .ok q ∧ q.wf = true) ∨
      ∃ e, decodePoint bytes = .error (.raised e) ∧ e ≠ .uninitRegister := by
  rcases h : decodePoint bytes with e | q
  · rcases decodePoint_error h with rfl | rfl
    · exact .inr ⟨_, rfl, by decide⟩
    · exact .inr ⟨_, rfl, by decide⟩
  · exact .inl ⟨q, rfl, decodePoint_wf h⟩

/-- All that ADD can do, in every state: store the encoding of a point in OUT, or end with a code other than 6 and nothing
written (R210, R212). -/
theorem execAdd_cases (s : State) :
    (∃ c, execAdd s = .next ((s.memWrite 0 (encodePoint c)).complete .ok)) ∨
      ∃ e, e ≠ .uninitRegister ∧ execAdd s = .next (s.raiseError e) := by
  by_cases hl : s.inlen = 128
  · rcases decodePoint_ok_or_raised (s.memRead 0 64) with ⟨a, ha, wa⟩ | ⟨e, ha, he⟩
    · rcases decodePoint_ok_or_raised (s.memRead 64 64) with ⟨b, hb, wb⟩ | ⟨e, hb, he⟩
      · obtain ⟨c, hc, -⟩ := pointAdd_wf wa wb
        exact .inl ⟨c, execAdd_ok hl ha hb hc⟩
      · exact .inr ⟨e, he, execAdd_raised_second hl ha hb⟩
    · exact .inr ⟨e, he, execAdd_raised_first hl ha⟩
  · exact .inr ⟨_, by decide, exec_add_inlen_ne hl⟩

end Sys2Proof.Machine

namespace Sys2Proof.Slice0

open Sys2Proof Sys2Proof.Machine

/-- Only the registers and FLAG changed. -/
def withRegisters (f : Vector (Cell Fp) 16) (g : Vector (Cell Point) 4) (fl : Bool) (s : State) : State :=
  { s with fregs := f, pregs := g, flag := fl }

/-- ADD has no register among its sources and destinations (R212). -/
theorem transparent_withRegisters (f : Vector (Cell Fp) 16) (g : Vector (Cell Point) 4) (fl : Bool) (s : State) :
    Transparent (withRegisters f g fl) .add s where
  readF _ h := absurd h List.not_mem_nil
  readP _ h := absurd h List.not_mem_nil
  memRead _ _ _ := rfl
  inlen _ := rfl
  writeF h := absurd rfl h
  writeP h := absurd rfl h
  memWrite _ _ _ := rfl
  writeFlag := fun ⟨_, _, h⟩ => Instr.noConfusion h
  complete _ _ := rfl

/-- Settles O48: what IN holds is two valid points, on which PointAdd gives the valid point of the group law, and its encoding
fills OUT exactly. -/
theorem addResult : Obligations.AddResult := by
  refine ⟨hasWord_fields (i := .add) rfl, fun s a b hl ha hb => ?_⟩
  have wa := holdsPoint_wf ha
  have wb := holdsPoint_wf hb
  obtain ⟨c, hc, wc⟩ := pointAdd_wf wa wb
  refine ⟨c, _, isSum_of_pointAdd wa wb hc, wc, execAdd_ok hl (decodePoint_of_holds ha) (decodePoint_of_holds hb) hc,
    ?_, ?_, rfl⟩
  · rw [outPoint_complete]
    exact outPoint_memWrite s c
  · rw [memoryKept_complete]
    exact memoryKept_memWrite s c

/-- Settles O49: the length, A and B are decided in this order, and the first error ends the rule. -/
theorem addErrorOrder : Obligations.AddErrorOrder := fun _ =>
  ⟨exec_add_inlen_ne,
    fun hl hrange => execAdd_raised_first hl (decodePoint_of_outOfRange hrange),
    fun hl hcurve => execAdd_raised_first hl (decodePoint_of_offCurve hcurve),
    fun _ hl ha hrange => execAdd_raised_second hl (decodePoint_of_holds ha) (decodePoint_of_outOfRange hrange),
    fun _ hl ha hcurve => execAdd_raised_second hl (decodePoint_of_holds ha) (decodePoint_of_offCurve hcurve)⟩

/-- Settles O50: ADD stores in OUT or reports an error other than code 6, and a change of the registers is carried through it. -/
theorem addUsesNoRegister : Obligations.AddUsesNoRegister := by
  refine ⟨fun s => ?_, fun s t f g fl h => exec_next_of_transparent (transparent_withRegisters f g fl s) h⟩
  rcases execAdd_cases s with ⟨c, hadd⟩ | ⟨e, he, hadd⟩
  · exact ⟨_, hadd, rfl, rfl, rfl, rfl, StatusCode.noConfusion⟩
  · exact ⟨_, hadd, rfl, rfl, rfl, rfl, fun hcode => he (StatusCode.error.inj hcode)⟩

end Sys2Proof.Slice0
end

section
/-! Errors (spec/60_exceptions.md R231, R236): code 6 is raised by an Invalid source register and by nothing else, a command that
ends with code 0 leaves its destinations valid, and one that ends with another code writes nothing. An idle engine keeps its
state (spec/60_exceptions.md R249). -/

namespace Sys2Proof.Machine

open Sys2Proof.Slice0

variable {i : Instr} {s t u : State}

/-! ### Invalid sources -/

theorem Cell.ne_invalid_iff {α : Type} {c : Cell α} : c ≠ .invalid ↔ ∃ v, c = .valid v := by
  cases c <;> simp

/-- One of two cells is Invalid when a register of the pair is. -/
theorem invalid_of_mem_pair {α ι : Type} {cell : ι → Cell α} {r r1 r2 : ι} (hr : r ∈ [r1, r2]) (h : cell r = .invalid) :
    cell r1 = .invalid ∨ cell r2 = .invalid := by
  rcases List.mem_pair.1 hr with rfl | rfl
  · exact .inl h
  · exact .inr h

/-- A command with an Invalid F source ends with code 6 and nothing written (R236). -/
theorem exec_of_fSource_invalid {r : FReg} (hr : r ∈ fSources i) (h : s.fCell r = .invalid) :
    exec i s = .next (s.raiseError .uninitRegister) := by
  cases i with
  | fadd rd => exact State.binaryF_invalid fadd rd (invalid_of_mem_pair hr h)
  | fsub rd => exact State.binaryF_invalid fsub rd (invalid_of_mem_pair hr h)
  | fmul rd => exact State.binaryF_invalid fmul rd (invalid_of_mem_pair hr h)
  | finv => cases List.mem_singleton.1 hr; exact execFinv_invalid h
  | fst => cases List.mem_singleton.1 hr; exact execFst_invalid h
  | pchk => exact execPchk_invalid (invalid_of_mem_pair hr h)
  | pdec pd => exact execPdec_invalid pd (invalid_of_mem_pair hr h)
  | fld | padd | penc | pld | pst | add => exact absurd hr List.not_mem_nil

/-- A well-formed command with an Invalid P source ends with code 6 and nothing written (R236); a PENC that is not well-formed is
illegal first (R238). -/
theorem exec_of_pSource_invalid {r : PReg} (hi : i.wf = true) (hr : r ∈ pSources i) (h : s.pCell r = .invalid) :
    exec i s = .next (s.raiseError .uninitRegister) := by
  cases i with
  | padd pd => exact execPadd_invalid pd (invalid_of_mem_pair hr h)
  | penc => cases List.mem_singleton.1 hr; exact execPenc_invalid hi h
  | pst => cases List.mem_singleton.1 hr; exact execPst_invalid h
  | fadd | fsub | fmul | finv | fld | fst | pchk | pdec | pld | add => exact absurd hr List.not_mem_nil

/-! ### Valid sources -/

/-- PointAdd raises no error: where it gives no point, it halts (R165). -/
theorem pointAdd_ok_or_halt (q1 q2 : Point) : (∃ q, pointAdd q1 q2 = .ok q) ∨ ∃ f, pointAdd q1 q2 = .error (.halt f) := by
  rcases h : pointAdd q1 q2 with e | q
  · obtain ⟨x, y1, y2, rfl, rfl, hsum, hne⟩ := pointAdd_error h
    cases h.symm.trans (pointAdd_off_curve hsum hne)
    exact .inr ⟨_, rfl⟩
  · exact .inl ⟨q, rfl⟩

/-- A three-operand field command on valid sources ends with code 0. -/
theorem State.binaryF_code {op : Fp → Fp → Fp} {rd rs1 rs2 : FReg} (hF : ∀ r ∈ [rs1, rs2], s.fCell r ≠ .invalid)
    (h : s.binaryF op rd rs1 rs2 = .next t) : t.code = .ok := by
  rcases s.binaryF_cases op rd rs1 rs2 with ⟨a, c, -, -, e⟩ | ⟨h1 | h2, -⟩
  · cases e.symm.trans h; rfl
  · exact absurd h1 (hF rs1 (by simp))
  · exact absurd h2 (hF rs2 (by simp))

/-- With valid sources no check of a command raises code 6. -/
theorem exec_code_ne_uninitRegister (hF : ∀ r ∈ fSources i, s.fCell r ≠ .invalid)
    (hP : ∀ r ∈ pSources i, s.pCell r ≠ .invalid) (h : exec i s = .next t) : t.code ≠ .error .uninitRegister := by
  cases i with
  | fadd | fsub | fmul => rw [State.binaryF_code hF h]; simp
  | finv rd rs =>
    obtain ⟨a, ha⟩ := Cell.ne_invalid_iff.1 (hF rs (by simp [fSources]))
    by_cases hz : a = fzero
    · cases (execFinv_zero (hz ▸ ha)).symm.trans h; simp
    · cases (execFinv_ne_zero ha hz).symm.trans h; simp
  | fld rd slot =>
    rcases execFld_cases rd slot s with ⟨v, -, e⟩ | ⟨-, e⟩ <;> cases e.symm.trans h <;> simp
  | fst rs slot =>
    obtain ⟨a, ha⟩ := Cell.ne_invalid_iff.1 (hF rs (by simp [fSources]))
    cases (execFst_valid ha).symm.trans h; simp
  | pchk rs1 rs2 =>
    obtain ⟨x, hx⟩ := Cell.ne_invalid_iff.1 (hF rs1 (by simp [fSources]))
    obtain ⟨y, hy⟩ := Cell.ne_invalid_iff.1 (hF rs2 (by simp [fSources]))
    cases (exec_pchk_valid hx hy).symm.trans h; simp
  | pdec pd rs1 rs2 =>
    obtain ⟨x, hx⟩ := Cell.ne_invalid_iff.1 (hF rs1 (by simp [fSources]))
    obtain ⟨y, hy⟩ := Cell.ne_invalid_iff.1 (hF rs2 (by simp [fSources]))
    rcases pointDecode_cases x y with ⟨-, -, e⟩ | ⟨-, -, e⟩ | ⟨-, -, e⟩
    · cases (execPdec_ok pd hx hy e).symm.trans h; simp
    · cases (execPdec_ok pd hx hy e).symm.trans h; simp
    · cases (execPdec_raised pd hx hy e).symm.trans h; simp
  | padd pd ps1 ps2 =>
    obtain ⟨q1, h1⟩ := Cell.ne_invalid_iff.1 (hP ps1 (by simp [pSources]))
    obtain ⟨q2, h2⟩ := Cell.ne_invalid_iff.1 (hP ps2 (by simp [pSources]))
    rcases pointAdd_ok_or_halt q1 q2 with ⟨q, hq⟩ | ⟨f, hf⟩
    · cases (execPadd_ok pd h1 h2 hq).symm.trans h; simp
    · cases (execPadd_halt pd h1 h2 hf).symm.trans h
  | penc rd ps =>
    obtain ⟨q, hq⟩ := Cell.ne_invalid_iff.1 (hP ps (by simp [pSources]))
    cases he : FReg.even rd with
    | true => cases (execPenc_valid he hq).symm.trans h; simp
    | false => cases (execPenc_odd he).symm.trans h; simp
  | pld pd slot =>
    rcases decodePoint_ok_or_raised (s.memRead (64 * slot) 64) with ⟨q, hq, -⟩ | ⟨e, he, hne⟩
    · cases (execPld_ok hq).symm.trans h; simp
    · cases (execPld_raised he).symm.trans h; simpa using hne
  | pst ps =>
    obtain ⟨q, hq⟩ := Cell.ne_invalid_iff.1 (hP ps (by simp [pSources]))
    cases (execPst_valid hq).symm.trans h; simp
  | add =>
    rcases execAdd_cases s with ⟨c, e⟩ | ⟨e, hne, he⟩
    · cases e.symm.trans h; simp
    · cases he.symm.trans h; simpa using hne

/-! ### Destinations -/

/-- A successful command leaves its F destinations valid (R34, R41). -/
theorem Effect.fDest_valid {r : FReg} (h : Effect i s u) (hr : r ∈ fDests i) : u.fCell r ≠ .invalid := by
  cases i with
  | fadd | fsub | fmul => obtain ⟨a, c, -, -, rfl⟩ := h; cases List.mem_singleton.1 hr; simp
  | finv => obtain ⟨a, -, -, rfl⟩ := h; cases List.mem_singleton.1 hr; simp
  | fld => obtain ⟨v, -, rfl⟩ := h; cases List.mem_singleton.1 hr; simp
  | penc rd =>
    obtain ⟨q, -, -, rfl⟩ := h
    rw [pairSecond_eq]
    rcases List.mem_pair.1 hr with rfl | rfl
    · rw [State.writeF_fCell]; split <;> simp
    · simp
  | fst | pchk | pdec | padd | pld | pst | add => exact absurd hr List.not_mem_nil

/-- A successful command leaves its P destination valid (R34, R41). -/
theorem Effect.pDest_valid {r : PReg} (h : Effect i s u) (hr : r ∈ pDests i) : u.pCell r ≠ .invalid := by
  cases i with
  | pdec => obtain ⟨x, y, q, -, -, -, rfl⟩ := h; cases List.mem_singleton.1 hr; simp
  | padd => obtain ⟨p1, p2, q, -, -, -, rfl⟩ := h; cases List.mem_singleton.1 hr; simp
  | pld => obtain ⟨q, -, rfl⟩ := h; cases List.mem_singleton.1 hr; simp
  | fadd | fsub | fmul | finv | fld | fst | pchk | penc | pst | add => exact absurd hr List.not_mem_nil

/-! ### Errors -/

/-- A command that ends with a code other than 0 has reported an error, and that alone (R231). -/
theorem exec_error (h : exec i s = .next t) (hc : t.code ≠ .ok) : ∃ e, t = s.raiseError e :=
  (exec_next h).resolve_left fun ⟨_, _, ht⟩ => hc (by rw [ht]; rfl)

/-- An in-flight word, legal or not, that ends with a code other than 0 has reported an error, and that alone (R231, R237). -/
theorem State.engineTurn_error (hb : s.busy = true) (h : s.engineTurn = .next t) (hc : t.code ≠ .ok) :
    ∃ e, t = s.raiseError e := by
  obtain ⟨w, hw⟩ := s.busy_iff.1 hb
  rcases s.engineTurn_cases with ⟨hidle, -⟩ | ⟨-, i, -, -, e⟩ | ⟨-, -, e⟩
  · cases hw.symm.trans hidle
  · exact exec_error (e.symm.trans h) hc
  · cases e.symm.trans h; exact ⟨_, rfl⟩

end Sys2Proof.Machine

namespace Sys2Proof.Slice0

open Sys2Proof Sys2Proof.Machine

/-- Settles O29: the read of an Invalid source raises code 6, no other check does, and a success has written every destination. -/
theorem uninitRegisterErrors : Obligations.UninitRegisterErrors := by
  refine ⟨fun i s hi h => ?_, fun _ _ _ => exec_code_ne_uninitRegister, fun i s t h hc => ?_⟩
  · rcases h with ⟨r, hr, hinv⟩ | ⟨r, hr, hinv⟩
    · exact exec_of_fSource_invalid hr hinv
    · exact exec_of_pSource_invalid hi hr hinv
  · rcases exec_next h with ⟨u, hu, rfl⟩ | ⟨e, rfl⟩
    · exact ⟨fun _ hr => hu.fDest_valid hr, fun _ hr => hu.pDest_valid hr⟩
    · cases hc

/-- Settles O30: whatever ends with a code other than 0 has reported an error, which is an update of the status alone. -/
theorem errorsWriteNothing : Obligations.ErrorsWriteNothing := by
  refine ⟨fun i s t h hc => ?_, fun s t w hw h hc => ?_⟩
  · obtain ⟨e, rfl⟩ := exec_error h hc
    exact ⟨rfl, rfl⟩
  · obtain ⟨e, rfl⟩ := State.engineTurn_error (s.busy_iff.2 ⟨w, hw⟩) h hc
    exact ⟨rfl, rfl⟩

/-- Settles O11: the step is the engine's turn, which is idle. -/
theorem idleEngineKeepsState : Obligations.IdleEngineKeepsState := by
  intro s hidle
  refine ⟨fun hs => ?_, fun rest hs => ?_⟩
  · rw [step_nil hs, State.engineTurn_idle hidle]
  · rw [step_cons hs]
    exact State.engineTurn_idle (s := { s with schedule := rest }) hidle

end Sys2Proof.Slice0
end

section
/-! Reset (spec/70_reset_and_hazards.md R270, R271): what the event leaves, that it forgets everything before it, and that no
other step makes a register Invalid (spec/10_state.md R34). -/

namespace Sys2Proof.Machine

open Sys2Proof.Slice0

/-- A step whose next event is a reset. -/
theorem step_reset {s : State} {rest : List Event} (h : s.schedule = .reset :: rest) :
    step s = .next { State.reset with schedule := rest } := by
  rw [step_cons h]; rfl

/-- Every register that is valid in s is valid in t. -/
structure ValidKept (s t : State) : Prop where
  fCell : ∀ r, s.fCell r ≠ .invalid → t.fCell r ≠ .invalid
  pCell : ∀ r, s.pCell r ≠ .invalid → t.pCell r ≠ .invalid

variable {i : Instr} {s t u : State}

theorem validKept_of_regs (hf : t.fregs = s.fregs) (hp : t.pregs = s.pregs) : ValidKept s t where
  fCell r h := by rwa [State.fCell, hf]
  pCell r h := by rwa [State.pCell, hp]

/-- A successful command leaves its destinations valid and every other register as it was. -/
theorem Effect.validKept (h : Effect i s u) : ValidKept s u where
  fCell r hr := by
    by_cases hd : r ∈ fDests i
    · exact h.fDest_valid hd
    · rwa [h.writes.fCell hd]
  pCell r hr := by
    by_cases hd : r ∈ pDests i
    · exact h.pDest_valid hd
    · rwa [h.writes.pCell hd]

theorem exec_validKept (h : exec i s = .next t) : ValidKept s t := by
  rcases exec_next h with ⟨u, hu, rfl⟩ | ⟨e, rfl⟩
  · exact ⟨hu.validKept.fCell, hu.validKept.pCell⟩
  · exact validKept_of_regs rfl rfl

theorem State.engineTurn_validKept (h : s.engineTurn = .next t) : ValidKept s t := by
  rcases s.engineTurn_cases with ⟨-, e⟩ | ⟨w, i, -, -, e⟩ | ⟨w, -, e⟩
  · cases e.symm.trans h; exact validKept_of_regs rfl rfl
  · exact exec_validKept (e.symm.trans h)
  · cases e.symm.trans h; exact validKept_of_regs rfl rfl

/-- Reset is the one event that makes a register Invalid. -/
theorem State.takeEvent_validKept {e : Event} (he : e ≠ .reset) (h : s.takeEvent e = .next t) : ValidKept s t := by
  cases e with
  | access a =>
    obtain ⟨hf, hp⟩ := (State.hostAccess_next h).regs
    exact validKept_of_regs hf hp
  | engine => exact State.engineTurn_validKept h
  | reset => exact absurd rfl he
  | accessDuringReset a => cases h

theorem step_validKept (hs : ∀ rest, s.schedule ≠ .reset :: rest) (h : step s = .next t) : ValidKept s t := by
  rcases hsched : s.schedule with _ | ⟨e, rest⟩
  · rw [step_nil hsched] at h
    exact State.engineTurn_validKept h
  · rw [step_cons hsched] at h
    have kept := State.takeEvent_validKept (fun he => hs rest (he ▸ hsched)) h
    exact ⟨kept.fCell, kept.pCell⟩

end Sys2Proof.Machine

namespace Sys2Proof.Slice0

open Sys2Proof Sys2Proof.Machine

/-- Settles O27: a reset leaves the reset state with the rest of the schedule, and no other agent makes a register Invalid. -/
theorem resetEvent : Obligations.ResetEvent := by
  refine ⟨fun s rest hs => ⟨_, step_reset hs, fun _ _ => rfl, fun _ _ => rfl, rfl, rfl, rfl, rfl, rfl, rfl, rfl,
    State.reset_fCell, State.reset_pCell, rfl, rfl⟩, fun s t h hs => ?_⟩
  have kept := step_validKept hs h
  exact ⟨fun r v hv => Cell.ne_invalid_iff.1 (kept.fCell r (Cell.ne_invalid_iff.2 ⟨v, hv⟩)),
    fun r q hq => Cell.ne_invalid_iff.1 (kept.pCell r (Cell.ne_invalid_iff.2 ⟨q, hq⟩))⟩

/-- Settles O28: what a reset leaves is a function of the rest of the schedule alone. -/
theorem resetForgetsEverything : Obligations.ResetForgetsEverything := fun _ _ _ h1 h2 =>
  ⟨_, step_reset h1, step_reset h2⟩

end Sys2Proof.Slice0
end

section
/-! Runs (spec/10_state.md R44, spec/20_memory.md R74, spec/70_reset_and_hazards.md R271, R281): from a state with the invariant
every served event has a next state, so a served schedule is taken event by event and the engine then completes what is owed. -/

namespace Sys2Proof.Machine

variable {s t : State} {e : Event} {rest : List Event}

/-! ### Served events complete -/

/-- A command in flight completes from a state with the invariant, and an idle engine keeps its state. -/
theorem State.Inv.engineTurn_completes (h : s.Inv) : ∃ t, s.engineTurn = .next t := by
  rcases s.engineTurn_cases with ⟨-, e⟩ | ⟨w, i, -, -, e⟩ | ⟨w, -, e⟩
  · exact ⟨_, e⟩
  · obtain ⟨t, ht, -⟩ := Slice0.everyCommandCompletes i s h.pointsValid
    exact ⟨t, e.trans ht⟩
  · exact ⟨_, e⟩

/-- An access that the port takes or that misses the window is performed (R74). -/
theorem State.hostAccess_completes {a : Access} (h : a.taken = true) : ∃ t, s.hostAccess a = .next t := by
  cases a with
  | read addr width =>
    rcases hoff : offsetOf addr with _ | off
    · exact ⟨s, by rw [State.hostAccess, hoff]⟩
    · rw [Access.taken, hoff] at h
      exact ⟨_, by rw [State.hostAccess, hoff]; exact s.readAt_taken h⟩
  | write addr width data =>
    rcases hoff : offsetOf addr with _ | off
    · exact ⟨s, by rw [State.hostAccess, hoff]⟩
    · rw [Access.taken, hoff] at h
      exact ⟨_, by rw [State.hostAccess, hoff]; exact s.writeAt_taken data h⟩

theorem State.Inv.takeEvent_completes (h : s.Inv) (he : e.served = true) : ∃ t, s.takeEvent e = .next t := by
  cases e with
  | access a => exact State.hostAccess_completes he
  | engine => exact h.engineTurn_completes
  | reset => exact ⟨_, rfl⟩
  | accessDuringReset a => cases he

/-! ### No agent changes the schedule -/

theorem HostEffect.schedule (h : HostEffect s t) : t.schedule = s.schedule := by
  cases h <;> rfl

theorem State.engineTurn_schedule (h : s.engineTurn = .next t) : t.schedule = s.schedule := by
  rcases s.engineTurn_cases with ⟨-, e⟩ | ⟨w, i, -, -, e⟩ | ⟨w, -, e⟩
  · cases e.symm.trans h; rfl
  · obtain ⟨-, -, -, -, -, hsched, -⟩ := exec_control (e.symm.trans h)
    exact hsched
  · cases e.symm.trans h; rfl

theorem State.takeEvent_schedule (h : s.takeEvent e = .next t) : t.schedule = s.schedule := by
  cases e with
  | access a => exact (State.hostAccess_next h).schedule
  | engine => exact State.engineTurn_schedule h
  | reset => cases h; rfl
  | accessDuringReset a => cases h

/-! ### Runs -/

/-- A served event is taken off the schedule, the invariant kept. -/
theorem State.Inv.step_served (h : s.Inv) (hs : s.schedule = e :: rest) (he : e.served = true) :
    ∃ t, step s = .next t ∧ t.schedule = rest ∧ t.Inv := by
  have h' : { s with schedule := rest }.Inv := ⟨h.memWf, h.pointsValid, h.lifeCycle⟩
  obtain ⟨t, ht⟩ := h'.takeEvent_completes he
  exact ⟨t, (step_cons hs).trans ht, State.takeEvent_schedule ht, h'.takeEvent ht⟩

/-- After its turn the engine owes nothing (R281). -/
theorem State.engineTurn_busy (h : s.engineTurn = .next t) : t.busy = false := by
  cases hb : s.busy with
  | true => exact (State.engineTurn_ends hb h).1
  | false =>
    have hidle : s.inflight = none := by rwa [State.busy, Option.isSome_eq_false_iff, Option.isNone_iff_eq_none] at hb
    cases (State.engineTurn_idle hidle).symm.trans h
    exact hb

/-- With the schedule used up the step is the engine's, after which it is at rest. -/
theorem State.Inv.step_last (h : s.Inv) (hs : s.schedule = []) :
    ∃ t, step s = .next t ∧ t.busy = false ∧ t.schedule = [] ∧ t.Inv := by
  obtain ⟨t, ht⟩ := h.engineTurn_completes
  exact ⟨t, (step_nil hs).trans ht, State.engineTurn_busy ht, (State.engineTurn_schedule ht).trans hs, h.engineTurn ht⟩

/-- A run goes on from the state its first step answers. -/
theorem run_succ_of_step (k : Nat) (h : step s = .next t) : core.run (k + 1) s = core.run k t := by
  have h' : core.step s = .next t := h
  simp only [Host.Core.run, h']

end Sys2Proof.Machine

namespace Sys2Proof.Slice0

open Sys2Proof Sys2Proof.Machine

/-- Settles O58, by induction on the schedule: each served event is one step, and the last step is the engine's. -/
theorem everyScheduleDrains : Obligations.EveryScheduleDrains := by
  intro s h hserved
  induction hs : s.schedule generalizing s with
  | nil =>
    obtain ⟨t, ht, hrest⟩ := h.step_last hs
    exact ⟨t, run_succ_of_step 0 ht, hrest⟩
  | cons e rest ih =>
    rw [State.scheduleServed, hs, List.all_cons, Bool.and_eq_true] at hserved
    obtain ⟨he, hrest⟩ := hserved
    obtain ⟨t, ht, hsched, hinv⟩ := h.step_served hs he
    obtain ⟨u, hu, hend⟩ := ih t hinv (by rwa [State.scheduleServed, hsched]) hsched
    exact ⟨u, (run_succ_of_step _ ht).trans hu, hend⟩

end Sys2Proof.Slice0
end
